-- ==== Sys2Proof/Word.lean ====
section
/-! DEFINITION. The word types of the block (00_scope.md R7: a byte is 8 bits, bit 7 the most significant). -/

namespace Sys2Proof

/-- A byte: every host register, every buffer byte and every byte on the wire (R7, R51). -/
abbrev Byte := BitVec 8

/-- A 16-bit checksum value (10_state.md R30). -/
abbrev Half := BitVec 16

/-- The millisecond clock and the instants taken from it: `MS_WIDTH = 32` bits (10_state.md R41). -/
abbrev Millis := BitVec 32

end Sys2Proof
end

