-- ==== Sys2Proof/Config.lean ====
section
/-! DEFINITION. What an implementation fixes (00_scope.md R6): the constants the spec gives, the parameters a model
takes as an argument (the record `Params`, held in State and never changed by a step: notes/assumptions/11.md), and
the free values (opaque, no body: notes/assumptions/8.md). -/

namespace Sys2Proof

namespace Config

/-- `SANE_MAX` (R6): a BSB or LPB length field above this is insane (R118, R163). -/
def saneMax : Nat := 32

/-- `DEADLINE_MS` (R6): the overall deadline of one SEND (R170, R172). -/
def deadlineMs : Nat := 1000

/-- The smallest BSB or LPB frame SEND transmits (43_transmitter.md R163). -/
def minSendLen : Nat := 6

/-- `LEN_IDX_BSB` (R6, R79). -/
def lenIdxBsb : Byte := 3

/-- `LEN_IDX_LPB` (R6, R79). -/
def lenIdxLpb : Byte := 1

/-- `PPS_LONG_LEN_IDX` (R6, R79, R82). -/
def ppsLongLenIdx : Byte := 9

/-- `PPS_AFTER_SHORT_LEN_IDX` (R6, R82, R114). -/
def ppsAfterShortLenIdx : Byte := 8

/-- The CRC-16/XMODEM polynomial (42_checksum.md R140). -/
def crcPoly : Half := 0x1021

/-- What `CRC_LPB` subtracts the length from, before it is weighted (42_checksum.md R142). -/
def lpbTotal : Int := 257

/-- What `CRC_LPB` subtracts from the length (42_checksum.md R142). -/
def lpbBias : Int := 2

/-- BSB's start of frame, the one SEND writes (30_encoding.md R78). -/
def sofBsbDc : Byte := 0xDC

/-- BSB's second start of frame (30_encoding.md R78). -/
def sofBsbDe : Byte := 0xDE

/-- LPB's start of frame (30_encoding.md R78). -/
def sofLpb : Byte := 0x78

/-- PPS's start of frame that can be a whole frame (30_encoding.md R78, R82). -/
def sofPps17 : Byte := 0x17

/-- PPS's second start of frame (30_encoding.md R78). -/
def sofPps1D : Byte := 0x1D

/-- PPS's third start of frame (30_encoding.md R78). -/
def sofPps1E : Byte := 0x1E

/-- The own address under which a PPS 0x17 is a whole frame (41_parser.md R113). -/
def ppsShortOwn : Byte := 1

/-- Bit 7 of BSB's source address byte (30_encoding.md R80). -/
def bsbSourceFlag : Byte := 0x80

/-- The address sentinel "leave unchanged" (40_config.md R101). -/
def addrSentinel : Byte := 0xFF

/-- FREE VALUE (10_state.md R43, I3): the backoff draw that no script gives, before it is brought into
`BACKOFF_MIN_MS..BACKOFF_MAX_MS`; applied to the draw counter. DESIGN CHOICE notes/assumptions/8.md, safe. -/
opaque freeBackoff : Nat → Nat

/-- FREE VALUE (10_state.md R39, R43, I4): whether an offer that no script answers is accepted; applied to the
draw counter. DESIGN CHOICE notes/assumptions/8.md, safe. -/
opaque freeAccept : Nat → Bool

/-- FREE VALUE (41_parser.md R114, I6): whether an unscripted PPS length draw is 8 (else 9); applied to the draw
counter. DESIGN CHOICE notes/assumptions/8.md, safe. -/
opaque freePpsShort : Nat → Bool

end Config

/-- `LPB_ADDR_ORDER` (R6, R81): which address an LPB frame holds at offset 2. -/
inductive LpbAddrOrder where
  | destAt2
  | ownAt2
  deriving DecidableEq, Repr

/-- `RX_DURING_CS` (R6, R42, R210): what becomes of a byte the wire delivers while `cs_active = 1`. -/
inductive RxDuringCs where
  | delayed
  | lost
  deriving DecidableEq, Repr

/-- What the transport does with a byte for a full `RXQ` (10_state.md R38, U11: the transport's choice).
DESIGN CHOICE notes/assumptions/12.md. -/
inductive RxOverrun where
  | dropNewest
  | dropOldest
  deriving DecidableEq, Repr

/-- How BSB's source address byte gets its bit 7 (I11): by OR (the default, 30_encoding.md R80) or by addition. -/
inductive BsbSource where
  | orFlag
  | addFlag
  deriving DecidableEq, Repr

/-- The parameters of 00_scope.md R6 and 93_implementation_defined.md that one implementation fixes. -/
structure Params where
  /-- `BUF_CAP`, 33 to 64 (R6, R27). -/
  bufCap : Nat
  /-- `BACKOFF_MIN_MS` (R6, R170). -/
  backoffMin : Byte
  /-- `BACKOFF_MAX_MS` (R6, R170). -/
  backoffMax : Byte
  /-- `LPB_ADDR_ORDER`, OPEN (R81, R165). -/
  lpbAddrOrder : LpbAddrOrder
  /-- `RX_FIFO_DEPTH`, OPEN (R6, R38, D37); that it is at least 1 is the model's choice (notes/assumptions/11.md). -/
  rxFifoDepth : Nat
  /-- `RX_DURING_CS`, OPEN (R42, R210). -/
  rxDuringCs : RxDuringCs
  /-- The transport's choice at a full queue (U11). -/
  rxOverrun : RxOverrun
  /-- The switch that forces the accepted count to 1 (R39, I4, I12); off by default. -/
  forceAccept : Bool
  /-- The form of the BSB source byte (I11). -/
  bsbSource : BsbSource
  /-- `T_SETTLE_US`, OPEN (R6, R115); no rule of the model depends on it (70 R243). -/
  tSettleUs : Nat
  /-- `T_BYTE_US`, OPEN (R6, R116); no rule of the model depends on it (70 R243). -/
  tByteUs : Nat
  deriving DecidableEq, Repr

/-- The default parameters: R6's where it gives a default. The values of `rxFifoDepth`, `rxDuringCs`, `rxOverrun`,
`tSettleUs` and `tByteUs` are DESIGN CHOICE, unsafe where a claim leans on them (notes/assumptions/11.md). -/
def Params.default : Params where
  bufCap := 64
  backoffMin := 26
  backoffMax := 85
  lpbAddrOrder := .destAt2
  rxFifoDepth := 256
  rxDuringCs := .delayed
  rxOverrun := .dropNewest
  forceAccept := false
  bsbSource := .orFlag
  tSettleUs := 0
  tByteUs := 0

end Sys2Proof
end

