-- ==== Sys2Proof/Syntax.lean ====
section
/-! DEFINITION. The instructions: one constructor per row of spec/opcode_table.json (30_encoding.md R70 to R72, R78),
with the variants and buffers they speak of. No row has an operand field: the operands of a command are read from
registers and buffers (R73). -/

namespace Sys2Proof

/-- The three bus variants (10_state.md R21, 30_encoding.md R75). Code 3 is reserved and never stored. -/
inductive Variant where
  | bsb
  | lpb
  | pps
  deriving DecidableEq, Repr

/-- The two frame buffers (10_state.md R27), named by `BUFSEL` (30_encoding.md R71). -/
inductive Buffer where
  | tx
  | rx
  deriving DecidableEq, Repr

/-- The ten legal commands (format CMD8) and the six start-of-frame wire bytes (format WIRE_SOF8). -/
inductive Instr where
  /-- `NOP`, 0x00 (R104). -/
  | nop
  /-- `CONFIGURE`, 0x01 (R100). -/
  | configure
  /-- `CKSUM.BSB TX`, 0x02 (R146). -/
  | cksumBsbTx
  /-- `CKSUM.BSB RX`, 0x12 (R146). -/
  | cksumBsbRx
  /-- `CKSUM.LPB TX`, 0x03 (R147). -/
  | cksumLpbTx
  /-- `CKSUM.LPB RX`, 0x13 (R147). -/
  | cksumLpbRx
  /-- `CKSUM.PPS TX`, 0x04 (R148). -/
  | cksumPpsTx
  /-- `CKSUM.PPS RX`, 0x14 (R148). -/
  | cksumPpsRx
  /-- `RECEIVE`, 0x05 (R110). -/
  | receive
  /-- `SEND`, 0x06 (R160). -/
  | send
  /-- Wire byte 0x23: BSB SOF 0xDC (R78, R111). -/
  | sofBsbDc
  /-- Wire byte 0x21: BSB SOF 0xDE (R78, R111). -/
  | sofBsbDe
  /-- Wire byte 0x87: LPB SOF 0x78 (R78, R111). -/
  | sofLpb
  /-- Wire byte 0x17: PPS SOF 0x17 (R78, R111, R113). -/
  | sofPps17
  /-- Wire byte 0x1D: PPS SOF 0x1D (R78, R111). -/
  | sofPps1D
  /-- Wire byte 0x1E: PPS SOF 0x1E (R78, R111). -/
  | sofPps1E
  deriving DecidableEq, Repr

/-- Where an instruction's byte is read: as a command byte, or as a wire byte under a variant. The two decoders are
separate (R70, R78): 0x17 is an illegal command and a PPS start of frame. -/
inductive Space where
  | command
  | wire (v : Variant)
  deriving DecidableEq, Repr

/-- The format column of the opcode table, with the variant of a start-of-frame row. -/
def Instr.space : Instr → Space
  | .nop => .command
  | .configure => .command
  | .cksumBsbTx => .command
  | .cksumBsbRx => .command
  | .cksumLpbTx => .command
  | .cksumLpbRx => .command
  | .cksumPpsTx => .command
  | .cksumPpsRx => .command
  | .receive => .command
  | .send => .command
  | .sofBsbDc => .wire .bsb
  | .sofBsbDe => .wire .bsb
  | .sofLpb => .wire .lpb
  | .sofPps17 => .wire .pps
  | .sofPps1D => .wire .pps
  | .sofPps1E => .wire .pps

/-- The three fields of a command word (30_encoding.md R71), before any check. -/
structure CmdFields where
  /-- bits 3:0 -/
  op : BitVec 4
  /-- bit 4 -/
  bufsel : Bool
  /-- bits 7:5 -/
  rsv : BitVec 3
  deriving DecidableEq, Repr

end Sys2Proof
end

