-- ==== Sys2Proof/WellFormed.lean ====
section
/-! DEFINITION. The checks: on the fields of a command word (30_encoding.md R71, R84), on an instruction, and on the
parameters (00_scope.md R6). -/

namespace Sys2Proof

/-- `RSV` must be 0 (R71). -/
def CmdFields.rsvOk (f : CmdFields) : Bool := f.rsv == 0

/-- `OP` 0x0 to 0x6 are assigned (R72). -/
def CmdFields.opOk (f : CmdFields) : Bool := f.op.toNat ≤ 6

/-- `OP` of a CKSUM operation (R72). -/
def CmdFields.isCksum (f : CmdFields) : Bool := f.op == 2 || f.op == 3 || f.op == 4

/-- `BUFSEL` must be 0 outside the CKSUM operations (R71). -/
def CmdFields.bufselOk (f : CmdFields) : Bool := !f.bufsel || f.isCksum

/-- A legal command word (R71, R84). -/
def CmdFields.wellFormed (f : CmdFields) : Bool := f.rsvOk && f.opOk && f.bufselOk

/-- No row of the table has an operand field, so every instruction is well formed. -/
abbrev Instr.wellFormed (_ : Instr) : Bool := true

/-- `BUF_CAP` is 33 to 64 (R6, D29). -/
def Params.bufCapOk (p : Params) : Bool := 33 ≤ p.bufCap && p.bufCap ≤ 64

/-- The backoff range is not empty (R6, R43). -/
def Params.backoffOk (p : Params) : Bool := p.backoffMin.toNat ≤ p.backoffMax.toNat

/-- The receive queue holds at least one byte. DESIGN CHOICE, unsafe (notes/assumptions/11.md): R6, R38 and D37 leave
`RX_FIFO_DEPTH` OPEN and state no least depth; the bound is the model's own. -/
def Params.fifoOk (p : Params) : Bool := 1 ≤ p.rxFifoDepth

/-- The admissible parameters: R6's bounds, and the model's own on `RX_FIFO_DEPTH` (notes/assumptions/11.md). -/
def Params.wellFormed (p : Params) : Bool := p.bufCapOk && p.backoffOk && p.fifoOk

end Sys2Proof
end

