-- ==== Sys2Proof/Decode.lean ====
section
/-! DEFINITION. The decoders of 30_encoding.md, total on every byte and rejecting by name, and after them the
encoder. Every instruction is one byte (R85). -/

namespace Sys2Proof

/-- Why a byte is no instruction. -/
inductive Reject where
  /-- `RSV != 0` (R71, R84). -/
  | reservedBits
  /-- `OP` 0x7 to 0xF (R72, R84). -/
  | unassignedOp
  /-- `BUFSEL = 1` with a non-CKSUM `OP` (R71, R84). -/
  | bufselNotAllowed
  /-- No start of frame of the active variant (R78, R84). -/
  | notSof
  /-- There is no byte to read. -/
  | noByte
  deriving DecidableEq, Repr

/-- The fields of a command word (R71): `OP = v[3:0]`, `BUFSEL = v[4]`, `RSV = v[7:5]`. -/
def cmdFields (b : Byte) : CmdFields where
  op := b.extractLsb' 0 4
  bufsel := b.getLsbD 4
  rsv := b.extractLsb' 5 3

/-- The operation map (R72) on the fields of a legal word. -/
def opInstr (f : CmdFields) : Option Instr :=
  match f.op.toNat, f.bufsel with
  | 0, false => some .nop
  | 1, false => some .configure
  | 2, false => some .cksumBsbTx
  | 2, true => some .cksumBsbRx
  | 3, false => some .cksumLpbTx
  | 3, true => some .cksumLpbRx
  | 4, false => some .cksumPpsTx
  | 4, true => some .cksumPpsRx
  | 5, false => some .receive
  | 6, false => some .send
  | _, _ => none

/-- The command decoder (R71, R72, R84). -/
def decodeCommand (b : Byte) : Except Reject Instr :=
  let f := cmdFields b
  if !f.rsvOk then .error .reservedBits
  else if !f.opOk then .error .unassignedOp
  else if !f.bufselOk then .error .bufselNotAllowed
  else
    match opInstr f with
    | some i => .ok i
    | none => .error .unassignedOp

/-- Polarity (R77): a logical byte is the inverted wire byte for BSB and LPB, the wire byte itself for PPS. The same
map takes a logical byte to its wire byte. -/
def polarity (v : Variant) (b : Byte) : Byte :=
  match v with
  | .bsb => ~~~b
  | .lpb => ~~~b
  | .pps => b

/-- The start-of-frame table (R78), on LOGICAL bytes. -/
def sofInstr (v : Variant) (b : Byte) : Option Instr :=
  match v with
  | .bsb => if b = Config.sofBsbDc then some .sofBsbDc else if b = Config.sofBsbDe then some .sofBsbDe else none
  | .lpb => if b = Config.sofLpb then some .sofLpb else none
  | .pps =>
    if b = Config.sofPps17 then some .sofPps17
    else if b = Config.sofPps1D then some .sofPps1D
    else if b = Config.sofPps1E then some .sofPps1E
    else none

/-- The wire decoder (R77, R78, R111): a WIRE byte under the active variant. -/
def decodeWire (v : Variant) (w : Byte) : Except Reject Instr :=
  match sofInstr v (polarity v w) with
  | some i => .ok i
  | none => .error .notSof

/-- The instruction a byte is in its place. -/
def decode (sp : Space) (b : Byte) : Except Reject Instr :=
  match sp with
  | .command => decodeCommand b
  | .wire v => decodeWire v b

/-- The decoder on a sequence of bytes: one byte is read, the rest is handed back (R85). -/
def decodeBytes (sp : Space) (bs : List Byte) : Except Reject (Instr × List Byte) :=
  match bs with
  | [] => .error .noByte
  | b :: rest =>
    match decode sp b with
    | .ok i => .ok (i, rest)
    | .error e => .error e

/-- The byte of an instruction: the `CMD` byte (R72), or the wire byte of the start of frame (R78). -/
def encode : Instr → Byte
  | .nop => 0x00
  | .configure => 0x01
  | .cksumBsbTx => 0x02
  | .cksumBsbRx => 0x12
  | .cksumLpbTx => 0x03
  | .cksumLpbRx => 0x13
  | .cksumPpsTx => 0x04
  | .cksumPpsRx => 0x14
  | .receive => 0x05
  | .send => 0x06
  | .sofBsbDc => 0x23
  | .sofBsbDe => 0x21
  | .sofLpb => 0x87
  | .sofPps17 => 0x17
  | .sofPps1D => 0x1D
  | .sofPps1E => 0x1E

/-- The variant under which a wire byte starts a frame, if any: the six wire bytes of R78 are distinct. -/
def wireVariant (b : Byte) : Option Variant :=
  if (sofInstr .bsb (polarity .bsb b)).isSome then some .bsb
  else if (sofInstr .lpb (polarity .lpb b)).isSome then some .lpb
  else if (sofInstr .pps (polarity .pps b)).isSome then some .pps
  else none

/-- The place a row's byte belongs to: the command bytes and the wire bytes of the table are disjoint, so the byte
alone says which decoder reads it; a byte of neither kind is read as a command. -/
def rowSpace (b : Byte) : Space :=
  match decodeCommand b with
  | .ok _ => .command
  | .error _ =>
    match wireVariant b with
    | some v => .wire v
    | none => .command

/-- The instruction of a table row's word (`nbits` is 8 for every row of the table). -/
def decodeTableWord (nbits w : Nat) : Option Instr :=
  if nbits = 8 ∧ w < 256 then
    match decode (rowSpace (BitVec.ofNat 8 w)) (BitVec.ofNat 8 w) with
    | .ok i => some i
    | .error _ => none
  else none

end Sys2Proof
end

