-- ==== Sys2Proof/Machine/Checksum.lean ====
section
/-! DEFINITION. The three checksum engines, pure functions of the bytes they are given (42_checksum.md R140 to R145,
R149, R150). The parameters of CRC-16/XMODEM that the source does not state are G2's (notes/assumptions/23.md). -/

namespace Sys2Proof.Machine

/-- One shift of the CRC register: bit 15 decides whether the polynomial is added (R140). -/
def crcShift (c : Half) : Half :=
  if c.getLsbD 15 then (c <<< 1) ^^^ Config.crcPoly else c <<< 1

/-- Eight shifts (R140). -/
def crcShift8 (c : Half) : Half :=
  crcShift (crcShift (crcShift (crcShift (crcShift (crcShift (crcShift (crcShift c)))))))

/-- One byte into the CRC register, at its high end (R140). -/
def crcByte (c : Half) (b : Byte) : Half := crcShift8 (c ^^^ (b.setWidth 16 <<< 8))

/-- `CRC_BSB` over the given bytes, initial value 0 (R140). -/
def crcBsb (bs : List Byte) : Half := bs.foldl crcByte 0

/-- The exact sum of bytes (R142, R144). -/
def byteSum (bs : List Byte) : Nat := (bs.map BitVec.toNat).sum

/-- `CRC_LPB` (R142): `bs` is `buf[0..L-2]`, `L` the frame length minus 1. -/
def crcLpb (bs : List Byte) (L : Nat) : Half :=
  BitVec.ofInt 16 ((Config.lpbTotal - (L : Int)) * 256 + ((L : Int) - Config.lpbBias) + (byteSum bs : Int))

/-- How many bytes `CRC_LPB` reads for `L`: `buf[0..L-2]`, none when `L < 2` (R142, R147). -/
def lpbReadCount (L : Nat) : Nat := L - 1

/-- `CRC_PPS` (R144): `u8(0xFF - s + 1)` for `s = u8(Σ bytes)`. -/
def crcPps (bs : List Byte) : Byte :=
  BitVec.ofInt 8 (0xFF - ((byteSum bs % 256 : Nat) : Int) + 1)

/-- `{hi, lo}`: the trailer value of two bytes, high byte first (20_memory.md R58). -/
def trailerValue (hi lo : Byte) : Half := hi ++ lo

/-- `c[15:8]` (20_memory.md R58). -/
def hiByte (c : Half) : Byte := c.extractLsb' 8 8

/-- `c[7:0]` (20_memory.md R58). -/
def loByte (c : Half) : Byte := c.extractLsb' 0 8

end Sys2Proof.Machine
end

