-- ==== Sys2Proof/Machine/State.lean ====
section
/-! DEFINITION. The state of the block and of the agents around it, as plain data (10_state.md), the reasons a step can
stop (60_exceptions.md R208), and the state right after reset (70_reset_and_hazards.md R231). -/

namespace Sys2Proof.Machine

/-- The Engine's sequencing register (10_state.md R33). -/
inductive Phase where
  | idle
  | exec
  | rxHunt
  | rxSettle
  | rxByte
  | rxCheck
  | txPrep
  | txAcq
  | txWait
  | txChk
  | txByte
  deriving DecidableEq, Repr

/-- The error codes of `STATUS.ERR` that are ever produced (30_encoding.md R76); 9 to 15 are reserved. -/
inductive ErrCode where
  | none
  | noSof
  | lenInsane
  | lenMismatch
  | checksum
  | busTimeout
  | overflow
  | notConfigured
  | badOp
  deriving DecidableEq, Repr

/-- A frame buffer: (index, byte) pairs, indices strictly rising; an unlisted index is an unwritten byte
(10_state.md R27). -/
abbrev Memory := List Host.Cell

/-- One offer of `tx_write`: the wire byte and the count the transport accepted (10_state.md R39). -/
structure Offer where
  data : Byte
  accepted : Nat
  deriving DecidableEq, Repr

/-- A host access to the register space (20_memory.md R50, R51); `width` is in bytes. -/
inductive HostAccess where
  | read (addr : Byte) (width : Nat)
  | write (addr : Byte) (width : Nat) (value : Byte)
  deriving DecidableEq, Repr

/-- The Transport agent's own steps (10_state.md R36). -/
inductive TransportStep where
  | rxArrive (b : Byte)
  | rxTimeout
  | line (busy : Bool)
  deriving DecidableEq, Repr

/-- A scripted answer to a free input (30_encoding.md R86, 10_state.md R43). -/
inductive Draw where
  | backoff (d : Byte)
  | accept (count : Nat)
  | busy (b : Bool)
  | ppsLi (li : Byte)
  deriving DecidableEq, Repr

/-- How a free input with no pending `DRAW` is answered (10_state.md R43, D20; notes/assumptions/8.md). -/
inductive Unscripted where
  /-- Any value of its range: the opaque free value of Config. -/
  | anyValue
  /-- The deterministic simulator's default. -/
  | simulator
  deriving DecidableEq, Repr

/-- A step of an agent other than the Host (10_state.md R20), or of the reset input (70 R230): what can fall between two
reads of a polling Host. -/
inductive OtherTurn where
  | engine
  | transport (t : TransportStep)
  | tick
  | reset
  deriving DecidableEq, Repr

/-- Whose step comes next (10_state.md R20, 70 R230), or a line of a script: a `DRAW` (30_encoding.md R86), or what
answers the free inputs that have none (10_state.md R43). `waitDone between` is the Host polling `STATUS` until `DONE = 1`
(30_encoding.md R87), the other agents taking the turns `between` after every read that finds `DONE = 0`
(notes/assumptions/30.md). -/
inductive Turn where
  | engine
  | host (a : HostAccess)
  | transport (t : TransportStep)
  | tick
  | reset
  | draw (d : Draw)
  | unscripted (u : Unscripted)
  | waitDone (between : List OtherTurn)
  deriving DecidableEq, Repr

/-- Everything the machine holds. -/
structure State where
  /-- The implementation parameters (00_scope.md R6); no step changes them. -/
  params : Params
  /-- `CFG.variant` (R21). -/
  variant : Variant
  /-- `CFG.own` (R22). -/
  own : Byte
  /-- `CFG.dest` (R23). -/
  dest : Byte
  /-- `CFG_VALID.V` (R24). -/
  validV : Bool
  /-- `CFG_VALID.O` (R24). -/
  validO : Bool
  /-- `CFG_VALID.D` (R24). -/
  validD : Bool
  /-- `LEN_IDX` (R25). -/
  lenIdx : Byte
  /-- `PPS_OVR_PEND` (R26). -/
  ppsOvrPend : Bool
  /-- `TXBUF` (R27). -/
  txbuf : Memory
  /-- `RXBUF` (R27). -/
  rxbuf : Memory
  /-- `STATUS.DONE` (R28). `STATUS.BUSY` is `PHASE != IDLE` and is not stored twice. -/
  done : Bool
  /-- `STATUS.OK` (R28). -/
  ok : Bool
  /-- `STATUS.ERR` (R28, R76). -/
  err : ErrCode
  /-- `RXLEN` (R29). -/
  rxlen : Byte
  /-- `CKSUM` (R30). -/
  cksum : Half
  /-- `ARG` (R31). -/
  arg : Byte
  /-- `NEW_VARIANT` (R32). -/
  newVariant : BitVec 2
  /-- `NEW_OWN` (R32). -/
  newOwn : Byte
  /-- `NEW_DEST` (R32). -/
  newDest : Byte
  /-- `PHASE` (R33). -/
  phase : Phase
  /-- The accepted `CMD` byte (R54, 60 R200); `op` and `bsel` of R34 are its fields. -/
  cmd : Byte
  /-- `n`: `ARG` latched at acceptance (R34). -/
  n : Byte
  /-- `i`: the captured count (R34). -/
  i : Byte
  /-- `li`: the length field index of this parse (R34). -/
  li : Byte
  /-- `E`: the declared total length of this parse (R34, R119). -/
  declLen : Nat
  /-- `N`: the frame length of this send (R34, R162). -/
  sendLen : Nat
  /-- `k`: the index of the next byte to transmit (R34). -/
  k : Byte
  /-- `t0`: `MS` when SEND was accepted (R34, R160). -/
  t0 : Millis
  /-- `wstart`: `MS` at the start of the quiet wait (R34, R170). -/
  wstart : Millis
  /-- `d`: the current backoff (R34, R170). -/
  d : Byte
  /-- `to`: the timeout latch (R36). -/
  timeout : Bool
  /-- Output `cs_active` (R37, R42). -/
  csActive : Bool
  /-- Output `rx_pop` (R37). -/
  rxPop : Bool
  /-- Output `tx_strobe` (R37). -/
  txStrobe : Bool
  /-- Output `tx_data` (R37). -/
  txData : Byte
  /-- `RXQ`, oldest byte first (R38). -/
  rxq : List Byte
  /-- Bytes the wire delivered inside a critical section, to be queued after it (R42, notes/assumptions/13.md). -/
  csHeld : List Byte
  /-- The receive line's level, true = busy (R36, R40). -/
  lineBusy : Bool
  /-- `MS` (R41). -/
  ms : Millis
  /-- What the bus saw: every offer of `tx_write`, oldest first (the model's own field, notes/assumptions/21.md). -/
  offered : List Offer
  /-- What the Host's last read returned (the model's own field, notes/assumptions/7.md). -/
  hostData : Byte
  /-- The turns to come; when there is none, the Engine moves (the model's own field, notes/assumptions/1.md). DESIGN
  CHOICE: the list is finite, so an endless run is one of those notes/assumptions/31.md names. -/
  agenda : List Turn
  /-- Pending `DRAW backoff` values (R43, R86). -/
  backoffDraws : List Byte
  /-- Pending `DRAW accept` values (R43, R86). -/
  acceptDraws : List Nat
  /-- Pending `DRAW busy` values (R43, R86). -/
  busyDraws : List Bool
  /-- Pending `DRAW pps_li` values (R43, R86). -/
  ppsLiDraws : List Byte
  /-- What answers a free input without a `DRAW` (the model's own field, notes/assumptions/8.md). -/
  unscripted : Unscripted
  /-- How many opaque free values have been used (the model's own field, notes/assumptions/8.md). -/
  drawCount : Nat
  deriving DecidableEq, Repr

/-- Why the machine stops. -/
inductive Fault where
  /-- An Engine step or a host read of an unwritten buffer byte (10_state.md R27, 60 R208, U1), raised by every read of
  `TXBUF` or `RXBUF`. Safe: the spec itself makes it a model fault; no `STATUS` is written. -/
  | unwrittenByte (b : Buffer) (index : Nat)
  deriving DecidableEq, Repr

/-- Why a step is refused. -/
inductive Refusal where
  /-- An instruction without a meaning. No arm of `exec` answers with it. Safe. -/
  | notModelled (mnemonic : String)
  /-- A host access of a width other than one byte (20_memory.md R51, U3), raised by the Host's turn. Safe. -/
  | accessWidth (width : Nat)
  /-- A transport answer outside 0 and 1 (60 R208, U2), raised by the offer of `TX_BYTE`. Safe. -/
  | acceptedCount (count : Nat)
  /-- A scripted backoff outside `BACKOFF_MIN_MS..BACKOFF_MAX_MS` (10_state.md R43, 60 R208), raised by `TX_ACQ`. Safe. -/
  | backoffRange (d : Byte)
  /-- A scripted `pps_li` other than 8 and 9 (10_state.md R43, 60 R208), raised at a PPS start of frame. Safe. -/
  | ppsLiRange (li : Byte)
  deriving DecidableEq, Repr

/-- What one step answers. -/
abbrev Result := Host.Outcome State Fault Refusal

/-- The machine right after reset (70 R231). The working registers, `tx_data` and the fields of the other agents hold
the values that notes/assumptions/5.md, 6.md, 7.md, 8.md and 11.md name (DESIGN CHOICE). -/
def State.reset : State where
  params := Params.default
  variant := .bsb
  own := 0x00
  dest := 0x00
  validV := false
  validO := false
  validD := false
  lenIdx := 0x00
  ppsOvrPend := false
  txbuf := []
  rxbuf := []
  done := false
  ok := false
  err := .none
  rxlen := 0x00
  cksum := 0x0000
  arg := 0x00
  newVariant := 3
  newOwn := 0xFF
  newDest := 0xFF
  phase := .idle
  cmd := 0x00
  n := 0
  i := 0
  li := 0
  declLen := 0
  sendLen := 0
  k := 0
  t0 := 0
  wstart := 0
  d := 0
  timeout := false
  csActive := false
  rxPop := false
  txStrobe := false
  txData := 0x00
  rxq := []
  csHeld := []
  lineBusy := false
  ms := 0
  offered := []
  hostData := 0x00
  agenda := []
  backoffDraws := []
  acceptDraws := []
  busyDraws := []
  ppsLiDraws := []
  unscripted := .anyValue
  drawCount := 0

end Sys2Proof.Machine
end

