-- ==== Sys2Proof/Machine/Flags.lean ====
section
/-! DEFINITION. The status word and the other packed registers the host reads (10_state.md R24, R28, 30_encoding.md
R74 to R76). -/

namespace Sys2Proof.Machine

/-- The code of an error (30_encoding.md R76). -/
def ErrCode.code : ErrCode → BitVec 4
  | .none => 0
  | .noSof => 1
  | .lenInsane => 2
  | .lenMismatch => 3
  | .checksum => 4
  | .busTimeout => 5
  | .overflow => 6
  | .notConfigured => 7
  | .badOp => 8

/-- `STATUS.BUSY = (PHASE != IDLE)` (10_state.md R28, R33). -/
def State.busy (s : State) : Bool := s.phase != .idle

/-- `STATUS`: bit 0 BUSY, bit 1 DONE, bit 2 OK, bit 3 reads 0, bits 7:4 ERR (10_state.md R28). -/
def State.status (s : State) : Byte :=
  s.err.code ++ (BitVec.ofBool false ++ (BitVec.ofBool s.ok ++ (BitVec.ofBool s.done ++ BitVec.ofBool s.busy)))

/-- `CFG_VALID`: bit 0 V, bit 1 O, bit 2 D, bits 7:3 read 0 (10_state.md R24). -/
def State.cfgValid (s : State) : Byte :=
  (0 : BitVec 5) ++ (BitVec.ofBool s.validD ++ (BitVec.ofBool s.validO ++ BitVec.ofBool s.validV))

/-- The code of a variant (30_encoding.md R75). -/
def variantCode : Variant → BitVec 2
  | .bsb => 0
  | .lpb => 1
  | .pps => 2

/-- The variant of a code; 3 is reserved, "leave unchanged" (30_encoding.md R75, 40_config.md R102). -/
def variantOfCode (c : BitVec 2) : Option Variant :=
  if c = 0 then some .bsb else if c = 1 then some .lpb else if c = 2 then some .pps else none

end Sys2Proof.Machine
end

