-- ==== Sys2Proof/Machine/Memory.lean ====
section
/-! DEFINITION. The frame buffers as memory (10_state.md R27, 20_memory.md R50): reads, writes and the canonical form.
An unlisted index is unwritten, so no value is what an unlisted index reads as and no write removes an entry. -/

namespace Sys2Proof.Machine

/-- Byte `a` of a buffer; `none` when it is unwritten. -/
def Memory.read (m : Memory) (a : Nat) : Option Byte :=
  match m with
  | [] => none
  | (k, v) :: rest => if k = a then some v else Memory.read rest a

/-- Store byte `a`, keeping the indices in rising order. -/
def Memory.write (m : Memory) (a : Nat) (v : Byte) : Memory :=
  match m with
  | [] => [(a, v)]
  | (k, w) :: rest =>
    if a < k then (a, v) :: (k, w) :: rest
    else if a = k then (a, v) :: rest
    else (k, w) :: Memory.write rest a v

/-- The canonical form: indices strictly rising, so that equal buffers are equal lists. -/
abbrev Memory.wf (m : Memory) : Prop := (m.map Prod.fst).Pairwise (· < ·)

/-- No index at or above a capacity is listed (20_memory.md R66). -/
abbrev Memory.within (m : Memory) (cap : Nat) : Prop := ∀ c ∈ m, c.1 < cap

/-- Bytes `from` to `from + count - 1` in rising order, or the lowest unwritten index among them. -/
def Memory.readFrom (m : Memory) (start count : Nat) : Except Nat (List Byte) :=
  match count with
  | 0 => .ok []
  | c + 1 =>
    match Memory.read m start with
    | none => .error start
    | some b =>
      match Memory.readFrom m (start + 1) c with
      | .error j => .error j
      | .ok bs => .ok (b :: bs)

/-- Bytes `0` to `count - 1`, the argument of every checksum engine (42_checksum.md). -/
def Memory.readPrefix (m : Memory) (count : Nat) : Except Nat (List Byte) := Memory.readFrom m 0 count

end Sys2Proof.Machine
end

