-- ==== Sys2Proof/Machine/Operands.lean ====
section
/-! DEFINITION. What the operations read: buffers, lengths, the configuration tests, the clock and the free inputs
(30_encoding.md R73, R77 to R82, 10_state.md R41, R43). -/

namespace Sys2Proof.Machine

/-- The buffer a name stands for (30_encoding.md R73). -/
def State.buf (s : State) : Buffer → Memory
  | .tx => s.txbuf
  | .rx => s.rxbuf

/-- One byte of a buffer, or the model fault of an unwritten byte (10_state.md R27, 60 R208). -/
def State.readByte (s : State) (b : Buffer) (a : Nat) : Except Fault Byte :=
  match (s.buf b).read a with
  | some v => .ok v
  | none => .error (.unwrittenByte b a)

/-- The first `count` bytes of a buffer, or the model fault at the lowest unwritten one. -/
def State.readBytes (s : State) (b : Buffer) (count : Nat) : Except Fault (List Byte) :=
  match (s.buf b).readPrefix count with
  | .ok bs => .ok bs
  | .error j => .error (.unwrittenByte b j)

/-- `LEN_IDX` of a variant (40_config.md R102, 30_encoding.md R79). -/
def lenIdxOf : Variant → Byte
  | .bsb => Config.lenIdxBsb
  | .lpb => Config.lenIdxLpb
  | .pps => Config.ppsLongLenIdx

/-- `elapsed(t) = (MS - t) mod 2^32` (10_state.md R41). -/
def State.elapsed (s : State) (t : Millis) : Nat := (s.ms - t).toNat

/-- The first test of `RX_HUNT` passes (41_parser.md R111). -/
def State.receiveConfigured (s : State) : Bool :=
  s.validV && (s.variant != .pps || s.validO)

/-- The first tests of `TX_PREP` pass (43_transmitter.md R161). -/
def State.sendConfigured (s : State) : Bool :=
  s.validV && (s.variant == .pps || (s.validO && s.validD))

/-- The declared total length `E` of the frame being captured (41_parser.md R119). -/
def State.declaredLength (s : State) : Except Fault Nat :=
  match s.variant with
  | .bsb =>
    match s.readByte .rx Config.lenIdxBsb.toNat with
    | .ok v => .ok v.toNat
    | .error f => .error f
  | .lpb =>
    match s.readByte .rx Config.lenIdxLpb.toNat with
    | .ok v => .ok (v.toNat + 1)
    | .error f => .error f
  | .pps => .ok (s.li.toNat + 1)

/-- `frame_length()`: the number `N` of bytes SEND transmits (43_transmitter.md R162). -/
def State.frameLength (s : State) : Except Fault Nat :=
  match s.variant with
  | .bsb =>
    match s.readByte .tx Config.lenIdxBsb.toNat with
    | .ok v => .ok v.toNat
    | .error f => .error f
  | .lpb =>
    match s.readByte .tx Config.lenIdxLpb.toNat with
    | .ok v => .ok (v.toNat + 1)
    | .error f => .error f
  | .pps => .ok (s.lenIdx.toNat + 1)

/-- BSB's source address byte (43_transmitter.md R164, I11). -/
def bsbSourceByte (p : Params) (own : Byte) : Byte :=
  match p.bsbSource with
  | .orFlag => own ||| Config.bsbSourceFlag
  | .addFlag => own + Config.bsbSourceFlag

/-- `draw_backoff()` (10_state.md R43, 43_transmitter.md R170): a pending draw, which must lie in the range; else the
free value brought into the range, or the simulator's `BACKOFF_MIN_MS`. -/
def State.drawBackoff (s : State) : Except Refusal (Byte × State) :=
  match s.backoffDraws with
  | v :: rest =>
    if s.params.backoffMin.toNat ≤ v.toNat ∧ v.toNat ≤ s.params.backoffMax.toNat then
      .ok (v, { s with backoffDraws := rest })
    else .error (.backoffRange v)
  | [] =>
    match s.unscripted with
    | .simulator => .ok (s.params.backoffMin, s)
    | .anyValue =>
      .ok (s.params.backoffMin + BitVec.ofNat 8 (Config.freeBackoff s.drawCount %
            (s.params.backoffMax.toNat - s.params.backoffMin.toNat + 1)),
        { s with drawCount := s.drawCount + 1 })

/-- `tx_accepted` of one offer (10_state.md R39, R43): forced to 1 by the switch of I4; else a pending draw, which must
be 0 or 1 (60 R208); else the free value, or the simulator's 1. -/
def State.drawAccept (s : State) : Except Refusal (Nat × State) :=
  if s.params.forceAccept then .ok (1, s)
  else
    match s.acceptDraws with
    | v :: rest => if v ≤ 1 then .ok (v, { s with acceptDraws := rest }) else .error (.acceptedCount v)
    | [] =>
      match s.unscripted with
      | .simulator => .ok (1, s)
      | .anyValue =>
        .ok ((if Config.freeAccept s.drawCount then 1 else 0), { s with drawCount := s.drawCount + 1 })

/-- `line_busy()` (10_state.md R40, 30_encoding.md R86): a pending draw, else the line's current level. -/
def State.drawBusy (s : State) : Bool × State :=
  match s.busyDraws with
  | v :: rest => (v, { s with busyDraws := rest })
  | [] => (s.lineBusy, s)

/-- `pps_li` (41_parser.md R114, 10_state.md R43): a pending draw, which must be 8 or 9; else the free value, or the
simulator's 8. -/
def State.drawPpsLi (s : State) : Except Refusal (Byte × State) :=
  match s.ppsLiDraws with
  | v :: rest =>
    if v = Config.ppsAfterShortLenIdx ∨ v = Config.ppsLongLenIdx then .ok (v, { s with ppsLiDraws := rest })
    else .error (.ppsLiRange v)
  | [] =>
    match s.unscripted with
    | .simulator => .ok (Config.ppsAfterShortLenIdx, s)
    | .anyValue =>
      .ok ((if Config.freePpsShort s.drawCount then Config.ppsAfterShortLenIdx else Config.ppsLongLenIdx),
        { s with drawCount := s.drawCount + 1 })

end Sys2Proof.Machine
end

