-- ==== Sys2Proof/Machine/Ops.lean ====
section
/-! DEFINITION. The named operations on the state that the meanings share: holding, moving between phases, finishing
with success and with an error (60_exceptions.md R200, R202: the block's whole exception mechanism, R205, R206), the
buffers, the receive queue and the critical section. -/

namespace Sys2Proof.Machine

/-- The Engine has no step to take here (10_state.md R33, 41_parser.md R116): nothing changes. -/
def hold (s : State) : Result := .next s

/-- `goto PHASE` (00_scope.md R9). -/
def State.goto (s : State) (p : Phase) : State := { s with phase := p }

/-- A finish of RECEIVE, told by the whole accepted `CMD` byte, writes `RXLEN` (41_parser.md R124, 60 R200). -/
def State.finishRxlen (s : State) : Byte := if s.cmd = encode .receive then s.i else s.rxlen

/-- `finish_ok()` (60 R200). -/
def State.finishOk (s : State) : State :=
  { s with rxlen := s.finishRxlen, ok := true, err := .none, done := true, phase := .idle }

/-- `raise Err(e)` (60 R202): TAKING AN ERROR. There is no trap entry and no return (R205, R206). -/
def State.raiseErr (s : State) (e : ErrCode) : State :=
  { s with rxlen := s.finishRxlen, ok := false, err := e, done := true, phase := .idle }

/-- Store one byte of `TXBUF` (10_state.md R27). -/
def State.setTx (s : State) (a : Nat) (v : Byte) : State := { s with txbuf := s.txbuf.write a v }

/-- Store one byte of `RXBUF` (10_state.md R27). -/
def State.setRx (s : State) (a : Nat) (v : Byte) : State := { s with rxbuf := s.rxbuf.write a v }

/-- Write the captured count `i` (10_state.md R34). -/
def State.setCount (s : State) (c : Byte) : State := { s with i := c }

/-- Write the declared length `E` (10_state.md R34, 41_parser.md R119). -/
def State.setDeclLen (s : State) (e : Nat) : State := { s with declLen := e }

/-- Write the send length `N` (10_state.md R34, 43_transmitter.md R162). -/
def State.setSendLen (s : State) (len : Nat) : State := { s with sendLen := len }

/-- Write the transmit index `k` (10_state.md R34). -/
def State.setIndex (s : State) (k : Byte) : State := { s with k := k }

/-- Write `CKSUM` (10_state.md R30). -/
def State.setCksum (s : State) (c : Half) : State := { s with cksum := c }

/-- `rx_pop()` (10_state.md R38): `rx_pop` rises, the oldest byte leaves `RXQ`, `rx_pop` falls. -/
def State.popRx (s : State) : State :=
  let up : State := { s with rxPop := true, rxq := s.rxq.tail }
  { up with rxPop := false }

/-- A wire byte for `RXQ`, at most `RX_FIFO_DEPTH` bytes deep (10_state.md R38, U11). -/
def enqueue (p : Params) (q : List Byte) (b : Byte) : List Byte :=
  if q.length < p.rxFifoDepth then q ++ [b]
  else
    match p.rxOverrun with
    | .dropNewest => q
    | .dropOldest => q.tail ++ [b]

/-- `cs_enter()` (10_state.md R42). -/
def State.csEnter (s : State) : State := { s with csActive := true }

/-- `cs_exit()` (10_state.md R42): the receive path opens again, and the bytes held back are queued. -/
def State.csExit (s : State) : State :=
  { s with csActive := false, rxq := s.csHeld.foldl (enqueue s.params) s.rxq, csHeld := [] }

/-- `tx_write(w)` answered with `count` (10_state.md R37, R39): `tx_data = w`, `tx_strobe` pulses. -/
def State.offer (s : State) (w : Byte) (count : Nat) : State :=
  let up : State := { s with txData := w, txStrobe := true }
  { up with txStrobe := false, offered := s.offered ++ [{ data := w, accepted := count }] }

/-- Run `f` in phase `EXEC`; the operation has no step in any other phase (10_state.md R33, notes/assumptions/3.md). -/
def inExec (f : State → Result) (s : State) : Result :=
  match s.phase with
  | .exec => f s
  | _ => hold s

end Sys2Proof.Machine
end

