-- ==== Sys2Proof/Machine/Cksum.lean ====
section
/-! DEFINITION. The CKSUM family (42_checksum.md R146 to R148): each engine over each buffer, one `EXEC` step. -/

namespace Sys2Proof.Machine

/-- A CKSUM operation over buffer `b`: the length operand `n` above `BUF_CAP` raises OVERFLOW; else the bytes
`b[0..count-1]` are read (an unwritten one is a model fault) and `CKSUM` takes the engine's value (R146 to R149). -/
def cksumStep (b : Buffer) (count : Nat → Nat) (engine : List Byte → Nat → Half) (s : State) : Result :=
  if s.params.bufCap < s.n.toNat then .next (s.raiseErr .overflow)
  else
    match s.readBytes b (count s.n.toNat) with
    | .error f => .fault f
    | .ok bs => .next (s.setCksum (engine bs s.n.toNat)).finishOk

/-- `CKSUM.BSB` over a buffer (R146). -/
def cksumBsb (b : Buffer) (s : State) : Result := cksumStep b (fun n => n) (fun bs _ => crcBsb bs) s

/-- `CKSUM.LPB` over a buffer (R147). -/
def cksumLpb (b : Buffer) (s : State) : Result := cksumStep b lpbReadCount crcLpb s

/-- `CKSUM.PPS` over a buffer (R148). -/
def cksumPps (b : Buffer) (s : State) : Result :=
  cksumStep b (fun n => n) (fun bs _ => (crcPps bs).setWidth 16) s

/-- `CKSUM.BSB TX` (R146). -/
def execCksumBsbTx (s : State) : Result := inExec (cksumBsb .tx) s

/-- `CKSUM.BSB RX` (R146). -/
def execCksumBsbRx (s : State) : Result := inExec (cksumBsb .rx) s

/-- `CKSUM.LPB TX` (R147). -/
def execCksumLpbTx (s : State) : Result := inExec (cksumLpb .tx) s

/-- `CKSUM.LPB RX` (R147). -/
def execCksumLpbRx (s : State) : Result := inExec (cksumLpb .rx) s

/-- `CKSUM.PPS TX` (R148). -/
def execCksumPpsTx (s : State) : Result := inExec (cksumPps .tx) s

/-- `CKSUM.PPS RX` (R148). -/
def execCksumPpsRx (s : State) : Result := inExec (cksumPps .rx) s

end Sys2Proof.Machine
end

