-- ==== Sys2Proof/Machine/Configure.lean ====
section
/-! DEFINITION. The configuration family (40_config.md): NOP and CONFIGURE, one `EXEC` step each. -/

namespace Sys2Proof.Machine

/-- `write_variant(v)` (R102). -/
def State.writeVariant (s : State) (v : Variant) : State :=
  { s with variant := v, validV := true, lenIdx := lenIdxOf v, ppsOvrPend := false }

/-- CONFIGURE's variant argument: code 3 leaves the variant unchanged (R100, R102). -/
def State.configureVariant (s : State) : State :=
  match variantOfCode s.newVariant with
  | some v => s.writeVariant v
  | none => s

/-- CONFIGURE's own address: 0xFF leaves it unchanged (R100, R101). -/
def State.configureOwn (s : State) : State :=
  if s.newOwn = Config.addrSentinel then s else { s with own := s.newOwn, validO := true }

/-- CONFIGURE's destination address: 0xFF leaves it unchanged (R100, R101). -/
def State.configureDest (s : State) : State :=
  if s.newDest = Config.addrSentinel then s else { s with dest := s.newDest, validD := true }

/-- `NOP` (R104). -/
def execNop (s : State) : Result := inExec (fun s => .next s.finishOk) s

/-- `CONFIGURE` (R100). -/
def execConfigure (s : State) : Result :=
  inExec (fun s => .next s.configureVariant.configureOwn.configureDest.finishOk) s

end Sys2Proof.Machine
end

