-- ==== Sys2Proof/Machine/Parser.lean ====
section
/-! DEFINITION. The frame parser (41_parser.md): RECEIVE, phase by phase, and the start-of-frame bytes. -/

namespace Sys2Proof.Machine

/-- `pps_short()` (R113). -/
def ppsShort (s : State) : Result := .next { s with ppsOvrPend := true }.finishOk

/-- `select_li()` (R114): the length field index of this parse, and the state after a PPS draw. -/
def selectLi (s : State) : Except Refusal (Byte × State) :=
  if s.variant = .pps ∧ s.ppsOvrPend = true then State.drawPpsLi { s with ppsOvrPend := false }
  else .ok (s.lenIdx, s)

/-- `sof_found(b)` (R112), `b` the logical start-of-frame byte. -/
def sofFound (b : Byte) (s : State) : Result :=
  let s := (s.setRx 0 b).setCount 1
  if s.variant = .pps ∧ b = Config.sofPps17 ∧ s.own = Config.ppsShortOwn then ppsShort s
  else
    match selectLi s with
    | .error r => .refused r
    | .ok (li, s) => .next { s with li := li, phase := .rxSettle }

/-- The second half of `RX_HUNT` (R111): the wire byte `r` is popped, and starts a frame or is discarded. -/
def huntByte (r : Byte) (s : State) : Result :=
  let s := s.popRx
  let b := polarity s.variant r
  match sofInstr s.variant b with
  | some _ => sofFound b s
  | none => .next s

/-- Phase `RX_HUNT` (R111). -/
def rxHuntStep (s : State) : Result :=
  let s := s.setCount 0
  if s.receiveConfigured = false then .next (s.raiseErr .notConfigured)
  else
    match s.rxq with
    | [] => .next (s.raiseErr .noSof)
    | r :: _ => huntByte r s

/-- Phase `RX_SETTLE` (R115): the fixed pause is this one step. -/
def rxSettleStep (s : State) : Result := .next (s.goto .rxByte)

/-- The length sanity check of `after_append()` (R118), made once `i > li` for BSB and LPB: does the length field
read above `SANE_MAX`? -/
def lenFieldInsane (s : State) : Except Fault Bool :=
  if s.variant = .pps then .ok false
  else
    match s.readByte .rx s.li.toNat with
    | .error f => .error f
    | .ok v => .ok (decide (Config.saneMax < v.toNat))

/-- `after_append()` (R118 to R120). -/
def afterAppend (s : State) : Result :=
  if s.i.toNat ≤ s.li.toNat then .next (s.goto .rxByte)
  else
    match lenFieldInsane s with
    | .error f => .fault f
    | .ok true => .next (s.raiseErr .lenInsane)
    | .ok false =>
      match s.declaredLength with
      | .error f => .fault f
      | .ok e =>
        let s := s.setDeclLen e
        if e ≤ s.i.toNat then .next (s.goto .rxCheck) else .next (s.goto .rxByte)

/-- The second half of `RX_BYTE` (R116, R117): the wire byte `r` is popped and stored, or overflows. -/
def appendByte (r : Byte) (s : State) : Result :=
  let s := s.popRx
  if s.params.bufCap ≤ s.i.toNat then .next (s.raiseErr .overflow)
  else afterAppend ((s.setRx s.i.toNat (polarity s.variant r)).setCount (s.i + 1))

/-- Phase `RX_BYTE` (R116): a latched timeout wins; with neither a timeout nor a byte the Engine has no step. -/
def rxByteStep (s : State) : Result :=
  if s.timeout = true then .next { s with timeout := false, phase := .rxCheck }
  else
    match s.rxq with
    | [] => hold s
    | r :: _ => appendByte r s

/-- The recomputed checksum of the captured frame and whether it verifies (R123). -/
def frameChecksum (s : State) : Except Fault (Half × Bool) :=
  match s.variant with
  | .bsb =>
    match s.readBytes .rx s.declLen with
    | .error f => .error f
    | .ok bs => .ok (crcBsb bs, decide (crcBsb bs = 0))
  | .lpb =>
    let l := s.declLen - 1
    match s.readBytes .rx (lpbReadCount l) with
    | .error f => .error f
    | .ok bs =>
      match s.readByte .rx (l - 1) with
      | .error f => .error f
      | .ok hi =>
        match s.readByte .rx l with
        | .error f => .error f
        | .ok lo => .ok (crcLpb bs l, decide (crcLpb bs l = trailerValue hi lo))
  | .pps =>
    match s.readBytes .rx s.li.toNat with
    | .error f => .error f
    | .ok bs =>
      match s.readByte .rx s.li.toNat with
      | .error f => .error f
      | .ok last => .ok ((crcPps bs).setWidth 16, decide (crcPps bs = last))

/-- `checksum_check()` (R123). -/
def checksumCheck (s : State) : Result :=
  match frameChecksum s with
  | .error f => .fault f
  | .ok (c, good) =>
    let s := s.setCksum c
    if good then .next s.finishOk else .next (s.raiseErr .checksum)

/-- Phase `RX_CHECK` (R121, R123). -/
def rxCheckStep (s : State) : Result :=
  if s.i.toNat ≤ s.li.toNat then .next (s.raiseErr .lenMismatch)
  else if s.i.toNat ≠ s.declLen then .next (s.raiseErr .lenMismatch)
  else checksumCheck s

/-- `RECEIVE` (R110): one Engine step of its current phase; it has no step in another operation's phase
(notes/assumptions/3.md). -/
def execReceive (s : State) : Result :=
  match s.phase with
  | .rxHunt => rxHuntStep s
  | .rxSettle => rxSettleStep s
  | .rxByte => rxByteStep s
  | .rxCheck => rxCheckStep s
  | .idle => hold s
  | .exec => hold s
  | .txPrep => hold s
  | .txAcq => hold s
  | .txWait => hold s
  | .txChk => hold s
  | .txByte => hold s

/-- A start-of-frame wire byte `w` (R111, R112): the `RX_HUNT` step on that byte when it heads `RXQ`; elsewhere it is
no start of frame and there is no such step (R84, R122, notes/assumptions/4.md). -/
def sofByte (w : Byte) (s : State) : Result :=
  if s.phase = .rxHunt ∧ s.rxq.head? = some w then rxHuntStep s else hold s

/-- `SOF.BSB.DC` (R78, R111). -/
def execSofBsbDc (s : State) : Result := sofByte 0x23 s

/-- `SOF.BSB.DE` (R78, R111). -/
def execSofBsbDe (s : State) : Result := sofByte 0x21 s

/-- `SOF.LPB` (R78, R111). -/
def execSofLpb (s : State) : Result := sofByte 0x87 s

/-- `SOF.PPS.17` (R78, R111, R113). -/
def execSofPps17 (s : State) : Result := sofByte 0x17 s

/-- `SOF.PPS.1D` (R78, R111). -/
def execSofPps1D (s : State) : Result := sofByte 0x1D s

/-- `SOF.PPS.1E` (R78, R111). -/
def execSofPps1E (s : State) : Result := sofByte 0x1E s

end Sys2Proof.Machine
end

