-- ==== Sys2Proof/Machine/Transmitter.lean ====
section
/-! DEFINITION. The collision-avoiding transmitter (43_transmitter.md): SEND, phase by phase. -/

namespace Sys2Proof.Machine

/-- `check_length(N)` (R163): the first bound that fails, in the rule's order. -/
def checkLength (s : State) (len : Nat) : Except Fault (Option ErrCode) :=
  if s.variant = .pps then .ok (if s.params.bufCap < len then some .overflow else none)
  else
    match s.readByte .tx s.lenIdx.toNat with
    | .error f => .error f
    | .ok v =>
      .ok (if Config.saneMax < v.toNat then some .lenInsane
        else if len < Config.minSendLen then some .lenInsane
        else if s.params.bufCap < len then some .overflow
        else none)

/-- `fill_header()` (R164 to R166). -/
def State.fillHeader (s : State) : State :=
  match s.variant with
  | .bsb => ((s.setTx 0 Config.sofBsbDc).setTx 1 (bsbSourceByte s.params s.own)).setTx 2 s.dest
  | .lpb =>
    match s.params.lpbAddrOrder with
    | .destAt2 => ((s.setTx 0 Config.sofLpb).setTx 2 s.dest).setTx 3 s.own
    | .ownAt2 => ((s.setTx 0 Config.sofLpb).setTx 2 s.own).setTx 3 s.dest
  | .pps => s

/-- A two-byte trailer at `N-2` and `N-1`, high byte first, and `CKSUM` (R167, R168, 20_memory.md R58). -/
def State.setTrailer (s : State) (len : Nat) (c : Half) : State :=
  ((s.setTx (len - 2) (hiByte c)).setTx (len - 1) (loByte c)).setCksum c

/-- `embed_checksum()` (R167 to R169). -/
def embedChecksum (s : State) (len : Nat) : Except Fault State :=
  match s.variant with
  | .bsb =>
    match s.readBytes .tx (len - 2) with
    | .error f => .error f
    | .ok bs => .ok (s.setTrailer len (crcBsb bs))
  | .lpb =>
    match s.readBytes .tx (lpbReadCount (len - 1)) with
    | .error f => .error f
    | .ok bs => .ok (s.setTrailer len (crcLpb bs (len - 1)))
  | .pps =>
    match s.readBytes .tx s.lenIdx.toNat with
    | .error f => .error f
    | .ok bs => .ok ((s.setTx s.lenIdx.toNat (crcPps bs)).setCksum ((crcPps bs).setWidth 16))

/-- Phase `TX_PREP` (R161): every check comes before any write to `TXBUF` and `CKSUM`. -/
def txPrepStep (s : State) : Result :=
  if s.sendConfigured = false then .next (s.raiseErr .notConfigured)
  else
    match s.frameLength with
    | .error f => .fault f
    | .ok len =>
      let s := s.setSendLen len
      match checkLength s len with
      | .error f => .fault f
      | .ok (some e) => .next (s.raiseErr e)
      | .ok none =>
        match embedChecksum s.fillHeader len with
        | .error f => .fault f
        | .ok s => .next (s.goto .txAcq)

/-- The deadline of this send has passed (R170, R172; the comparison is strict). -/
abbrev State.deadlinePassed (s : State) : Prop := Config.deadlineMs < s.elapsed s.t0

/-- Phase `TX_ACQ` (R170): the deadline at the top of an attempt, then the backoff draw; PPS draws none. -/
def txAcqStep (s : State) : Result :=
  if s.deadlinePassed then .next (s.raiseErr .busTimeout)
  else if s.variant = .pps then .next (s.goto .txChk)
  else
    match s.drawBackoff with
    | .error r => .refused r
    | .ok (d, s) => .next { s with d := d, wstart := s.ms, phase := .txWait }

/-- Phase `TX_WAIT` (R171): one sample; a busy sample aborts the wait before the duration is tested. -/
def txWaitStep (s : State) : Result :=
  match s.drawBusy with
  | (true, s) => .next (s.goto .txAcq)
  | (false, s) =>
    if s.d.toNat ≤ s.elapsed s.wstart then .next (s.goto .txChk) else .next (s.goto .txWait)

/-- Phase `TX_CHK` (R172): the deadline again, then the frame starts at byte 0. -/
def txChkStep (s : State) : Result :=
  if s.deadlinePassed then .next (s.raiseErr .busTimeout)
  else .next ((s.setIndex 0).goto .txByte)

/-- What `TX_BYTE` does with the accepted count (R173, R175, R176): a collision restarts at `TX_ACQ` with the same
`t0`; the last byte accepted finishes. -/
def afterOffer (acc : Nat) (s : State) : Result :=
  if acc < 1 then .next (s.goto .txAcq)
  else
    let s := s.setIndex (s.k + 1)
    if s.k.toNat = s.sendLen then .next s.finishOk else .next (s.goto .txByte)

/-- Phase `TX_BYTE` (R173, R174): one byte offered inside a critical section. -/
def txByteStep (s : State) : Result :=
  let s := s.csEnter
  match s.readByte .tx s.k.toNat with
  | .error f => .fault f
  | .ok b =>
    let w := polarity s.variant b
    match s.drawAccept with
    | .error r => .refused r
    | .ok (acc, s) => afterOffer acc (s.offer w acc).csExit

/-- `SEND` (R160): one Engine step of its current phase; it has no step in another operation's phase
(notes/assumptions/3.md). -/
def execSend (s : State) : Result :=
  match s.phase with
  | .txPrep => txPrepStep s
  | .txAcq => txAcqStep s
  | .txWait => txWaitStep s
  | .txChk => txChkStep s
  | .txByte => txByteStep s
  | .idle => hold s
  | .exec => hold s
  | .rxHunt => hold s
  | .rxSettle => hold s
  | .rxByte => hold s
  | .rxCheck => hold s

end Sys2Proof.Machine
end

