-- ==== Sys2Proof/Machine/Dispatch.lean ====
section
/-! DEFINITION. One arm per instruction. -/

namespace Sys2Proof.Machine

def exec (i : Instr) (s : State) : Host.Outcome State Fault Refusal :=
  match i with
  | .nop => Sys2Proof.Machine.execNop s
  | .configure => Sys2Proof.Machine.execConfigure s
  | .cksumBsbTx => Sys2Proof.Machine.execCksumBsbTx s
  | .cksumBsbRx => Sys2Proof.Machine.execCksumBsbRx s
  | .cksumLpbTx => Sys2Proof.Machine.execCksumLpbTx s
  | .cksumLpbRx => Sys2Proof.Machine.execCksumLpbRx s
  | .cksumPpsTx => Sys2Proof.Machine.execCksumPpsTx s
  | .cksumPpsRx => Sys2Proof.Machine.execCksumPpsRx s
  | .receive => Sys2Proof.Machine.execReceive s
  | .send => Sys2Proof.Machine.execSend s
  | .sofBsbDc => Sys2Proof.Machine.execSofBsbDc s
  | .sofBsbDe => Sys2Proof.Machine.execSofBsbDe s
  | .sofLpb => Sys2Proof.Machine.execSofLpb s
  | .sofPps17 => Sys2Proof.Machine.execSofPps17 s
  | .sofPps1D => Sys2Proof.Machine.execSofPps1D s
  | .sofPps1E => Sys2Proof.Machine.execSofPps1E s

end Sys2Proof.Machine
end

