-- ==== Sys2Proof/Machine/Events.lean ====
section
/-! DEFINITION. The steps of the Transport, the Clock and the reset input (10_state.md R36, R41, 70_reset_and_hazards.md
R230, R231), and the lines of a script (10_state.md R43, 30_encoding.md R86). -/

namespace Sys2Proof.Machine

/-- `rx_arrive(b)` (10_state.md R36, R38): while `cs_active = 1` it goes by `RX_DURING_CS` (R42, 60 R209). -/
def State.rxArrive (s : State) (b : Byte) : State :=
  if s.csActive = true then
    match s.params.rxDuringCs with
    | .delayed => { s with csHeld := s.csHeld ++ [b] }
    | .lost => s
  else { s with rxq := enqueue s.params s.rxq b }

/-- `rx_timeout` (10_state.md R36): enabled only in `RX_BYTE` with an empty queue; where it is not enabled there is no
such step (notes/assumptions/18.md). -/
def State.rxTimeout (s : State) : State :=
  if s.phase = .rxByte ∧ s.rxq = [] then { s with timeout := true } else s

/-- The Transport's step (10_state.md R36). -/
def transportStep (t : TransportStep) (s : State) : Result :=
  match t with
  | .rxArrive b => .next (s.rxArrive b)
  | .rxTimeout => .next s.rxTimeout
  | .line busy => .next { s with lineBusy := busy }

/-- The Clock's step `tick` (10_state.md R36, R41): `MS` wraps modulo 2^32. -/
def tickStep (s : State) : Result := .next { s with ms := s.ms + 1 }

/-- The reset event (70 R230, R231): the block's state takes its reset values; the operation in progress ends without a
`STATUS` write. `RXQ`, `MS`, the line, the parameters and the fields of the host and the script are not the block's and
stay; the working registers, which R231 lets hold any value, are set to 0 (notes/assumptions/5.md, 16.md). -/
def State.rst (s : State) : State :=
  { s with
    variant := .bsb
    own := 0x00
    dest := 0x00
    validV := false
    validO := false
    validD := false
    lenIdx := 0x00
    ppsOvrPend := false
    txbuf := []
    rxbuf := []
    done := false
    ok := false
    err := .none
    rxlen := 0x00
    cksum := 0x0000
    arg := 0x00
    newVariant := 3
    newOwn := 0xFF
    newDest := 0xFF
    phase := .idle
    cmd := 0x00
    n := 0
    i := 0
    li := 0
    declLen := 0
    sendLen := 0
    k := 0
    t0 := 0
    wstart := 0
    d := 0
    timeout := false
    csActive := false
    rxPop := false
    txStrobe := false }

/-- The step of the reset input (70 R230). -/
def resetStep (s : State) : Result := .next s.rst

/-- A `DRAW` line of a program (30_encoding.md R86): the answer joins its queue. -/
def drawStep (d : Draw) (s : State) : Result :=
  match d with
  | .backoff v => .next { s with backoffDraws := s.backoffDraws ++ [v] }
  | .accept v => .next { s with acceptDraws := s.acceptDraws ++ [v] }
  | .busy v => .next { s with busyDraws := s.busyDraws ++ [v] }
  | .ppsLi v => .next { s with ppsLiDraws := s.ppsLiDraws ++ [v] }

/-- A program says what answers a free input that has no pending `DRAW`: the deterministic defaults of 10_state.md R43,
as 30_encoding.md R86 has it, or any value (notes/assumptions/8.md). -/
def unscriptedStep (u : Unscripted) (s : State) : Result := .next { s with unscripted := u }

end Sys2Proof.Machine
end

