-- ==== Sys2Proof/Machine/HostPort.lean ====
section
/-! DEFINITION. The host register space (20_memory.md R50 to R56, 30_encoding.md R74) and the acceptance of a command
(R54), the block's counterpart of an instruction fetch (R64). -/

namespace Sys2Proof.Machine

/-- What a host address holds (30_encoding.md R74, 20_memory.md R53, R55). -/
inductive HostReg where
  | cmd
  | arg
  | variant
  | own
  | dest
  | lenIdx
  | newVariant
  | newOwn
  | newDest
  | status
  | rxlen
  | cksumLo
  | cksumHi
  | cfgValid
  | byte (b : Buffer) (j : Nat)
  | reserved
  deriving DecidableEq, Repr

/-- The buffer windows: `0x40 + j` is `TXBUF[j]`, `0x80 + j` is `RXBUF[j]`, for `j < BUF_CAP` (R55); every other address
from 0x0E on is reserved (R53). -/
def windowReg (p : Params) (a : Nat) : HostReg :=
  if 0x40 ≤ a ∧ a < 0x80 ∧ a - 0x40 < p.bufCap then .byte .tx (a - 0x40)
  else if 0x80 ≤ a ∧ a < 0xC0 ∧ a - 0x80 < p.bufCap then .byte .rx (a - 0x80)
  else .reserved

/-- The register map (R74). -/
def hostReg (p : Params) (a : Byte) : HostReg :=
  if a = 0x00 then .cmd
  else if a = 0x01 then .arg
  else if a = 0x02 then .variant
  else if a = 0x03 then .own
  else if a = 0x04 then .dest
  else if a = 0x05 then .lenIdx
  else if a = 0x06 then .newVariant
  else if a = 0x07 then .newOwn
  else if a = 0x08 then .newDest
  else if a = 0x09 then .status
  else if a = 0x0A then .rxlen
  else if a = 0x0B then .cksumLo
  else if a = 0x0C then .cksumHi
  else if a = 0x0D then .cfgValid
  else windowReg p a.toNat

/-- What reading a register returns; no read has a side effect (R53, R54, R59, R74). -/
def State.readReg (s : State) : HostReg → Except Fault Byte
  | .cmd => .ok 0x00
  | .arg => .ok s.arg
  | .variant => .ok ((variantCode s.variant).setWidth 8)
  | .own => .ok s.own
  | .dest => .ok s.dest
  | .lenIdx => .ok s.lenIdx
  | .newVariant => .ok (s.newVariant.setWidth 8)
  | .newOwn => .ok s.newOwn
  | .newDest => .ok s.newDest
  | .status => .ok s.status
  | .rxlen => .ok s.rxlen
  | .cksumLo => .ok (loByte s.cksum)
  | .cksumHi => .ok (hiByte s.cksum)
  | .cfgValid => .ok s.cfgValid
  | .byte b j => s.readByte b j
  | .reserved => .ok 0x00

/-- `MemRead(a, 1)` (R50, R51). -/
def State.hostRead (s : State) (a : Byte) : Except Fault Byte := s.readReg (hostReg s.params a)

/-- The phase an instruction starts in (30_encoding.md R72); a start-of-frame byte belongs to the hunt (R111). -/
def firstPhaseOf : Instr → Phase
  | .nop => .exec
  | .configure => .exec
  | .cksumBsbTx => .exec
  | .cksumBsbRx => .exec
  | .cksumLpbTx => .exec
  | .cksumLpbRx => .exec
  | .cksumPpsTx => .exec
  | .cksumPpsRx => .exec
  | .receive => .rxHunt
  | .send => .txPrep
  | .sofBsbDc => .rxHunt
  | .sofBsbDe => .rxHunt
  | .sofLpb => .rxHunt
  | .sofPps17 => .rxHunt
  | .sofPps1D => .rxHunt
  | .sofPps1E => .rxHunt

/-- The first phase of a `CMD` byte, legal or not (R54, R72). -/
def firstPhase (v : Byte) : Phase :=
  match decodeCommand v with
  | .ok i => firstPhaseOf i
  | .error _ => .exec

/-- The accepted branch of R54: the results are cleared, `CMD` and `ARG` latched, the first phase entered; for SEND
the deadline base is taken (43_transmitter.md R160). -/
def State.accept (s : State) (v : Byte) : State :=
  { s with
    done := false
    ok := false
    err := .none
    timeout := false
    cmd := v
    n := s.arg
    phase := firstPhase v
    t0 := if firstPhase v = .txPrep then s.ms else s.t0 }

/-- What a write to a register does while the block is idle (R53 to R55, R74). -/
def State.writeIdle (s : State) (v : Byte) : HostReg → State
  | .cmd => s.accept v
  | .arg => { s with arg := v }
  | .variant => s
  | .own => s
  | .dest => s
  | .lenIdx => s
  | .newVariant => { s with newVariant := v.extractLsb' 0 2 }
  | .newOwn => { s with newOwn := v }
  | .newDest => { s with newDest := v }
  | .status => s
  | .rxlen => s
  | .cksumLo => s
  | .cksumHi => s
  | .cfgValid => s
  | .byte .tx j => s.setTx j v
  | .byte .rx j => s.setRx j v
  | .reserved => s

/-- `MemWrite(a, 1, v)` (R50, R51): while `BUSY = 1` every write is ignored (R54, R56; the other addresses ignore writes
anyway). -/
def State.hostWrite (s : State) (a v : Byte) : State :=
  if s.busy = true then s else s.writeIdle v (hostReg s.params a)

/-- The Host's step: one access of one byte; another width is refused (R51). What a read returns goes to the host's own
`hostData`. -/
def hostStep (a : HostAccess) (s : State) : Result :=
  match a with
  | .read addr width =>
    if width ≠ 1 then .refused (.accessWidth width)
    else
      match s.hostRead addr with
      | .error f => .fault f
      | .ok v => .next { s with hostData := v }
  | .write addr width value =>
    if width ≠ 1 then .refused (.accessWidth width) else .next (s.hostWrite addr value)

/-- The turn of another agent. -/
def OtherTurn.turn : OtherTurn → Turn
  | .engine => .engine
  | .transport t => .transport t
  | .tick => .tick
  | .reset => .reset

/-- The test of `WAITDONE` (30_encoding.md R87) on the value the Host has just read: at `s[1] = 1` the loop ends, else the
other agents take their turns and the Host polls again. -/
def State.pollAgain (s : State) (between : List OtherTurn) : State :=
  if s.hostData.getLsbD 1 = true then s
  else { s with agenda := between.map OtherTurn.turn ++ .waitDone between :: s.agenda }

/-- One poll of `WAITDONE` (30_encoding.md R87): `R 0x09 -> s`, and the test. -/
def waitDoneStep (between : List OtherTurn) (s : State) : Result :=
  match hostStep (.read 0x09 1) s with
  | .next s => .next (s.pollAgain between)
  | .fault f => .fault f
  | .refused r => .refused r

end Sys2Proof.Machine
end

