-- ==== Sys2Proof/Machine/Fetch.lean ====
section
/-! DEFINITION. Which instruction the Engine runs next, and how an instruction is placed there (20_memory.md R64;
notes/assumptions/2.md, 4.md). -/

namespace Sys2Proof.Machine

/-- The Engine's next instruction: none in `IDLE`; in `RX_HUNT` of a configured block, the start of frame at the head of
`RXQ` (41_parser.md R111); else the accepted command, which may be illegal (30_encoding.md R84). -/
def State.fetch (s : State) : Option (Except Reject Instr) :=
  match s.phase with
  | .idle => none
  | .rxHunt =>
    match s.receiveConfigured, s.rxq with
    | true, r :: _ =>
      match decodeWire s.variant r with
      | .ok i => some (.ok i)
      | .error _ => some (decodeCommand s.cmd)
    | _, _ => some (decodeCommand s.cmd)
  | .exec => some (decodeCommand s.cmd)
  | .rxSettle => some (decodeCommand s.cmd)
  | .rxByte => some (decodeCommand s.cmd)
  | .rxCheck => some (decodeCommand s.cmd)
  | .txPrep => some (decodeCommand s.cmd)
  | .txAcq => some (decodeCommand s.cmd)
  | .txWait => some (decodeCommand s.cmd)
  | .txChk => some (decodeCommand s.cmd)
  | .txByte => some (decodeCommand s.cmd)

/-- An illegal command's `EXEC` step (30_encoding.md R84): `raise Err(BAD_OP)`, nothing else changes. -/
def badOpStep (s : State) : Result := inExec (fun s => .next (s.raiseErr .badOp)) s

/-- The state after a command byte is accepted, with the Engine's turn next. -/
def placeCommand (s : State) (b : Byte) : State :=
  { s.accept b with agenda := .engine :: s.agenda }

/-- A wire byte at the head of `RXQ`, met by a RECEIVE of a block configured for its variant, with the Engine's turn
next. -/
def placeWire (s : State) (v : Variant) (b : Byte) : State :=
  { s.accept (encode .receive) with
    variant := v
    validV := true
    validO := true
    lenIdx := lenIdxOf v
    rxq := b :: s.rxq
    agenda := .engine :: s.agenda }

/-- A table row's byte placed where the next step runs it. -/
def placeByte (s : State) (b : Byte) : State :=
  match rowSpace b with
  | .command => placeCommand s b
  | .wire v => placeWire s v b

end Sys2Proof.Machine
end

