-- ==== Sys2Proof/Machine/Step.lean ====
section
/-! DEFINITION. One step of the machine: the agent whose turn it is (10_state.md R20, 20_memory.md R61). -/

namespace Sys2Proof.Machine

/-- The Engine's step (10_state.md R33): the instruction of `fetch`; in `IDLE` it has none. -/
def engineStep (s : State) : Result :=
  match s.fetch with
  | none => hold s
  | some (.ok i) => exec i s
  | some (.error _) => badOpStep s

/-- The step of one turn. -/
def takeTurn (t : Turn) (s : State) : Result :=
  match t with
  | .engine => engineStep s
  | .host a => hostStep a s
  | .transport e => transportStep e s
  | .tick => tickStep s
  | .reset => resetStep s
  | .draw d => drawStep d s
  | .unscripted u => unscriptedStep u s
  | .waitDone between => waitDoneStep between s

/-- One step: the next turn of the agenda, or the Engine's where the agenda is empty (notes/assumptions/1.md). DESIGN
CHOICE (notes/assumptions/31.md): which endless schedules are runs. Every finite schedule is one, and so is one that ends in
the Engine alone, or in rounds between the polls of a `WAITDONE`; 41_parser.md R127 and U6 leave open whether arrivals may go
on for ever during one RECEIVE, and such rounds let them. -/
def step (s : State) : Host.Outcome State Fault Refusal :=
  match s.agenda with
  | [] => engineStep s
  | t :: rest => takeTurn t { s with agenda := rest }

/-- The state with a table row's word placed where the next step runs it (`nbits` is 8 for every row). -/
def State.withFetchWord (s : State) (_nbits w : Nat) : State := placeByte s (BitVec.ofNat 8 w)

end Sys2Proof.Machine
end

