-- ==== Sys2Proof/Machine/Program.lean ====
section
/-! DEFINITION. The host-program syntax of 30_encoding.md R86 and the pseudo-instructions of R87, as the turns they stand
for. No rule of the block depends on them; they say what a program of 95_test_vectors.md is in this model. -/

namespace Sys2Proof.Machine

/-- One line of a host program (R86, R87). -/
inductive Line where
  /-- `W a, v`. -/
  | write (a v : Byte)
  /-- `R a`. -/
  | read (a : Byte)
  /-- A command by its mnemonic. -/
  | command (i : Instr)
  /-- `ENV rx_arrive(b0, b1, ...)`. -/
  | arrive (bs : List Byte)
  /-- `ENV rx_timeout`. -/
  | timeout
  /-- `ENV line(busy)` and `ENV line(idle)`. -/
  | line (busy : Bool)
  /-- `ENV tick x n`. -/
  | tick (count : Nat)
  /-- `DRAW input=value`. -/
  | draw (d : Draw)
  /-- `CFG v, o, d`. -/
  | cfg (v o d : Byte)
  /-- `CK.BSB buf, n`. -/
  | ckBsb (b : Buffer) (n : Byte)
  /-- `CK.LPB buf, L`. -/
  | ckLpb (b : Buffer) (n : Byte)
  /-- `CK.PPS buf, n`. -/
  | ckPps (b : Buffer) (n : Byte)
  /-- `LOADTX j, b0, b1, ...`. -/
  | loadTx (j : Nat) (bs : List Byte)
  /-- `WAITDONE`, with the turns that the schedule gives the other agents after a read that finds `DONE = 0`. -/
  | waitDone (between : List OtherTurn)
  /-- `QUERY`. -/
  | query
  deriving DecidableEq, Repr

/-- `W a, v` is `MemWrite(a, 1, v)` (R86). -/
def writeTurn (a v : Byte) : Turn := .host (.write a 1 v)

/-- `R a` is `MemRead(a, 1)` (R86). -/
def readTurn (a : Byte) : Turn := .host (.read a 1)

/-- `LOADTX j, b0, b1, ...` (R87). -/
def loadTxTurns (j : Nat) (bs : List Byte) : List Turn :=
  match bs with
  | [] => []
  | b :: rest => writeTurn (BitVec.ofNat 8 (0x40 + j)) b :: loadTxTurns (j + 1) rest

/-- `buf << 4` of the CK pseudo-instructions (R87): buf 0 = TX, 1 = RX. -/
def bufselBit : Buffer → Byte
  | .tx => 0x00
  | .rx => 0x10

/-- The turns a line stands for (R86, R87). A start-of-frame row written as a line is its wire byte arriving. -/
def Line.turns : Line → List Turn
  | .write a v => [writeTurn a v]
  | .read a => [readTurn a]
  | .command i =>
    match i.space with
    | .command => [writeTurn 0x00 (encode i)]
    | .wire _ => [.transport (.rxArrive (encode i))]
  | .arrive bs => bs.map fun b => .transport (.rxArrive b)
  | .timeout => [.transport .rxTimeout]
  | .line busy => [.transport (.line busy)]
  | .tick count => List.replicate count .tick
  | .draw d => [.draw d]
  | .cfg v o d => [writeTurn 0x06 v, writeTurn 0x07 o, writeTurn 0x08 d, writeTurn 0x00 0x01]
  | .ckBsb b n => [writeTurn 0x01 n, writeTurn 0x00 (0x02 ||| bufselBit b)]
  | .ckLpb b n => [writeTurn 0x01 n, writeTurn 0x00 (0x03 ||| bufselBit b)]
  | .ckPps b n => [writeTurn 0x01 n, writeTurn 0x00 (0x04 ||| bufselBit b)]
  | .loadTx j bs => loadTxTurns j bs
  | .waitDone between => [.waitDone between]
  | .query => [readTurn 0x02, readTurn 0x03, readTurn 0x04]

/-- The lines of a program under one schedule: after each line the Engine takes as many turns as the schedule gives it
(10_state.md R20, 20_memory.md R61). -/
def linesTurns (program : List (Line × Nat)) : List Turn :=
  program.flatMap fun p => p.1.turns ++ List.replicate p.2 .engine

/-- A program under one schedule: from its start a free input with no pending `DRAW` takes the deterministic default of
10_state.md R43 (R86), and then its lines run. -/
def programTurns (program : List (Line × Nat)) : List Turn := .unscripted .simulator :: linesTurns program

end Sys2Proof.Machine
end

