-- ==== Sys2Proof/Safety.lean ====
section
/-! DEFINITION. What a good state is, in the terms the claims use: every part of `State.Inv` is a promise the spec makes
about states between steps. -/

namespace Sys2Proof.Machine

/-- Every byte of the buffer below `n` is written (10_state.md R27). -/
abbrev Memory.filled (m : Memory) (n : Nat) : Prop := ∀ j < n, (m.read j).isSome = true

/-- Both buffers are in canonical form and hold nothing at or above `BUF_CAP` (10_state.md R27, 20_memory.md R66). -/
abbrev State.BuffersOk (s : State) : Prop :=
  s.txbuf.wf ∧ s.rxbuf.wf ∧ s.txbuf.within s.params.bufCap ∧ s.rxbuf.within s.params.bufCap

/-- The receive queue holds at most `RX_FIFO_DEPTH` bytes (10_state.md R38). -/
abbrev State.QueueOk (s : State) : Prop := s.rxq.length ≤ s.params.rxFifoDepth

/-- The pulsed outputs are low between steps and no byte is held back by the critical section (10_state.md R42,
60 R202). -/
abbrev State.OutputsQuiet (s : State) : Prop :=
  s.csActive = false ∧ s.rxPop = false ∧ s.txStrobe = false ∧ s.csHeld = []

/-- The status fields agree with the phase and with each other (10_state.md R28, 20_memory.md R54, 60 R200, R202). -/
abbrev State.StatusOk (s : State) : Prop :=
  (s.phase ≠ .idle → s.done = false) ∧
  (s.done = false → s.ok = false ∧ s.err = .none) ∧
  (s.done = true → (s.ok = true ↔ s.err = .none))

/-- `LEN_IDX` is the active variant's, the sentinel is never stored, an address that is not valid is still at reset, and
the PPS override is pending only under PPS (10_state.md R21 to R26, 40_config.md R101, R102). -/
abbrev State.ConfigOk (s : State) : Prop :=
  (s.validV = true → s.lenIdx = lenIdxOf s.variant) ∧
  s.own ≠ Config.addrSentinel ∧ s.dest ≠ Config.addrSentinel ∧
  (s.validO = false → s.own = 0) ∧ (s.validD = false → s.dest = 0) ∧
  (s.ppsOvrPend = true → s.validV = true ∧ s.variant = .pps)

/-- The first phase of the operation a phase belongs to (10_state.md R33). -/
def Phase.start : Phase → Option Phase
  | .idle => none
  | .exec => some .exec
  | .rxHunt => some .rxHunt
  | .rxSettle => some .rxHunt
  | .rxByte => some .rxHunt
  | .rxCheck => some .rxHunt
  | .txPrep => some .txPrep
  | .txAcq => some .txPrep
  | .txWait => some .txPrep
  | .txChk => some .txPrep
  | .txByte => some .txPrep

/-- The phase belongs to the accepted command (10_state.md R33, 20_memory.md R54). -/
abbrev State.CommandOk (s : State) : Prop := ∀ p, s.phase.start = some p → firstPhase s.cmd = p

/-- RECEIVE has stored a start of frame (41_parser.md R112): it is in one of its later phases. -/
def Phase.capturing : Phase → Bool
  | .rxSettle => true
  | .rxByte => true
  | .rxCheck => true
  | _ => false

/-- SEND has passed `TX_PREP` (43_transmitter.md R161): it is in one of its later phases. -/
def Phase.sending : Phase → Bool
  | .txAcq => true
  | .txWait => true
  | .txChk => true
  | .txByte => true
  | _ => false

/-- While a frame is captured, `RXBUF[0..i-1]` is written, `li` is a length field index of the variant, and once the
length field is in, `E` is the declared length, at most 33 and not yet reached in `RX_BYTE` (41_parser.md R114, R117 to
R120, R124). -/
abbrev State.CaptureOk (s : State) : Prop :=
  s.phase.capturing = true →
    s.receiveConfigured = true ∧ 1 ≤ s.i.toNat ∧ s.i.toNat ≤ 33 ∧ s.rxbuf.filled s.i.toNat ∧
    (s.variant ≠ .pps → s.li = lenIdxOf s.variant) ∧
    (s.variant = .pps → s.li = Config.ppsAfterShortLenIdx ∨ s.li = Config.ppsLongLenIdx) ∧
    (s.phase = .rxSettle → s.i = 1) ∧
    (s.li.toNat < s.i.toNat → s.declaredLength = .ok s.declLen ∧ s.declLen ≤ 33) ∧
    (s.phase = .rxByte → s.li.toNat < s.i.toNat → s.i.toNat < s.declLen)

/-- After `TX_PREP` the frame is complete in `TXBUF`, its length in bounds, `N` still its declared length, the index below
`N`, and the backoff in its range; only BSB and LPB wait (43_transmitter.md R161 to R173, R180). -/
abbrev State.SendOk (s : State) : Prop :=
  s.phase.sending = true →
    s.sendConfigured = true ∧ Config.minSendLen ≤ s.sendLen ∧ s.sendLen ≤ s.params.bufCap ∧
    s.txbuf.filled s.sendLen ∧ s.frameLength = .ok s.sendLen ∧
    (s.phase = .txByte → s.k.toNat < s.sendLen) ∧
    (s.phase = .txWait → s.variant ≠ .pps ∧
      s.params.backoffMin.toNat ≤ s.d.toNat ∧ s.d.toNat ≤ s.params.backoffMax.toNat)

/-- Buffer `b` holds the bytes `F` from index 0 on. -/
def State.holds (s : State) (b : Buffer) (F : List Byte) : Prop := ∀ j, j < F.length → (s.buf b).read j = F[j]?

/-- The logical byte of a wire byte, and the wire byte of a logical byte (00_scope.md R7: `~b` is `b ^ 0xFF`;
30_encoding.md R77). -/
def logicalByte (v : Variant) (w : Byte) : Byte := if v = .pps then w else w ^^^ 0xFF

/-- The logical start-of-frame values of a variant (30_encoding.md R78). -/
def sofValues : Variant → List Byte
  | .bsb => [0xDC, 0xDE]
  | .lpb => [0x78]
  | .pps => [0x17, 0x1D, 0x1E]

/-- `E` is the total length the captured frame declares (the table of 41_parser.md R119). -/
def State.declares (s : State) (E : Nat) : Prop :=
  match s.variant with
  | .bsb => ∃ v, s.rxbuf.read 3 = some v ∧ E = v.toNat
  | .lpb => ∃ v, s.rxbuf.read 1 = some v ∧ E = v.toNat + 1
  | .pps => E = s.li.toNat + 1

/-- The turn that comes next is `t`. -/
def State.nextTurn (s : State) (t : Turn) : Prop := s.agenda.head? = some t

/-- The Engine moves next: its turn heads the agenda, or the agenda is empty. -/
def State.engineNext (s : State) : Prop := s.agenda = [] ∨ s.nextTurn .engine

/-- The state the next turn starts from: its turn is taken off the agenda. -/
def State.turned (s : State) : State := { s with agenda := s.agenda.tail }

/-- The invariant of the machine: it holds at reset, and every step keeps it. -/
structure State.Inv (s : State) : Prop where
  params : s.params.wellFormed = true
  buffers : s.BuffersOk
  queue : s.QueueOk
  outputs : s.OutputsQuiet
  status : s.StatusOk
  config : s.ConfigOk
  command : s.CommandOk
  capture : s.CaptureOk
  send : s.SendOk

end Sys2Proof.Machine
end

