-- ==== Sys2Proof/Certificates/Slice0/Obligations.lean ====
section
/-! DEFINITION. The statements for the provers, from the numbered rules of spec/. A next state written out as a record
update says the new values and the frame at once: every field not named keeps its value. -/

open Sys2Proof Sys2Proof.Machine

/-! ## Reset and the fetch -/

/-- 70 R231: what the state right after reset holds, row by row (the working registers, which R231 lets hold any value,
are not constrained). -/
def Obligations.ResetStateMatchesTable : Prop :=
  (State.reset.variant = .bsb ∧ State.reset.own = 0x00 ∧ State.reset.dest = 0x00) ∧
  (State.reset.validV = false ∧ State.reset.validO = false ∧ State.reset.validD = false) ∧
  (State.reset.lenIdx = 0x00 ∧ State.reset.ppsOvrPend = false) ∧
  (∀ j, State.reset.txbuf.read j = none ∧ State.reset.rxbuf.read j = none) ∧
  (State.reset.status = 0x00 ∧ State.reset.rxlen = 0x00 ∧ State.reset.cksum = 0x0000 ∧ State.reset.arg = 0x00) ∧
  (State.reset.newVariant = 3 ∧ State.reset.newOwn = 0xFF ∧ State.reset.newDest = 0xFF) ∧
  (State.reset.phase = .idle ∧ State.reset.timeout = false) ∧
  (State.reset.csActive = false ∧ State.reset.rxPop = false ∧ State.reset.txStrobe = false)

/-- 70 R230 with R231: the reset event, from ANY state, gives the block the values of the table, whatever operation was in
progress, and leaves the receive queue and the clock alone. -/
def Obligations.ResetEventRestoresBlock : Prop :=
  ∀ s : State, s.nextTurn .reset → ∃ t, step s = .next t ∧
    (t.variant = .bsb ∧ t.own = 0x00 ∧ t.dest = 0x00) ∧
    (t.validV = false ∧ t.validO = false ∧ t.validD = false) ∧
    (t.lenIdx = 0x00 ∧ t.ppsOvrPend = false) ∧
    (∀ j, t.txbuf.read j = none ∧ t.rxbuf.read j = none) ∧
    (t.status = 0x00 ∧ t.rxlen = 0x00 ∧ t.cksum = 0x0000 ∧ t.arg = 0x00) ∧
    (t.newVariant = 3 ∧ t.newOwn = 0xFF ∧ t.newDest = 0xFF) ∧
    (t.phase = .idle ∧ t.timeout = false) ∧
    (t.csActive = false ∧ t.rxPop = false ∧ t.txStrobe = false) ∧
    (t.rxq = s.rxq ∧ t.ms = s.ms)

/-- The invariant holds right after reset. It takes in values the model chose (notes/assumptions/5.md, 6.md, 11.md). -/
def Obligations.ResetStateSatisfiesInvariant : Prop := State.reset.Inv

/-- When the Engine moves next and its fetch gives an instruction, the step is `exec` of that instruction on the state
whose agenda has lost the turn; with an empty agenda it is `exec` on the very state. The agenda and the fetch of a start of
frame as an instruction are the model's own (notes/assumptions/1.md, 4.md). -/
def Obligations.StepRunsFetchedInstruction : Prop :=
  ∀ (s : State) (i : Instr), s.engineNext → s.fetch = some (.ok i) → i.wellFormed = true →
    step s = exec i s.turned ∧ (s.agenda = [] → step s = exec i s)

/-- What the fetch reads (20_memory.md R64, 41_parser.md R111): nothing in IDLE; in RX_HUNT of a configured block, the
start of frame of the active variant that heads the queue, or RECEIVE at a byte that is none; in RX_HUNT with an empty queue
or of a block that is not configured, the accepted RECEIVE, whatever heads the queue; in every other phase the accepted
command. That a start of frame is an instruction of its own is the model's choice (notes/assumptions/4.md). -/
def Obligations.FetchReadsCommandOrStartOfFrame : Prop :=
  (∀ s : State, s.phase = .idle → s.fetch = none) ∧
  (∀ (s : State) (i : Instr) (rest : List Byte), s.phase = .rxHunt → s.receiveConfigured = true →
    i.space = .wire s.variant → s.rxq = encode i :: rest → s.fetch = some (.ok i)) ∧
  (∀ (s : State) (i : Instr), s.phase ≠ .idle → s.phase ≠ .rxHunt → i.space = .command → s.cmd = encode i →
    s.fetch = some (.ok i)) ∧
  (∀ (s : State) (r : Byte) (rest : List Byte), s.phase = .rxHunt → s.cmd = encode .receive → s.rxq = r :: rest →
    logicalByte s.variant r ∉ sofValues s.variant → s.fetch = some (.ok .receive)) ∧
  (∀ s : State, s.phase = .rxHunt → s.cmd = encode .receive →
    (s.rxq = [] ∨ s.validV = false ∨ (s.variant = .pps ∧ s.validO = false)) → s.fetch = some (.ok .receive))

/-! ## Decoding -/

/-- A few bytes of the table, read bit by bit from 30_encoding.md R71, R72 and R78. -/
def Obligations.TableBytesDecode : Prop :=
  decodeCommand 0b00000000#8 = .ok .nop ∧ decodeCommand 0b00000001#8 = .ok .configure ∧
  decodeCommand 0b00010010#8 = .ok .cksumBsbRx ∧ decodeCommand 0b00000011#8 = .ok .cksumLpbTx ∧
  decodeCommand 0b00010100#8 = .ok .cksumPpsRx ∧ decodeCommand 0b00000101#8 = .ok .receive ∧
  decodeCommand 0b00000110#8 = .ok .send ∧
  decodeWire .bsb 0b00100011#8 = .ok .sofBsbDc ∧ decodeWire .lpb 0b10000111#8 = .ok .sofLpb ∧
  decodeWire .pps 0b00010111#8 = .ok .sofPps17

/-- Decode and encode agree, both ways: an instruction's byte decodes to it in its own place, and any byte that decodes
to an instruction is that instruction's byte in its own place. -/
def Obligations.DecodeInvertsEncode : Prop :=
  (∀ i : Instr, i.wellFormed = true → decode i.space (encode i) = .ok i) ∧
  (∀ (sp : Space) (b : Byte) (i : Instr), decode sp b = .ok i → sp = i.space ∧ b = encode i)

/-- 30_encoding.md R71, R72, R84: a command byte is illegal exactly when `RSV != 0`, `OP` is 0x7 to 0xF, or `BUFSEL = 1`
with `OP` not in {0x2, 0x3, 0x4}. -/
def Obligations.IllegalCommandBytes : Prop :=
  ∀ b : Byte, (∃ e, decodeCommand b = .error e) ↔
    (b.toNat / 32 ≠ 0 ∨ 7 ≤ b.toNat % 16 ∨
      (b.toNat / 16 % 2 = 1 ∧ b.toNat % 16 ≠ 2 ∧ b.toNat % 16 ≠ 3 ∧ b.toNat % 16 ≠ 4))

/-- 30_encoding.md R84: an illegal command finishes in one EXEC step with BAD_OP and changes no other state (the byte
0x15 among them: `RXLEN` stays, R200). -/
def Obligations.IllegalCommandFinishesBadOp : Prop :=
  ∀ (s : State) (e : Reject), s.engineNext → s.phase = .exec → decodeCommand s.cmd = .error e →
    step s = .next { s with ok := false, err := .badOp, done := true, phase := .idle, agenda := s.agenda.tail }

/-! ## Configuration -/

/-- 40_config.md R104. -/
def Obligations.NopFinishesOk : Prop :=
  ∀ s : State, s.phase = .exec → s.cmd = encode .nop →
    exec .nop s = .next { s with ok := true, err := .none, done := true, phase := .idle }

/-- 40_config.md R100 to R102: each argument is stored unless it is its sentinel (code 3, 0xFF, 0xFF), `LEN_IDX` follows
the variant written, and the PPS override is cleared with it. -/
def Obligations.ConfigureStoresArguments : Prop :=
  ∀ s : State, s.phase = .exec → s.cmd = encode .configure →
    exec .configure s = .next { s with
      variant := if s.newVariant = 0 then .bsb else if s.newVariant = 1 then .lpb
        else if s.newVariant = 2 then .pps else s.variant
      validV := if s.newVariant = 3 then s.validV else true
      lenIdx := if s.newVariant = 0 then 3 else if s.newVariant = 1 then 1
        else if s.newVariant = 2 then 9 else s.lenIdx
      ppsOvrPend := if s.newVariant = 3 then s.ppsOvrPend else false
      own := if s.newOwn = 0xFF then s.own else s.newOwn
      validO := if s.newOwn = 0xFF then s.validO else true
      dest := if s.newDest = 0xFF then s.dest else s.newDest
      validD := if s.newDest = 0xFF then s.validD else true
      ok := true, err := .none, done := true, phase := .idle }

/-- 40_config.md R103: two CONFIGUREs with the same variant code other than 3 leave the same `LEN_IDX`, whatever the two
states were. -/
def Obligations.ConfigureTwiceSameLenIdx : Prop :=
  ∀ s s' t t' : State, s.phase = .exec → s'.phase = .exec → s.newVariant = s'.newVariant → s.newVariant ≠ 3 →
    exec .configure s = .next t → exec .configure s' = .next t' → t.lenIdx = t'.lenIdx

/-! ## The checksum engines and operations -/

/-- 42_checksum.md R146: over either buffer, OVERFLOW above the capacity, a model fault at the lowest unwritten byte, and
else the CRC of the `n` bytes; nothing else changes. Which of several unwritten bytes the fault names is the model's own
(notes/assumptions/17.md). -/
def Obligations.CksumBsbOperation : Prop :=
  ∀ (s : State) (b : Buffer) (i : Instr), s.phase = .exec →
    (b = .tx ∧ i = .cksumBsbTx ∨ b = .rx ∧ i = .cksumBsbRx) → s.cmd = encode i →
    (s.params.bufCap < s.n.toNat →
      exec i s = .next { s with ok := false, err := .overflow, done := true, phase := .idle }) ∧
    (s.n.toNat ≤ s.params.bufCap → ∀ F : List Byte, F.length = s.n.toNat → s.holds b F →
      exec i s = .next { s with cksum := crcBsb F, ok := true, err := .none, done := true, phase := .idle }) ∧
    (s.n.toNat ≤ s.params.bufCap → ∀ j, j < s.n.toNat → (s.buf b).read j = none →
      (∀ l, l < j → (s.buf b).read l ≠ none) → exec i s = .fault (.unwrittenByte b j))

/-- 42_checksum.md R147 with R142: the weighted sum of the first `L - 1` bytes modulo 2^16; a byte at `L - 1` or above is
not read. Which of several unwritten bytes the fault names, the lowest, is the model's own (notes/assumptions/17.md). -/
def Obligations.CksumLpbOperation : Prop :=
  ∀ (s : State) (b : Buffer) (i : Instr), s.phase = .exec →
    (b = .tx ∧ i = .cksumLpbTx ∨ b = .rx ∧ i = .cksumLpbRx) → s.cmd = encode i →
    (s.params.bufCap < s.n.toNat →
      exec i s = .next { s with ok := false, err := .overflow, done := true, phase := .idle }) ∧
    (s.n.toNat ≤ s.params.bufCap → ∀ F : List Byte, F.length = s.n.toNat - 1 → s.holds b F →
      exec i s = .next { s with
        cksum := BitVec.ofInt 16 ((257 - (s.n.toNat : Int)) * 256 + ((s.n.toNat : Int) - 2)
          + ((F.map BitVec.toNat).sum : Nat))
        ok := true, err := .none, done := true, phase := .idle }) ∧
    (s.n.toNat ≤ s.params.bufCap → ∀ j, j < s.n.toNat - 1 → (s.buf b).read j = none →
      (∀ l, l < j → (s.buf b).read l ≠ none) → exec i s = .fault (.unwrittenByte b j))

/-- 42_checksum.md R148 with R144: the negated byte sum modulo 2^8, zero-extended. Which of several unwritten bytes
the fault names, the lowest, is the model's own (notes/assumptions/17.md). -/
def Obligations.CksumPpsOperation : Prop :=
  ∀ (s : State) (b : Buffer) (i : Instr), s.phase = .exec →
    (b = .tx ∧ i = .cksumPpsTx ∨ b = .rx ∧ i = .cksumPpsRx) → s.cmd = encode i →
    (s.params.bufCap < s.n.toNat →
      exec i s = .next { s with ok := false, err := .overflow, done := true, phase := .idle }) ∧
    (s.n.toNat ≤ s.params.bufCap → ∀ F : List Byte, F.length = s.n.toNat → s.holds b F →
      exec i s = .next { s with
        cksum := BitVec.ofNat 16 ((256 - (F.map BitVec.toNat).sum % 256) % 256)
        ok := true, err := .none, done := true, phase := .idle }) ∧
    (s.n.toNat ≤ s.params.bufCap → ∀ j, j < s.n.toNat → (s.buf b).read j = none →
      (∀ l, l < j → (s.buf b).read l ≠ none) → exec i s = .fault (.unwrittenByte b j))

/-- 42_checksum.md R140: the CRC of no byte is 0; each byte is XORed into the high half and followed by eight shifts, each
adding the polynomial when bit 15 was set; and the check value the rule gives. -/
def Obligations.CrcBsbByteByByte : Prop :=
  crcBsb [] = 0 ∧
  (∀ (F : List Byte) (b : Byte), crcBsb (F ++ [b]) =
    (fun c : BitVec 16 => if c.getLsbD 15 = true then (c <<< 1) ^^^ 0x1021 else c <<< 1)^[8]
      (crcBsb F ^^^ (b.setWidth 16 <<< 8))) ∧
  crcBsb [0x31, 0x32, 0x33, 0x34, 0x35, 0x36, 0x37, 0x38, 0x39] = 0x31C3

/-- The BSB CRC is linear over byte-wise exclusive or of frames of one length (42_checksum.md R140: initial value 0, no
final XOR). -/
def Obligations.CrcBsbIsLinear : Prop :=
  ∀ F G : List Byte, F.length = G.length → crcBsb (List.zipWith (· ^^^ ·) F G) = crcBsb F ^^^ crcBsb G

/-- 42_checksum.md R141, 20_memory.md R58: the CRC appended high byte first gives a zero residue, and it is the only
two-byte trailer that does. -/
def Obligations.CrcTrailerGivesZeroResidue : Prop :=
  ∀ (F : List Byte) (hi lo : Byte), crcBsb (F ++ [hi, lo]) = 0 ↔ hi ++ lo = crcBsb F

/-- 42_checksum.md R151: changing any one byte of a BSB frame changes its CRC (so a valid frame becomes invalid), and
changing any one summed byte changes the LPB and the PPS checksum. -/
def Obligations.ChecksumsDetectOneByteChange : Prop :=
  ∀ (F : List Byte) (j : Nat) (v : Byte), j < F.length → F[j]? ≠ some v →
    crcBsb (F.set j v) ≠ crcBsb F ∧ (∀ L, crcLpb (F.set j v) L ≠ crcLpb F L) ∧ crcPps (F.set j v) ≠ crcPps F

/-! ## The frame parser -/

/-- 41_parser.md R111, R124: the hunt without an SOF at the head. The configuration is tested before the queue; an
unconfigured or empty hunt fails with `RXLEN = 0` and pops nothing; a byte that is no SOF is popped and discarded. -/
def Obligations.HuntWithoutStartOfFrame : Prop :=
  ∀ s : State, s.phase = .rxHunt → s.cmd = encode .receive →
    ((s.validV = false ∨ (s.variant = .pps ∧ s.validO = false)) →
      exec .receive s = .next { s with
        i := 0, rxlen := 0, ok := false, err := .notConfigured, done := true, phase := .idle }) ∧
    (s.validV = true → (s.variant = .pps → s.validO = true) → s.rxq = [] →
      exec .receive s = .next { s with
        i := 0, rxlen := 0, ok := false, err := .noSof, done := true, phase := .idle }) ∧
    (s.validV = true → (s.variant = .pps → s.validO = true) → ∀ r rest, s.rxq = r :: rest →
      logicalByte s.variant r ∉ sofValues s.variant →
      exec .receive s = .next { s with i := 0, rxq := rest, rxPop := false })

/-- 41_parser.md R111, R112: each start-of-frame byte of the active variant (SOF.BSB.DC and SOF.BSB.DE under BSB, SOF.LPB
under LPB, SOF.PPS.17, SOF.PPS.1D and SOF.PPS.1E under PPS), met by the hunt, becomes byte 0 of `RXBUF` and starts the
capture with the variant's length field index; RECEIVE and the start-of-frame instruction take the same step. (The PPS
short frame and a pending PPS override are the next two statements.) -/
def Obligations.StartOfFrameStartsCapture : Prop :=
  ∀ (s : State) (i : Instr) (rest : List Byte), i.space = .wire s.variant → s.phase = .rxHunt →
    s.validV = true → (s.variant = .pps → s.validO = true) → s.rxq = encode i :: rest →
    (i = .sofPps17 → s.own ≠ 1) → (s.variant = .pps → s.ppsOvrPend = false) →
    exec i s = .next { s with
      rxq := rest, rxPop := false, rxbuf := s.rxbuf.write 0 (logicalByte s.variant (encode i)), i := 1,
      li := s.lenIdx, phase := .rxSettle } ∧
    exec .receive s = exec i s

/-- 41_parser.md R113: under PPS with own address 1 the byte 0x17 is a whole frame: success with `RXLEN = 1`, `CKSUM`
unchanged, one byte popped, the override pending. -/
def Obligations.PpsShortFrameSucceeds : Prop :=
  ∀ (s : State) (rest : List Byte), s.phase = .rxHunt → s.cmd = encode .receive → s.variant = .pps →
    s.validV = true → s.validO = true → s.own = 1 → s.rxq = 0x17 :: rest →
    exec .sofPps17 s = .next { s with
      rxq := rest, rxPop := false, rxbuf := s.rxbuf.write 0 0x17, i := 1, ppsOvrPend := true,
      rxlen := 1, ok := true, err := .none, done := true, phase := .idle } ∧
    exec .receive s = exec .sofPps17 s

/-- 41_parser.md R114: the first PPS long-form capture after a short frame consumes the override and uses 8 or 9, as the
free input says, for each of SOF.PPS.17 (with another own address than 1), SOF.PPS.1D and SOF.PPS.1E: a scripted draw is
taken in order, one outside the two is refused, and with none pending the capture still goes on with one of the two
(notes/assumptions/8.md, 10.md). `LEN_IDX` never changes. -/
def Obligations.PpsOverrideDrawsLengthIndex : Prop :=
  ∀ (s : State) (i : Instr) (rest : List Byte), s.variant = .pps → i.space = .wire .pps → s.phase = .rxHunt →
    s.validV = true → s.validO = true → s.rxq = encode i :: rest → (i = .sofPps17 → s.own ≠ 1) →
    s.ppsOvrPend = true →
    (∀ li draws, s.ppsLiDraws = li :: draws → (li = 8 ∨ li = 9) →
      exec i s = .next { s with
        rxq := rest, rxPop := false, rxbuf := s.rxbuf.write 0 (encode i), i := 1, ppsOvrPend := false,
        ppsLiDraws := draws, li := li, phase := .rxSettle }) ∧
    (∀ li draws, s.ppsLiDraws = li :: draws → li ≠ 8 → li ≠ 9 → exec i s = .refused (.ppsLiRange li)) ∧
    (s.ppsLiDraws = [] → ∃ li c, (li = 8 ∨ li = 9) ∧
      exec i s = .next { s with
        rxq := rest, rxPop := false, rxbuf := s.rxbuf.write 0 (encode i), i := 1, ppsOvrPend := false,
        drawCount := c, li := li, phase := .rxSettle })

/-- 41_parser.md R115 and R116, first half: the pause is one step; in `RX_BYTE` a latched timeout wins over a byte and ends
the capture; with neither a timeout nor a byte there is no step, which is a turn that changes nothing (the model's reading:
notes/assumptions/18.md). -/
def Obligations.SettleTimeoutAndHold : Prop :=
  ∀ s : State,
    (s.phase = .rxSettle → exec .receive s = .next { s with phase := .rxByte }) ∧
    (s.phase = .rxByte → s.timeout = true →
      exec .receive s = .next { s with timeout := false, phase := .rxCheck }) ∧
    (s.phase = .rxByte → s.timeout = false → s.rxq = [] → exec .receive s = .next s)

/-- 41_parser.md R116 to R120: one byte is popped. At the capacity it overflows. Else it is stored; before the length
field is in, the capture goes on; a BSB or LPB field above 32 is insane; else `E` is the declared length and the capture
ends when it is reached. -/
def Obligations.ByteStepAppends : Prop :=
  ∀ (s : State) (r : Byte) (rest : List Byte), s.params.wellFormed = true → s.phase = .rxByte →
    s.cmd = encode .receive → s.timeout = false → s.rxq = r :: rest →
    (s.params.bufCap ≤ s.i.toNat →
      exec .receive s = .next { s with
        rxq := rest, rxPop := false, rxlen := s.i, ok := false, err := .overflow, done := true, phase := .idle }) ∧
    (s.i.toNat < s.params.bufCap →
      ∀ t : State, t = { s with
          rxq := rest, rxPop := false, rxbuf := s.rxbuf.write s.i.toNat (logicalByte s.variant r), i := s.i + 1 } →
      (s.i.toNat < s.li.toNat → exec .receive s = .next t) ∧
      (s.li.toNat ≤ s.i.toNat → s.variant ≠ .pps → ∀ f, t.rxbuf.read s.li.toNat = some f → 32 < f.toNat →
        exec .receive s = .next { t with
          rxlen := s.i + 1, ok := false, err := .lenInsane, done := true, phase := .idle }) ∧
      (s.li.toNat ≤ s.i.toNat → (s.variant ≠ .pps → ∃ f, t.rxbuf.read s.li.toNat = some f ∧ f.toNat ≤ 32) →
        ∀ E, t.declares E →
        exec .receive s = .next { t with
          declLen := E, phase := if E ≤ s.i.toNat + 1 then .rxCheck else .rxByte }))

/-- 41_parser.md R121, R124: a capture that ended before the length field, or with another count than `E`, fails with
LEN_MISMATCH and is never checksummed. -/
def Obligations.WrongLengthIsMismatch : Prop :=
  ∀ s : State, s.phase = .rxCheck → s.cmd = encode .receive → (s.i.toNat ≤ s.li.toNat ∨ s.i.toNat ≠ s.declLen) →
    exec .receive s = .next { s with
      rxlen := s.i, ok := false, err := .lenMismatch, done := true, phase := .idle }

/-- 41_parser.md R123 with R124 (42_checksum.md R141, R143, R145): on a length match the recomputed checksum goes into
`CKSUM`, and the frame is accepted exactly when it verifies. -/
def Obligations.ChecksumCheckDecides : Prop :=
  ∀ (s : State) (F : List Byte), s.phase = .rxCheck → s.cmd = encode .receive → s.li.toNat < s.i.toNat →
    s.i.toNat = s.declLen → F.length = s.declLen → s.holds .rx F →
    (s.variant = .bsb → exec .receive s = .next { s with
      cksum := crcBsb F, rxlen := s.i, ok := decide (crcBsb F = 0),
      err := if crcBsb F = 0 then .none else .checksum, done := true, phase := .idle }) ∧
    (s.variant = .lpb → ∀ (G : List Byte) (hi lo : Byte), F = G ++ [hi, lo] →
      exec .receive s = .next { s with
        cksum := crcLpb G (s.declLen - 1), rxlen := s.i,
        ok := decide ((crcLpb G (s.declLen - 1)).toNat = hi.toNat * 256 + lo.toNat),
        err := if (crcLpb G (s.declLen - 1)).toNat = hi.toNat * 256 + lo.toNat then .none else .checksum,
        done := true, phase := .idle }) ∧
    (s.variant = .pps → s.declLen = s.li.toNat + 1 → ∀ (G : List Byte) (last : Byte), F = G ++ [last] →
      exec .receive s = .next { s with
        cksum := (crcPps G).setWidth 16, rxlen := s.i, ok := decide (crcPps G = last),
        err := if crcPps G = last then .none else .checksum, done := true, phase := .idle })

/-- 41_parser.md R110 to R125 (95_test_vectors.md S4), the whole run: a valid BSB frame in the queue, in wire bytes, is
received exactly: `|F| + 2` Engine steps end with success, the bytes reproduced in `RXBUF`, what follows left in the queue
and everything beyond the frame in `RXBUF` unchanged. -/
def Obligations.ReceiveReproducesBsbFrame : Prop :=
  ∀ (s : State) (F rest : List Byte), s.params.wellFormed = true → s.agenda = [] → s.phase = .rxHunt →
    s.cmd = encode .receive → s.variant = .bsb → s.validV = true → s.lenIdx = 3 → s.timeout = false →
    (F[0]? = some 0xDC ∨ F[0]? = some 0xDE) → F[3]? = some (BitVec.ofNat 8 F.length) → F.length ≤ 32 →
    crcBsb F = 0 → s.rxq = F.map (fun b => b ^^^ 0xFF) ++ rest →
    ∃ t, core.run (F.length + 2) s = .next t ∧ t.status = 0x06 ∧ t.rxlen.toNat = F.length ∧ t.cksum = 0 ∧
      t.holds .rx F ∧ (∀ j, F.length ≤ j → t.rxbuf.read j = s.rxbuf.read j) ∧ t.rxq = rest ∧ t.txbuf = s.txbuf

/-- 41_parser.md R117: with the admissible capacities the OVERFLOW check of a capture never fires. -/
def Obligations.ReceiveNeverOverflows : Prop :=
  ∀ s t : State, s.Inv → s.engineNext → s.phase.capturing = true → step s = .next t → t.err ≠ .overflow

/-! ## The transmitter -/

/-- 43_transmitter.md R161, R163, 60 R204: what `TX_PREP` rejects, in order, with nothing written but `N` and the status. -/
def Obligations.PrepareRejects : Prop :=
  ∀ s : State, s.phase = .txPrep → s.cmd = encode .send →
    ((s.validV = false ∨ (s.variant ≠ .pps ∧ (s.validO = false ∨ s.validD = false))) →
      exec .send s = .next { s with ok := false, err := .notConfigured, done := true, phase := .idle }) ∧
    (s.validV = true → (s.variant ≠ .pps → s.validO = true ∧ s.validD = true) → s.lenIdx = lenIdxOf s.variant →
      (∀ v, s.variant ≠ .pps → s.txbuf.read s.lenIdx.toNat = some v →
        ∀ len, len = (if s.variant = .bsb then v.toNat else v.toNat + 1) →
        ((32 < v.toNat ∨ len < 6) →
          exec .send s = .next { s with
            sendLen := len, ok := false, err := .lenInsane, done := true, phase := .idle }) ∧
        (v.toNat ≤ 32 → 6 ≤ len → s.params.bufCap < len →
          exec .send s = .next { s with
            sendLen := len, ok := false, err := .overflow, done := true, phase := .idle })) ∧
      (s.variant ≠ .pps → s.txbuf.read s.lenIdx.toNat = none →
        exec .send s = .fault (.unwrittenByte .tx s.lenIdx.toNat)) ∧
      (s.variant = .pps → s.params.bufCap < 10 →
        exec .send s = .next { s with
          sendLen := 10, ok := false, err := .overflow, done := true, phase := .idle }))

/-- 43_transmitter.md R164, R167 (R161, R162): a BSB frame with a legal length field and a written body is prepared: header,
body as the host wrote it, CRC trailer high byte first, a zero residue over the whole frame; nothing beyond the frame and
nothing else changes. -/
def Obligations.PrepareBuildsBsbFrame : Prop :=
  ∀ (s : State) (len : Byte), s.params.wellFormed = true → s.phase = .txPrep → s.variant = .bsb → s.validV = true →
    s.validO = true → s.validD = true → s.lenIdx = 3 → s.txbuf.read 3 = some len → 6 ≤ len.toNat → len.toNat ≤ 32 →
    (∀ j, 4 ≤ j → j < len.toNat - 2 → s.txbuf.read j ≠ none) →
    ∃ (t : State) (F : List Byte), exec .send s = .next t ∧ F.length = len.toNat ∧ t.holds .tx F ∧
      F[0]? = some 0xDC ∧
      F[1]? = some (match s.params.bsbSource with | .orFlag => s.own ||| 0x80 | .addFlag => s.own + 0x80) ∧
      F[2]? = some s.dest ∧
      (∀ j, 3 ≤ j → j < len.toNat - 2 → F[j]? = s.txbuf.read j) ∧
      F[len.toNat - 2]? = some ((crcBsb (F.take (len.toNat - 2))).extractLsb' 8 8) ∧
      F[len.toNat - 1]? = some ((crcBsb (F.take (len.toNat - 2))).extractLsb' 0 8) ∧
      t.cksum = crcBsb (F.take (len.toNat - 2)) ∧ crcBsb F = 0 ∧
      (∀ j, len.toNat ≤ j → t.txbuf.read j = s.txbuf.read j) ∧
      t = { s with txbuf := t.txbuf, cksum := t.cksum, sendLen := len.toNat, phase := .txAcq }

/-- 43_transmitter.md R165, R168: the same for LPB, with the addresses in the order of `LPB_ADDR_ORDER`. -/
def Obligations.PrepareBuildsLpbFrame : Prop :=
  ∀ (s : State) (len : Byte), s.params.wellFormed = true → s.phase = .txPrep → s.variant = .lpb → s.validV = true →
    s.validO = true → s.validD = true → s.lenIdx = 1 → s.txbuf.read 1 = some len → 5 ≤ len.toNat → len.toNat ≤ 32 →
    (∀ j, 4 ≤ j → j < len.toNat - 1 → s.txbuf.read j ≠ none) →
    ∃ (t : State) (F : List Byte), exec .send s = .next t ∧ F.length = len.toNat + 1 ∧ t.holds .tx F ∧
      F[0]? = some 0x78 ∧ F[1]? = some len ∧
      (s.params.lpbAddrOrder = .destAt2 → F[2]? = some s.dest ∧ F[3]? = some s.own) ∧
      (s.params.lpbAddrOrder = .ownAt2 → F[2]? = some s.own ∧ F[3]? = some s.dest) ∧
      (∀ j, 4 ≤ j → j < len.toNat - 1 → F[j]? = s.txbuf.read j) ∧
      F[len.toNat - 1]? = some ((crcLpb (F.take (len.toNat - 1)) len.toNat).extractLsb' 8 8) ∧
      F[len.toNat]? = some ((crcLpb (F.take (len.toNat - 1)) len.toNat).extractLsb' 0 8) ∧
      t.cksum = crcLpb (F.take (len.toNat - 1)) len.toNat ∧
      (∀ j, len.toNat + 1 ≤ j → t.txbuf.read j = s.txbuf.read j) ∧
      t = { s with txbuf := t.txbuf, cksum := t.cksum, sendLen := len.toNat + 1, phase := .txAcq }

/-- 43_transmitter.md R166, R169: for PPS no header is written; the checksum of the nine bytes the host wrote goes to
`TXBUF[9]` and, zero-extended, into `CKSUM`. -/
def Obligations.PreparePpsFrame : Prop :=
  ∀ (s : State) (G : List Byte), s.params.wellFormed = true → s.phase = .txPrep → s.variant = .pps → s.validV = true →
    s.lenIdx = 9 → G.length = 9 → s.holds .tx G →
    exec .send s = .next { s with
      txbuf := s.txbuf.write 9 (crcPps G), cksum := (crcPps G).setWidth 16, sendLen := 10, phase := .txAcq }

/-- 43_transmitter.md R170: the deadline at the top of an attempt (strict), then for PPS straight to `TX_CHK`, and else a
backoff within the range and the start of the quiet wait; a scripted backoff is taken in order and one out of range is
refused (notes/assumptions/8.md, 10.md). -/
def Obligations.AcquireDrawsBackoff : Prop :=
  ∀ s : State, s.params.wellFormed = true → s.phase = .txAcq → s.cmd = encode .send →
    (1000 < (s.ms - s.t0).toNat →
      exec .send s = .next { s with ok := false, err := .busTimeout, done := true, phase := .idle }) ∧
    ((s.ms - s.t0).toNat ≤ 1000 → s.variant = .pps → exec .send s = .next { s with phase := .txChk }) ∧
    ((s.ms - s.t0).toNat ≤ 1000 → s.variant ≠ .pps →
      (s.backoffDraws = [] → ∃ d c, s.params.backoffMin.toNat ≤ d.toNat ∧ d.toNat ≤ s.params.backoffMax.toNat ∧
        exec .send s = .next { s with d := d, drawCount := c, wstart := s.ms, phase := .txWait }) ∧
      (∀ d rest, s.backoffDraws = d :: rest →
        (s.params.backoffMin.toNat ≤ d.toNat ∧ d.toNat ≤ s.params.backoffMax.toNat →
          exec .send s = .next { s with backoffDraws := rest, d := d, wstart := s.ms, phase := .txWait }) ∧
        (¬(s.params.backoffMin.toNat ≤ d.toNat ∧ d.toNat ≤ s.params.backoffMax.toNat) →
          exec .send s = .refused (.backoffRange d))))

/-- 43_transmitter.md R171: one sample a step, taken before the duration test: a busy sample goes back to `TX_ACQ` even in
the step that would end the wait. The sample is the pending draw, else the line's level (30_encoding.md R86, the model's
reading: notes/assumptions/9.md). -/
def Obligations.WaitSamplesTheLine : Prop :=
  ∀ (s t : State) (busy : Bool), s.phase = .txWait →
    ((∃ rest, s.busyDraws = busy :: rest ∧ t = { s with busyDraws := rest }) ∨
      (s.busyDraws = [] ∧ busy = s.lineBusy ∧ t = s)) →
    (busy = true → exec .send s = .next { t with phase := .txAcq }) ∧
    (busy = false → s.d.toNat ≤ (s.ms - s.wstart).toNat → exec .send s = .next { t with phase := .txChk }) ∧
    (busy = false → (s.ms - s.wstart).toNat < s.d.toNat → exec .send s = .next t)

/-- 43_transmitter.md R172: after the wait the deadline again (strict), then the frame starts at byte 0. -/
def Obligations.CheckDeadlineAfterWait : Prop :=
  ∀ s : State, s.phase = .txChk → s.cmd = encode .send →
    (1000 < (s.ms - s.t0).toNat →
      exec .send s = .next { s with ok := false, err := .busTimeout, done := true, phase := .idle }) ∧
    ((s.ms - s.t0).toNat ≤ 1000 → exec .send s = .next { s with k := 0, phase := .txByte })

/-- The state after `TX_BYTE` offered the logical byte `b` and the transport accepted `acc` (43_transmitter.md R173 to
R176), written field by field; `u` is the state after the answer was taken. -/
def Sys2Proof.Machine.State.offeredByte (u : State) (b : Byte) (acc : Nat) : State :=
  { u with
    txData := logicalByte u.variant b
    txStrobe := false
    csActive := false
    offered := u.offered ++ [{ data := logicalByte u.variant b, accepted := acc }]
    k := if acc = 0 then u.k else u.k + 1
    ok := if acc = 1 ∧ u.k.toNat + 1 = u.sendLen then true else u.ok
    err := if acc = 1 ∧ u.k.toNat + 1 = u.sendLen then .none else u.err
    done := if acc = 1 ∧ u.k.toNat + 1 = u.sendLen then true else u.done
    phase := if acc = 0 then .txAcq else if u.k.toNat + 1 = u.sendLen then .idle else .txByte }

/-- 43_transmitter.md R173 to R176: one byte is offered, inverted for BSB and LPB; refused by the transport it sends the
block back to `TX_ACQ` with the same `t0`; accepted it advances `k`, and the last one finishes with success; `cs_active`
is 0 again after the step. The answer is the forced 1, the pending draw (above 1 it is refused), or
with none pending some value in 0 and 1 (notes/assumptions/8.md, 15.md); `offered` is the model's record of the offers
(notes/assumptions/21.md). -/
def Obligations.TxByteOffersOneByte : Prop :=
  ∀ (s : State) (b : Byte), s.phase = .txByte → s.cmd = encode .send → s.csHeld = [] →
    s.txbuf.read s.k.toNat = some b → s.k.toNat < 255 →
    (s.params.forceAccept = true → exec .send s = .next (s.offeredByte b 1)) ∧
    (s.params.forceAccept = false → ∀ acc rest, s.acceptDraws = acc :: rest →
      (acc ≤ 1 → exec .send s = .next ({ s with acceptDraws := rest }.offeredByte b acc)) ∧
      (1 < acc → exec .send s = .refused (.acceptedCount acc))) ∧
    (s.params.forceAccept = false → s.acceptDraws = [] →
      ∃ acc c, acc ≤ 1 ∧ exec .send s = .next ({ s with drawCount := c }.offeredByte b acc))

/-- 43_transmitter.md R173, R176, 20_memory.md R57 (95_test_vectors.md S6), the whole run: from the check after the wait,
with every offer accepted, `N + 1` Engine steps offer the frame's wire bytes in index order, each once, and end with
success; the buffers are as they were. `offered` is the model's record of the offers (notes/assumptions/21.md). -/
def Obligations.SendOffersWholeFrame : Prop :=
  ∀ (s : State) (F : List Byte), s.Inv → s.agenda = [] → s.phase = .txChk → s.elapsed s.t0 ≤ 1000 →
    F.length = s.sendLen → s.holds .tx F → s.params.forceAccept = false →
    s.acceptDraws = List.replicate F.length 1 →
    ∃ t, core.run (F.length + 1) s = .next t ∧ t.status = 0x06 ∧
      t.offered = s.offered ++ F.map (fun b => { data := logicalByte s.variant b, accepted := 1 }) ∧
      t.txbuf = s.txbuf ∧ t.rxbuf = s.rxbuf ∧ t.rxq = s.rxq ∧ t.cksum = s.cksum

/-- 43_transmitter.md R178 (a): BUS_TIMEOUT is never raised before the deadline has passed. -/
def Obligations.BusTimeoutOnlyAfterDeadline : Prop :=
  ∀ s t : State, step s = .next t → t.err = .busTimeout → s.err ≠ .busTimeout →
    1000 < (s.ms - s.t0).toNat ∧ t.phase = .idle ∧ t.done = true

/-- 43_transmitter.md R175, D45: while a SEND is in progress no step but a reset moves its deadline base, so a collision
never restarts the deadline; and in every state, idle or not, reset or not, only the clock's tick moves the clock (10_state.md
R41). -/
def Obligations.DeadlineBaseIsKept : Prop :=
  ∀ s t : State, step s = .next t →
    (s.phase ≠ .idle → ¬ s.nextTurn .reset → t.t0 = s.t0) ∧ (¬ s.nextTurn .tick → t.ms = s.ms)

/-! ## The host register space -/

/-- 30_encoding.md R74, 20_memory.md R53, R59: what a one-byte read of each address returns. -/
def Obligations.HostReadsRegisterMap : Prop :=
  ∀ s : State,
    (s.hostRead 0x00 = .ok 0 ∧ s.hostRead 0x01 = .ok s.arg ∧
      s.hostRead 0x02 = .ok (match s.variant with | .bsb => 0 | .lpb => 1 | .pps => 2) ∧
      s.hostRead 0x03 = .ok s.own ∧ s.hostRead 0x04 = .ok s.dest ∧ s.hostRead 0x05 = .ok s.lenIdx) ∧
    (s.hostRead 0x06 = .ok (s.newVariant.setWidth 8) ∧ s.hostRead 0x07 = .ok s.newOwn ∧
      s.hostRead 0x08 = .ok s.newDest ∧ s.hostRead 0x0A = .ok s.rxlen) ∧
    (∃ v, s.hostRead 0x09 = .ok v ∧ v.getLsbD 0 = decide (s.phase ≠ .idle) ∧ v.getLsbD 1 = s.done ∧
      v.getLsbD 2 = s.ok ∧ v.getLsbD 3 = false ∧ v.extractLsb' 4 4 = s.err.code) ∧
    (s.hostRead 0x0B = .ok (s.cksum.extractLsb' 0 8) ∧ s.hostRead 0x0C = .ok (s.cksum.extractLsb' 8 8)) ∧
    (∃ v, s.hostRead 0x0D = .ok v ∧ v.getLsbD 0 = s.validV ∧ v.getLsbD 1 = s.validO ∧ v.getLsbD 2 = s.validD ∧
      v.extractLsb' 3 5 = 0) ∧
    (∀ a : Byte, (0x0E ≤ a.toNat ∧ a.toNat < 0x40) ∨ 0xC0 ≤ a.toNat → s.hostRead a = .ok 0) ∧
    (∀ (a : Byte) (j : Nat), s.params.bufCap ≤ j → j < 64 → (a.toNat = 0x40 + j ∨ a.toNat = 0x80 + j) →
      s.hostRead a = .ok 0) ∧
    (∀ (a : Byte) (j : Nat) (v : Byte), j < s.params.bufCap → j < 64 →
      (a.toNat = 0x40 + j → s.txbuf.read j = some v → s.hostRead a = .ok v) ∧
      (a.toNat = 0x80 + j → s.rxbuf.read j = some v → s.hostRead a = .ok v) ∧
      (a.toNat = 0x40 + j → s.txbuf.read j = none → s.hostRead a = .error (.unwrittenByte .tx j)) ∧
      (a.toNat = 0x80 + j → s.rxbuf.read j = none → s.hostRead a = .error (.unwrittenByte .rx j)))

/-- 30_encoding.md R76: the codes of `STATUS.ERR`, nine in all. -/
def Obligations.ErrorCodesMatchTable : Prop :=
  ErrCode.none.code = 0 ∧ ErrCode.noSof.code = 1 ∧ ErrCode.lenInsane.code = 2 ∧ ErrCode.lenMismatch.code = 3 ∧
  ErrCode.checksum.code = 4 ∧ ErrCode.busTimeout.code = 5 ∧ ErrCode.overflow.code = 6 ∧
  ErrCode.notConfigured.code = 7 ∧ ErrCode.badOp.code = 8 ∧ ∀ e : ErrCode, e.code.toNat ≤ 8

/-- 20_memory.md R51, R54, 10_state.md R27: a one-byte host read changes nothing but what the host itself holds, and faults
only where it reads an unwritten buffer byte; an access of another width, a read or a write, is refused. `hostData` is the
model's own field (notes/assumptions/7.md). -/
def Obligations.HostReadHasNoSideEffect : Prop :=
  ∀ (s : State) (a : Byte) (width : Nat),
    (s.nextTurn (.host (.read a width)) →
      (width ≠ 1 → step s = .refused (.accessWidth width)) ∧
      (width = 1 → ∀ v, s.hostRead a = .ok v → step s = .next { s with hostData := v, agenda := s.agenda.tail }) ∧
      (width = 1 → ∀ f, s.hostRead a = .error f → step s = .fault f ∧
        ∃ b j, f = .unwrittenByte b j ∧ (s.buf b).read j = none ∧ j < s.params.bufCap ∧
          (b = .tx ∧ a.toNat = 0x40 + j ∨ b = .rx ∧ a.toNat = 0x80 + j))) ∧
    (∀ v, width ≠ 1 → s.nextTurn (.host (.write a width v)) → step s = .refused (.accessWidth width))

/-- 20_memory.md R54, R56: while an operation is in progress every host write is ignored, whatever the address. -/
def Obligations.BusyIgnoresHostWrites : Prop :=
  ∀ (s : State) (a v : Byte), s.phase ≠ .idle → s.nextTurn (.host (.write a 1 v)) → step s = .next s.turned

/-- 20_memory.md R54, 43_transmitter.md R160: what accepting a command does: the results are cleared, `CMD` and `ARG`
latched, the first phase entered (the deadline base taken for SEND), and nothing else. -/
def Obligations.CommandWriteIsAccepted : Prop :=
  ∀ (s : State) (v : Byte), s.phase = .idle → s.nextTurn (.host (.write 0x00 1 v)) →
    ∃ t, step s = .next t ∧ t.status = 0x01 ∧ t.cmd = v ∧ t.n = s.arg ∧ t.timeout = false ∧
      (v = 0x05 → t.phase = .rxHunt ∧ t.t0 = s.t0) ∧ (v = 0x06 → t.phase = .txPrep ∧ t.t0 = s.ms) ∧
      (v ≠ 0x05 → v ≠ 0x06 → t.phase = .exec ∧ t.t0 = s.t0) ∧
      t = { s with
        done := false, ok := false, err := .none, cmd := v, n := s.arg, timeout := false, phase := t.phase, t0 := t.t0,
        agenda := s.agenda.tail }

/-- 30_encoding.md R74, 20_memory.md R53, R55, 10_state.md R32: an idle write of one byte reaches its register and nothing
else; a read-only or reserved address ignores it. -/
def Obligations.IdleWriteReachesItsRegister : Prop :=
  ∀ (s : State) (a v : Byte), s.phase = .idle → s.nextTurn (.host (.write a 1 v)) →
    (a = 0x01 → step s = .next { s.turned with arg := v }) ∧
    (a = 0x06 → step s = .next { s.turned with newVariant := BitVec.ofNat 2 v.toNat }) ∧
    (a = 0x07 → step s = .next { s.turned with newOwn := v }) ∧
    (a = 0x08 → step s = .next { s.turned with newDest := v }) ∧
    ((2 ≤ a.toNat ∧ a.toNat ≤ 5) ∨ (9 ≤ a.toNat ∧ a.toNat < 0x40) ∨ 0xC0 ≤ a.toNat → step s = .next s.turned) ∧
    (∀ j, j < s.params.bufCap → j < 64 → a.toNat = 0x40 + j →
      step s = .next { s.turned with txbuf := s.txbuf.write j v }) ∧
    (∀ j, j < s.params.bufCap → j < 64 → a.toNat = 0x80 + j →
      step s = .next { s.turned with rxbuf := s.rxbuf.write j v }) ∧
    (∀ j, s.params.bufCap ≤ j → j < 64 → (a.toNat = 0x40 + j ∨ a.toNat = 0x80 + j) → step s = .next s.turned)

/-- 20_memory.md R55, R61: a byte the idle host writes into a buffer window reads back, and every other address of the
register space reads as before. -/
def Obligations.WindowWriteReadsBack : Prop :=
  ∀ (s : State) (a v : Byte) (j : Nat), s.phase = .idle → j < s.params.bufCap → j < 64 →
    (a.toNat = 0x40 + j ∨ a.toNat = 0x80 + j) → s.nextTurn (.host (.write a 1 v)) →
    ∃ t, step s = .next t ∧ t.hostRead a = .ok v ∧ ∀ b, b ≠ a → t.hostRead b = s.hostRead b

/-! ## The other agents -/

/-- 10_state.md R36, R38, R40, R41: the Transport's and the Clock's steps. A byte joins the end of the queue while there is
room; `rx_timeout` latches only in `RX_BYTE` with an empty queue; the level is set; `MS` wraps modulo 2^32. That a
step which is not enabled changes nothing is the model's reading (notes/assumptions/18.md). -/
def Obligations.TransportAndClockSteps : Prop :=
  ∀ s : State,
    (∀ b, s.nextTurn (.transport (.rxArrive b)) → s.csActive = false → s.rxq.length < s.params.rxFifoDepth →
      step s = .next { s.turned with rxq := s.rxq ++ [b] }) ∧
    (s.nextTurn (.transport .rxTimeout) → s.phase = .rxByte → s.rxq = [] →
      step s = .next { s.turned with timeout := true }) ∧
    (s.nextTurn (.transport .rxTimeout) → (s.phase ≠ .rxByte ∨ s.rxq ≠ []) → step s = .next s.turned) ∧
    (∀ l, s.nextTurn (.transport (.line l)) → step s = .next { s.turned with lineBusy := l }) ∧
    (s.nextTurn .tick → ∃ t, step s = .next t ∧ t.ms.toNat = (s.ms.toNat + 1) % 2 ^ 32 ∧
      t = { s.turned with ms := t.ms })

/-! ## The whole machine -/

/-- Every step of every agent keeps the invariant of Safety.lean: canonical buffers within the capacity, the queue within
its depth, the outputs quiet between steps, the status consistent with the phase, the configuration and the phase legal,
and the promises of a capture and of a send in progress. -/
def Obligations.StepKeepsInvariant : Prop := ∀ s t : State, s.Inv → step s = .next t → t.Inv

/-- Every step of every agent keeps both buffers in canonical form and below the capacity (10_state.md R27, 20_memory.md
R66), whatever else the state holds. -/
def Obligations.StepKeepsBuffersCanonical : Prop :=
  ∀ s t : State, s.params.wellFormed = true → s.BuffersOk → step s = .next t → t.BuffersOk

/-- 10_state.md R27, 60 R208: in the invariant, an Engine step faults only as `unwrittenByte`, at a buffer byte that is
indeed unwritten, and only in a CKSUM operation's step or in SEND's `TX_PREP`: RECEIVE never faults, and SEND never faults
once it is prepared. -/
def Obligations.EngineFaultsOnlyOverUnwrittenOperands : Prop :=
  ∀ (s : State) (f : Fault), s.Inv → s.engineNext → step s = .fault f →
    (∃ b j, f = .unwrittenByte b j ∧ (s.buf b).read j = none) ∧
    (s.phase = .exec ∧ s.cmd ∈ [0x02, 0x12, 0x03, 0x13, 0x04, 0x14] ∨ s.phase = .txPrep ∧ s.cmd = 0x06)

/-- 40_config.md R105: no step changes the configuration registers but CONFIGURE's and reset. -/
def Obligations.OnlyConfigureAndResetChangeConfiguration : Prop :=
  ∀ s t : State, step s = .next t → ¬ s.nextTurn .reset →
    ¬ (s.engineNext ∧ s.phase = .exec ∧ s.cmd = encode .configure) →
    t.variant = s.variant ∧ t.own = s.own ∧ t.dest = s.dest ∧ t.lenIdx = s.lenIdx ∧ t.validV = s.validV ∧
      t.validO = s.validO ∧ t.validD = s.validD

/-- 10_state.md R29, R30: `RXLEN` is written only by the finish of a RECEIVE, and then with the captured count; `CKSUM`
only by a CKSUM operation (not by NOP, CONFIGURE or an illegal command, which share its phase), the preparation of a SEND and
the check of a RECEIVE; reset writes both. -/
def Obligations.ResultRegisterWriters : Prop :=
  ∀ s t : State, step s = .next t → ¬ s.nextTurn .reset →
    (t.rxlen ≠ s.rxlen → s.engineNext ∧ s.cmd = encode .receive ∧ t.done = true ∧ t.phase = .idle ∧ t.rxlen = t.i) ∧
    (t.cksum ≠ s.cksum → s.engineNext ∧
      (s.phase = .exec ∧ s.cmd ∈ [0x02, 0x12, 0x03, 0x13, 0x04, 0x14] ∨ s.phase = .txPrep ∧ s.cmd = 0x06 ∨
        s.phase = .rxCheck ∧ s.cmd = 0x05))

/-- 20_memory.md R50, 43_transmitter.md R173, R179: only a `TX_BYTE` step offers a byte to the bus, one byte, the wire form
of `TXBUF[k]`. -/
def Obligations.OnlyByteStepsOffer : Prop :=
  ∀ s t : State, step s = .next t → t.offered ≠ s.offered →
    s.engineNext ∧ s.phase = .txByte ∧ ∃ b acc, s.txbuf.read s.k.toNat = some b ∧ acc ≤ 1 ∧
      t.offered = s.offered ++ [{ data := logicalByte s.variant b, accepted := acc }]

/-- 10_state.md R38, 43_transmitter.md R177, R179: only `RX_HUNT` and `RX_BYTE` steps take bytes from the receive queue, the
oldest one at a time; a SEND never does. -/
def Obligations.OnlyReceivePopsQueue : Prop :=
  ∀ s t : State, s.csHeld = [] → s.engineNext → step s = .next t → t.rxq ≠ s.rxq →
    (s.phase = .rxHunt ∨ s.phase = .rxByte) ∧ ∃ r, s.rxq = r :: t.rxq

/-- 10_state.md R26, 70 R241: the pending PPS override is set only by a PPS start of frame and cleared only by the start of
a PPS long-form capture, a CONFIGURE or a reset; every other step keeps it. -/
def Obligations.PpsOverridePersists : Prop :=
  ∀ s t : State, step s = .next t →
    (s.ppsOvrPend = false → t.ppsOvrPend = true →
      s.engineNext ∧ s.phase = .rxHunt ∧ s.variant = .pps ∧ s.own = 1 ∧ s.rxq.head? = some 0x17) ∧
    (s.ppsOvrPend = true → t.ppsOvrPend = false →
      s.nextTurn .reset ∨ (s.engineNext ∧ s.phase = .exec ∧ s.cmd = encode .configure) ∨
      (s.engineNext ∧ s.phase = .rxHunt ∧ s.variant = .pps ∧ t.phase = .rxSettle))

/-- 20_memory.md R54: `DONE` once set stays, with `OK` and `ERR`, until the next accepted command or a reset. -/
def Obligations.ResultsStayUntilNextCommand : Prop :=
  ∀ s t : State, s.Inv → s.done = true → step s = .next t → ¬ s.nextTurn .reset →
    (∀ v, ¬ s.nextTurn (.host (.write 0x00 1 v))) →
    t.done = true ∧ t.ok = s.ok ∧ t.err = s.err ∧ t.phase = .idle

/-- 43_transmitter.md R180 with 20_memory.md R56: from the end of `TX_PREP` to the end of the send, no step but a reset changes
`TXBUF`, `N` or `CKSUM`. -/
def Obligations.FrameUnchangedWhileSending : Prop :=
  ∀ s t : State, s.phase.sending = true → s.cmd = encode .send → step s = .next t → ¬ s.nextTurn .reset →
    t.txbuf = s.txbuf ∧ t.sendLen = s.sendLen ∧ t.cksum = s.cksum

/-- 00_scope.md R6: no step of any agent changes the implementation's parameters. -/
def Obligations.ParametersNeverChange : Prop := ∀ s t : State, step s = .next t → t.params = s.params

/-! ## Programs -/

/-- 30_encoding.md R86 with 10_state.md R43: `DRAW`s queue up in order; a program starts by having the defaults answer, what
answers is kept by every other step, and under the defaults a free input with no pending `DRAW` is answered deterministically:
the backoff is `BACKOFF_MIN_MS`, the offer is accepted, the PPS length draw is 8 (the line's level stands in
`WaitSamplesTheLine`). 30_encoding.md R87: `WAITDONE` reads `STATUS`; a read that finds `DONE = 1` ends it, and after one that
finds `DONE = 0` the other agents take their turns and it reads again. The turns of a script are the model's own
(notes/assumptions/8.md, 30.md). -/
def Obligations.ProgramTurnsAndDefaults : Prop :=
  (∀ program, (programTurns program).head? = some (.unscripted .simulator)) ∧
  (∀ (s : State) (u : Unscripted), s.nextTurn (.unscripted u) → step s = .next { s.turned with unscripted := u }) ∧
  (∀ s t : State, step s = .next t → (∀ u, ¬ s.nextTurn (.unscripted u)) → t.unscripted = s.unscripted) ∧
  (∀ s : State,
    (∀ v, s.nextTurn (.draw (.backoff v)) → step s = .next { s.turned with backoffDraws := s.backoffDraws ++ [v] }) ∧
    (∀ v, s.nextTurn (.draw (.accept v)) → step s = .next { s.turned with acceptDraws := s.acceptDraws ++ [v] }) ∧
    (∀ v, s.nextTurn (.draw (.busy v)) → step s = .next { s.turned with busyDraws := s.busyDraws ++ [v] }) ∧
    (∀ v, s.nextTurn (.draw (.ppsLi v)) → step s = .next { s.turned with ppsLiDraws := s.ppsLiDraws ++ [v] })) ∧
  (∀ (s : State) (between : List OtherTurn), s.nextTurn (.waitDone between) →
    (s.done = true → step s = .next { s.turned with hostData := s.status }) ∧
    (s.done = false → step s = .next { s.turned with
      hostData := s.status, agenda := between.map OtherTurn.turn ++ .waitDone between :: s.agenda.tail })) ∧
  (∀ s : State, s.unscripted = .simulator →
    (s.phase = .txAcq → (s.ms - s.t0).toNat ≤ 1000 → s.variant ≠ .pps → s.backoffDraws = [] →
      exec .send s = .next { s with d := s.params.backoffMin, wstart := s.ms, phase := .txWait }) ∧
    (∀ b, s.phase = .txByte → s.cmd = encode .send → s.csHeld = [] → s.txbuf.read s.k.toNat = some b → s.k.toNat < 255 →
      s.acceptDraws = [] → exec .send s = .next (s.offeredByte b 1)) ∧
    (∀ (i : Instr) (rest : List Byte), s.variant = .pps → i.space = .wire .pps → s.phase = .rxHunt → s.validV = true →
      s.validO = true → s.rxq = encode i :: rest → (i = .sofPps17 → s.own ≠ 1) → s.ppsOvrPend = true →
      s.ppsLiDraws = [] →
      exec i s = .next { s with
        rxq := rest, rxPop := false, rxbuf := s.rxbuf.write 0 (encode i), i := 1, ppsOvrPend := false,
        li := 8, phase := .rxSettle }))
end

