-- ==== Sys2Proof/Laws/Checksum.lean ====
section
/-! SUPPORT. The algebra of the CRC register (42_checksum.md R140, R141, R151) and of the byte sum. -/

namespace Sys2Proof.Machine

theorem crcShift_zero : crcShift 0 = 0 := by decide

/-- With bit 15 clear a shift adds no polynomial. -/
theorem crcShift_of_clear {c : Half} (h : c.getLsbD 15 = false) : crcShift c = c <<< 1 := by
  unfold crcShift
  rw [if_neg (by rw [h]; decide)]

/-- A shift is linear over exclusive or. -/
theorem crcShift_xor (a b : Half) : crcShift (a ^^^ b) = crcShift a ^^^ crcShift b := by
  unfold crcShift
  rw [BitVec.getLsbD_xor, BitVec.shiftLeft_xor_distrib]
  cases ha : a.getLsbD 15 <;> cases hb : b.getLsbD 15 <;> simp
  · rw [BitVec.xor_assoc]
  · rw [BitVec.xor_assoc, BitVec.xor_assoc]
    congr 1
    exact BitVec.xor_comm _ _
  · rw [BitVec.xor_assoc, ← BitVec.xor_assoc Config.crcPoly, BitVec.xor_comm Config.crcPoly, BitVec.xor_assoc,
      BitVec.xor_self, BitVec.xor_zero]

/-- A shift loses nothing: only the zero register shifts to zero. -/
theorem crcShift_eq_zero {c : Half} (h : crcShift c = 0) : c = 0 := by
  unfold crcShift at h
  split at h
  · have := congrArg (fun x => BitVec.getLsbD x 0) h
    simp [Config.crcPoly] at this
  · rename_i h15
    apply BitVec.eq_of_getLsbD_eq
    intro i hi
    by_cases e : i = 15
    · subst e
      simpa using h15
    · have := congrArg (fun x => BitVec.getLsbD x (i + 1)) h
      simp only [BitVec.getLsbD_shiftLeft] at this ⊢
      simpa [show i + 1 < 16 by omega] using this

theorem crcShift8_xor (a b : Half) : crcShift8 (a ^^^ b) = crcShift8 a ^^^ crcShift8 b := by
  simp only [crcShift8, crcShift_xor]

theorem crcShift8_eq_zero {c : Half} (h : crcShift8 c = 0) : c = 0 := by
  unfold crcShift8 at h
  iterate 8 replace h := crcShift_eq_zero h
  exact h

theorem crcShift8_injective {a b : Half} (h : crcShift8 a = crcShift8 b) : a = b := by
  have : crcShift8 (a ^^^ b) = 0#16 := by rw [crcShift8_xor, h, BitVec.xor_self]
  have := crcShift8_eq_zero this
  have h2 : a ^^^ b ^^^ b = 0#16 ^^^ b := by rw [this]; rfl
  rwa [BitVec.xor_assoc, BitVec.xor_self, BitVec.xor_zero, BitVec.zero_xor] at h2

/-- Eight shifts of a register whose high byte is clear move its low byte up. -/
theorem crcShift8_low (b : Byte) : crcShift8 (b.setWidth 16) = b.setWidth 16 <<< 8 := by
  have key : ∀ k, k < 8 → crcShift ((b.setWidth 16 : Half) <<< k) = (b.setWidth 16 : Half) <<< (k + 1) := by
    intro k hk
    have hclear : ((b.setWidth 16 : Half) <<< k).getLsbD 15 = false := by
      rw [BitVec.getLsbD_shiftLeft, BitVec.getLsbD_setWidth]
      have : b.getLsbD (15 - k) = false := BitVec.getLsbD_of_ge _ _ (by omega)
      simp [this]
    rw [crcShift_of_clear hclear, BitVec.shiftLeft_add]
  have h0 : (b.setWidth 16 : Half) = (b.setWidth 16 : Half) <<< 0 := by simp
  unfold crcShift8
  rw [h0, key 0 (by omega), key 1 (by omega), key 2 (by omega), key 3 (by omega), key 4 (by omega), key 5 (by omega),
    key 6 (by omega), key 7 (by omega)]
  simp

/-- A byte in the high half of the register determines it. -/
theorem highByte_injective {a b : Byte} (h : (a.setWidth 16 : Half) <<< 8 = b.setWidth 16 <<< 8) : a = b := by
  apply BitVec.eq_of_getLsbD_eq
  intro i hi
  have := congrArg (fun x => BitVec.getLsbD x (i + 8)) h
  simpa [BitVec.getLsbD_shiftLeft, BitVec.getLsbD_setWidth, show i + 8 < 16 by omega, show i < 16 by omega] using this

/-- The two bytes of a trailer, put together as the register holds them. -/
theorem append_eq_xor (hi lo : Byte) :
    (hi ++ lo : Half) = (hi.setWidth 16 <<< 8) ^^^ lo.setWidth 16 := by
  apply BitVec.eq_of_getLsbD_eq
  intro i hi'
  rw [BitVec.getLsbD_append, BitVec.getLsbD_xor, BitVec.getLsbD_shiftLeft, BitVec.getLsbD_setWidth,
    BitVec.getLsbD_setWidth]
  by_cases h : i < 8
  · simp [h, hi']
  · have : lo.getLsbD i = false := BitVec.getLsbD_of_ge _ _ (by omega)
    simp [h, hi', this, show i - 8 < 16 by omega]

theorem crcByte_xor (a b : Half) (x y : Byte) : crcByte (a ^^^ b) (x ^^^ y) = crcByte a x ^^^ crcByte b y := by
  unfold crcByte
  rw [← crcShift8_xor]
  congr 1
  rw [BitVec.setWidth_xor, BitVec.shiftLeft_xor_distrib]
  simp only [BitVec.xor_assoc]
  congr 1
  rw [← BitVec.xor_assoc, BitVec.xor_comm b, BitVec.xor_assoc]

theorem crcByte_inj_left {a b : Half} {x : Byte} (h : crcByte a x = crcByte b x) : a = b := by
  have := crcShift8_injective h
  have h2 := congrArg (· ^^^ (x.setWidth 16 : Half) <<< 8) this
  simpa [BitVec.xor_assoc] using h2

theorem crcByte_inj_right {c : Half} {x y : Byte} (h : crcByte c x = crcByte c y) : x = y := by
  have := crcShift8_injective h
  have h2 := congrArg (c ^^^ ·) this
  simp only [← BitVec.xor_assoc, BitVec.xor_self, BitVec.zero_xor] at h2
  exact highByte_injective h2

@[simp] theorem crcBsb_nil : crcBsb [] = 0 := rfl

theorem crcBsb_append (F G : List Byte) : crcBsb (F ++ G) = G.foldl crcByte (crcBsb F) := by
  simp [crcBsb]

@[simp] theorem byteSum_nil : byteSum [] = 0 := rfl

@[simp] theorem byteSum_cons (b : Byte) (bs : List Byte) : byteSum (b :: bs) = b.toNat + byteSum bs := rfl

/-- Replacing one byte moves the sum by the difference. -/
theorem byteSum_set (F : List Byte) (j : Nat) (v b : Byte) (h : F[j]? = some b) :
    byteSum (F.set j v) + b.toNat = byteSum F + v.toNat := by
  induction F generalizing j with
  | nil => simp at h
  | cons x xs ih =>
    cases j with
    | zero =>
      simp only [List.getElem?_cons_zero, Option.some.injEq] at h
      subst h
      simp only [List.set_cons_zero, byteSum_cons]
      omega
    | succ j =>
      simp only [List.getElem?_cons_succ] at h
      have := ih j h
      simp only [List.set_cons_succ, byteSum_cons]
      omega

theorem hiByte_append_loByte (c : Half) : (hiByte c ++ loByte c : Half) = c := by
  apply BitVec.eq_of_getLsbD_eq
  intro i hi
  rw [BitVec.getLsbD_append]
  by_cases h : i < 8
  · simp [h, loByte]
  · simp [h, hiByte, show i - 8 < 8 by omega, show 8 + (i - 8) = i by omega]

theorem trailerValue_toNat (hi lo : Byte) : (trailerValue hi lo).toNat = hi.toNat * 256 + lo.toNat := by
  unfold trailerValue
  rw [BitVec.toNat_append, Nat.shiftLeft_eq, ← Nat.shiftLeft_eq, ← Nat.shiftLeft_add_eq_or_of_lt (by omega),
    Nat.shiftLeft_eq]

end Sys2Proof.Machine
end

