-- ==== Sys2Proof/Laws/HostPort.lean ====
section
/-! SUPPORT. The host register space and the receive queue: what an address names, what a write does, how a command
starts. -/

namespace Sys2Proof.Machine

/-- The windows of the register space: which addresses name a buffer byte (20_memory.md R53, R55). -/
theorem windowReg_eq_byte {p : Params} {a : Nat} {b : Buffer} {j : Nat} :
    windowReg p a = .byte b j ↔
      j < p.bufCap ∧ j < 64 ∧ (b = .tx ∧ a = 0x40 + j ∨ b = .rx ∧ a = 0x80 + j) := by
  unfold windowReg
  split
  · cases b <;> simp <;> omega
  · split
    · cases b <;> simp <;> omega
    · cases b <;> simp <;> omega

/-- From 0x0E on the map is the windows' (30_encoding.md R74). -/
theorem hostReg_of_ge {p : Params} {a : Byte} (h : 0x0E ≤ a.toNat) : hostReg p a = windowReg p a.toNat := by
  have hne : ∀ b : Byte, b.toNat < 0x0E → ¬ a = b := by
    rintro b hb rfl
    omega
  unfold hostReg
  repeat rw [if_neg (hne _ (by decide))]


/-- Below 0x0E no address is a buffer byte. -/
theorem hostReg_lt_ne_byte {p : Params} {a : Byte} (h : a.toNat < 0x0E) {b : Buffer} {j : Nat} :
    hostReg p a ≠ .byte b j := by
  unfold hostReg
  have ha : a = BitVec.ofNat 8 a.toNat := by simp
  generalize a.toNat = n at *
  subst ha
  interval_cases n <;> simp

/-- Which host addresses name a buffer byte (20_memory.md R53, R55). -/
theorem hostReg_eq_byte {p : Params} {a : Byte} {b : Buffer} {j : Nat} :
    hostReg p a = .byte b j ↔
      j < p.bufCap ∧ j < 64 ∧ (b = .tx ∧ a.toNat = 0x40 + j ∨ b = .rx ∧ a.toNat = 0x80 + j) := by
  by_cases h : 0x0E ≤ a.toNat
  · rw [hostReg_of_ge h, windowReg_eq_byte]
  · constructor
    · intro hb
      exact absurd hb (hostReg_lt_ne_byte (by omega))
    · intro hb
      omega

/-- A command starts in one of three phases (20_memory.md R54). -/
theorem firstPhase_cases (v : Byte) : firstPhase v = .exec ∨ firstPhase v = .rxHunt ∨ firstPhase v = .txPrep := by
  unfold firstPhase
  split
  · rename_i i _
    cases i <;> simp [firstPhaseOf]
  · exact .inl rfl

/-- What a host write does: nothing while busy, else the register's write (20_memory.md R54, R56). -/
theorem State.hostWrite_cases (s : State) (a v : Byte) :
    (s.phase ≠ .idle ∧ s.hostWrite a v = s) ∨
    (s.phase = .idle ∧ s.hostWrite a v = s.writeIdle v (hostReg s.params a)) := by
  unfold State.hostWrite State.busy
  by_cases h : s.phase = .idle
  · exact .inr ⟨h, by simp [h]⟩
  · exact .inl ⟨h, by simp [h]⟩

/-- A byte joins the end of a queue with room (10_state.md R38). -/
theorem enqueue_of_lt {p : Params} {q : List Byte} (b : Byte) (h : q.length < p.rxFifoDepth) :
    enqueue p q b = q ++ [b] := by
  unfold enqueue
  rw [if_pos h]

/-- The queue never exceeds its depth (10_state.md R38). -/
theorem enqueue_length {p : Params} {q : List Byte} (b : Byte) (hp : 1 ≤ p.rxFifoDepth)
    (h : q.length ≤ p.rxFifoDepth) : (enqueue p q b).length ≤ p.rxFifoDepth := by
  unfold enqueue
  split
  · rw [List.length_append, List.length_singleton]
    omega
  · split
    · exact h
    · rw [List.length_append, List.length_singleton, List.length_tail]
      omega

/-- Bit 1 of `STATUS` is `DONE` (10_state.md R28). -/
theorem State.status_done (s : State) : s.status.getLsbD 1 = s.done := by
  simp only [State.status, BitVec.getLsbD_append]
  cases s.done <;> simp

/-- A poll of `WAITDONE` reads `STATUS` and, where it finds `DONE = 0`, puts itself back after the others' turns. -/
theorem waitDoneStep_eq (between : List OtherTurn) (s : State) :
    waitDoneStep between s = .next
      { s with
        hostData := s.status
        agenda := if s.done = true then s.agenda else between.map OtherTurn.turn ++ .waitDone between :: s.agenda } := by
  have hr : hostStep (.read 0x09 1) s = .next { s with hostData := s.status } := rfl
  unfold waitDoneStep
  rw [hr]
  dsimp only
  unfold State.pollAgain
  rw [show ({ s with hostData := s.status } : State).hostData = s.status from rfl, s.status_done]
  split
  · rfl
  · rfl

end Sys2Proof.Machine
end

