-- ==== Sys2Proof/Laws/Memory.lean ====
section
/-! SUPPORT. The laws of the frame buffers: read after write, the canonical form, and what reading a range answers. -/

namespace Sys2Proof.Machine

@[simp] theorem Memory.read_nil (a : Nat) : Memory.read [] a = none := rfl

@[simp] theorem Memory.read_write_same (m : Memory) (a : Nat) (v : Byte) : (m.write a v).read a = some v := by
  induction m with
  | nil => simp [Memory.write, Memory.read]
  | cons c rest ih =>
    obtain ⟨k, w⟩ := c
    unfold Memory.write
    split_ifs with h1 h2
    · simp [Memory.read]
    · simp [Memory.read]
    · simp only [Memory.read]
      rw [if_neg (fun h => h2 h.symm)]
      exact ih

theorem Memory.read_write_other (m : Memory) {a b : Nat} (v : Byte) (h : b ≠ a) :
    (m.write a v).read b = m.read b := by
  induction m with
  | nil => simp [Memory.write, Memory.read, Ne.symm h]
  | cons c rest ih =>
    obtain ⟨k, w⟩ := c
    unfold Memory.write
    split_ifs with h1 h2
    · simp [Memory.read, Ne.symm h]
    · subst h2
      simp [Memory.read, Ne.symm h]
    · simp only [Memory.read, ih]

theorem Memory.read_write (m : Memory) (a b : Nat) (v : Byte) :
    (m.write a v).read b = if b = a then some v else m.read b := by
  split_ifs with h
  · subst h; simp
  · exact m.read_write_other v h

/-- The entries after a write are the written one and old ones. -/
theorem Memory.mem_write {m : Memory} {a : Nat} {v : Byte} {c : Host.Cell} (h : c ∈ m.write a v) :
    c = (a, v) ∨ c ∈ m := by
  induction m with
  | nil => left; simpa [Memory.write] using h
  | cons d rest ih =>
    obtain ⟨k, w⟩ := d
    unfold Memory.write at h
    split_ifs at h
    · simpa using h
    · rcases List.mem_cons.mp h with h | h
      · exact .inl h
      · exact .inr (List.mem_cons_of_mem _ h)
    · rcases List.mem_cons.mp h with h | h
      · exact .inr (h ▸ List.mem_cons_self)
      · rcases ih h with h | h
        · exact .inl h
        · exact .inr (List.mem_cons_of_mem _ h)

theorem Memory.within_write {m : Memory} {a cap : Nat} {v : Byte} (hm : m.within cap) (ha : a < cap) :
    (m.write a v).within cap := by
  intro c hc
  rcases Memory.mem_write hc with rfl | hc
  · exact ha
  · exact hm c hc

/-- Every write keeps the canonical form. -/
theorem Memory.wf_write {m : Memory} {a : Nat} {v : Byte} (hm : m.wf) : (m.write a v).wf := by
  induction m with
  | nil => simp [Memory.write, Memory.wf]
  | cons d rest ih =>
    obtain ⟨k, w⟩ := d
    obtain ⟨h1, h2⟩ := List.pairwise_cons.mp (show List.Pairwise (· < ·) (k :: rest.map Prod.fst) from hm)
    unfold Memory.write
    split_ifs with ha hb
    · refine List.pairwise_cons.mpr ⟨?_, hm⟩
      intro x hx
      rcases List.mem_cons.mp (show x ∈ k :: rest.map Prod.fst from hx) with rfl | hx
      · exact ha
      · exact lt_trans ha (h1 x hx)
    · subst hb
      exact List.pairwise_cons.mpr ⟨h1, h2⟩
    · refine List.pairwise_cons.mpr ⟨?_, ih h2⟩
      intro x hx
      obtain ⟨c, hc, rfl⟩ := List.mem_map.mp hx
      rcases Memory.mem_write hc with rfl | hc
      · show k < a
        omega
      · exact h1 _ (List.mem_map_of_mem hc)

/-- The empty buffer of reset has the canonical form. -/
@[simp] theorem Memory.wf_nil : Memory.wf [] := List.Pairwise.nil

@[simp] theorem Memory.within_nil (cap : Nat) : Memory.within [] cap := by
  intro c hc
  cases hc

theorem Memory.filled_mono {m : Memory} {a b : Nat} (h : m.filled b) (hab : a ≤ b) : m.filled a :=
  fun j hj => h j (lt_of_lt_of_le hj hab)

/-- A write keeps every written byte written. -/
theorem Memory.filled_write {m : Memory} {n a : Nat} {v : Byte} (h : m.filled n) : (m.write a v).filled n := by
  intro j hj
  rw [Memory.read_write]
  split_ifs
  · rfl
  · exact h j hj

/-- Appending at the end extends the written prefix. -/
theorem Memory.filled_write_succ {m : Memory} {n : Nat} {v : Byte} (h : m.filled n) :
    (m.write n v).filled (n + 1) := by
  intro j hj
  rw [Memory.read_write]
  split_ifs with e
  · rfl
  · exact h j (by omega)

/-- A range reads as `bs` exactly when its bytes, in order, are those of `bs`. -/
theorem Memory.readFrom_eq_ok (m : Memory) (start count : Nat) (bs : List Byte) :
    m.readFrom start count = .ok bs ↔
      bs.length = count ∧ ∀ j, j < count → m.read (start + j) = bs[j]? := by
  induction count generalizing start bs with
  | zero =>
    constructor
    · intro h
      cases h
      simp
    · rintro ⟨h, -⟩
      rw [List.length_eq_zero_iff.mp h]
      rfl
  | succ c ih =>
    simp only [Memory.readFrom]
    constructor
    · intro h
      split at h
      · cases h
      · rename_i b hb
        split at h
        · cases h
        · rename_i rest hr
          cases h
          obtain ⟨hl, hj⟩ := (ih _ _).mp hr
          refine ⟨by simp [hl], ?_⟩
          intro j hlt
          cases j with
          | zero => simpa using hb
          | succ j =>
            have := hj j (by omega)
            rw [show start + 1 + j = start + (j + 1) by omega] at this
            simpa using this
    · rintro ⟨hl, hj⟩
      cases bs with
      | nil => simp at hl
      | cons b rest =>
        have h0 := hj 0 (by omega)
        simp only [Nat.add_zero, List.getElem?_cons_zero] at h0
        have hr : m.readFrom (start + 1) c = .ok rest := by
          refine (ih _ _).mpr ⟨by simpa using hl, ?_⟩
          intro j hlt
          have := hj (j + 1) (by omega)
          rw [show start + (j + 1) = start + 1 + j by omega] at this
          simpa using this
        rw [h0, hr]

theorem Memory.readPrefix_eq_ok (m : Memory) (count : Nat) (bs : List Byte) :
    m.readPrefix count = .ok bs ↔ bs.length = count ∧ ∀ j, j < count → m.read j = bs[j]? := by
  have := m.readFrom_eq_ok 0 count bs
  simpa [Memory.readPrefix] using this

/-- A range fails at `j` exactly when `j` is its lowest unwritten index. -/
theorem Memory.readFrom_eq_error (m : Memory) (start count j : Nat) :
    m.readFrom start count = .error j ↔
      start ≤ j ∧ j < start + count ∧ m.read j = none ∧ ∀ l, start ≤ l → l < j → (m.read l).isSome = true := by
  induction count generalizing start with
  | zero =>
    constructor
    · intro h
      cases h
    · rintro ⟨h1, h2, -⟩
      omega
  | succ c ih =>
    simp only [Memory.readFrom]
    constructor
    · intro h
      split at h
      · rename_i hb
        cases h
        exact ⟨le_refl _, by omega, hb, fun l h1 h2 => by omega⟩
      · rename_i b hb
        split at h
        · rename_i j' hr
          cases h
          obtain ⟨h1, h2, h3, h4⟩ := (ih _).mp hr
          refine ⟨by omega, by omega, h3, ?_⟩
          intro l hl hlt
          by_cases e : l = start
          · subst e; simp [hb]
          · exact h4 l (by omega) hlt
        · cases h
    · rintro ⟨h1, h2, h3, h4⟩
      by_cases e : j = start
      · subst e
        simp [h3]
      · have hs := h4 start (le_refl _) (by omega)
        obtain ⟨b, hb⟩ := Option.isSome_iff_exists.mp hs
        have hr : m.readFrom (start + 1) c = .error j :=
          (ih _).mpr ⟨by omega, by omega, h3, fun l hl hlt => h4 l (by omega) hlt⟩
        rw [hb, hr]

theorem Memory.readPrefix_eq_error (m : Memory) (count j : Nat) :
    m.readPrefix count = .error j ↔
      j < count ∧ m.read j = none ∧ ∀ l, l < j → (m.read l).isSome = true := by
  have := m.readFrom_eq_error 0 count j
  simpa [Memory.readPrefix] using this

/-- A written prefix can be read. -/
theorem Memory.readPrefix_of_filled {m : Memory} {n : Nat} (h : m.filled n) : ∃ bs, m.readPrefix n = .ok bs := by
  cases hr : m.readPrefix n with
  | ok bs => exact ⟨bs, rfl⟩
  | error j =>
    obtain ⟨h1, h2, -⟩ := (m.readPrefix_eq_error n j).mp hr
    have := h j h1
    simp [h2] at this

/-- The buffers of the machine after reset have the canonical form. -/
theorem State.reset_buffers_wf : State.reset.txbuf.wf ∧ State.reset.rxbuf.wf :=
  ⟨Memory.wf_nil, Memory.wf_nil⟩

/-- A write unwrites nothing. -/
theorem Memory.read_eq_none_of_write {m : Memory} {a j : Nat} {v : Byte} (h : (m.write a v).read j = none) :
    m.read j = none := by
  rw [Memory.read_write] at h
  split_ifs at h
  exact h

end Sys2Proof.Machine
end

