-- ==== Sys2Proof/Laws/Operands.lean ====
section
/-! SUPPORT. What reading an operand answers: one lemma per operation that says all of it. -/

namespace Sys2Proof.Machine

theorem State.readByte_eq_ok {s : State} {b : Buffer} {a : Nat} {v : Byte} :
    s.readByte b a = .ok v ↔ (s.buf b).read a = some v := by
  unfold State.readByte
  split <;> simp_all

theorem State.readByte_eq_error {s : State} {b : Buffer} {a : Nat} {f : Fault} :
    s.readByte b a = .error f ↔ (s.buf b).read a = none ∧ f = .unwrittenByte b a := by
  unfold State.readByte
  cases (s.buf b).read a <;> simp [eq_comm]

theorem State.readBytes_eq_ok {s : State} {b : Buffer} {n : Nat} {bs : List Byte} :
    s.readBytes b n = .ok bs ↔ bs.length = n ∧ s.holds b bs := by
  unfold State.readBytes State.holds
  constructor
  · intro h
    split at h
    · rename_i bs' hr
      cases h
      obtain ⟨h1, h2⟩ := (Memory.readPrefix_eq_ok _ _ _).mp hr
      exact ⟨h1, fun j hj => h2 j (h1 ▸ hj)⟩
    · cases h
  · rintro ⟨h1, h2⟩
    have : (s.buf b).readPrefix n = .ok bs :=
      (Memory.readPrefix_eq_ok _ _ _).mpr ⟨h1, fun j hj => h2 j (h1 ▸ hj)⟩
    rw [this]

theorem State.readBytes_eq_error {s : State} {b : Buffer} {n : Nat} {f : Fault} :
    s.readBytes b n = .error f ↔
      ∃ j, f = .unwrittenByte b j ∧ j < n ∧ (s.buf b).read j = none ∧ ∀ l, l < j → ((s.buf b).read l).isSome = true := by
  unfold State.readBytes
  constructor
  · intro h
    split at h
    · cases h
    · rename_i j hr
      cases h
      exact ⟨j, rfl, (Memory.readPrefix_eq_error _ _ _).mp hr⟩
  · rintro ⟨j, rfl, h⟩
    rw [(Memory.readPrefix_eq_error _ _ _).mpr h]

theorem State.readBytes_of_filled {s : State} {b : Buffer} {n : Nat} (h : (s.buf b).filled n) :
    ∃ bs, s.readBytes b n = .ok bs := by
  obtain ⟨bs, hb⟩ := Memory.readPrefix_of_filled h
  exact ⟨bs, by simp [State.readBytes, hb]⟩

theorem State.readByte_of_filled {s : State} {b : Buffer} {n a : Nat} (h : (s.buf b).filled n) (ha : a < n) :
    ∃ v, s.readByte b a = .ok v := by
  obtain ⟨v, hv⟩ := Option.isSome_iff_exists.mp (h a ha)
  exact ⟨v, State.readByte_eq_ok.mpr hv⟩

/-- `polarity` is the spec's inversion (00_scope.md R7, 30_encoding.md R77). -/
theorem polarity_eq (v : Variant) (b : Byte) : polarity v b = logicalByte v b := by
  cases v <;> simp [polarity, logicalByte]
  all_goals
    apply BitVec.eq_of_getLsbD_eq
    intro i hi
    interval_cases i <;> simp

/-- Inverting twice gives the byte back. -/
@[simp] theorem polarity_polarity (v : Variant) (b : Byte) : polarity v (polarity v b) = b := by
  cases v <;> simp [polarity]

/-- A choice whose first branch gives something is nothing exactly where the condition fails and the rest is nothing. -/
theorem ite_some_eq_none {α : Type} {p : Prop} [Decidable p] {a : α} {o : Option α} :
    (if p then some a else o) = none ↔ ¬p ∧ o = none := by
  by_cases h : p
  · simp [h]
  · simp [h]

theorem sofInstr_eq_none {v : Variant} {b : Byte} : sofInstr v b = none ↔ b ∉ sofValues v := by
  cases v <;> simp only [sofInstr, sofValues, ite_some_eq_none] <;>
    simp [Config.sofBsbDc, Config.sofBsbDe, Config.sofLpb, Config.sofPps17, Config.sofPps1D, Config.sofPps1E]

/-- The variants of the declared length (41_parser.md R119). -/
theorem State.declaredLength_eq_ok {s : State} {e : Nat} : s.declaredLength = .ok e ↔ s.declares e := by
  unfold State.declaredLength State.declares
  cases s.variant with
  | bsb =>
    cases h : s.readByte .rx Config.lenIdxBsb.toNat with
    | ok v =>
      have := State.readByte_eq_ok.mp h
      simp only [State.buf, show Config.lenIdxBsb.toNat = 3 from rfl] at this
      simp [this, eq_comm]
    | error f =>
      have := (State.readByte_eq_error.mp h).1
      simp only [State.buf, show Config.lenIdxBsb.toNat = 3 from rfl] at this
      simp [this]
  | lpb =>
    cases h : s.readByte .rx Config.lenIdxLpb.toNat with
    | ok v =>
      have := State.readByte_eq_ok.mp h
      simp only [State.buf, show Config.lenIdxLpb.toNat = 1 from rfl] at this
      simp [this, eq_comm]
    | error f =>
      have := (State.readByte_eq_error.mp h).1
      simp only [State.buf, show Config.lenIdxLpb.toNat = 1 from rfl] at this
      simp [this]
  | pps => simp [eq_comm]

/-- Everything a backoff draw can answer (10_state.md R43): a value of the range, from the script or free. -/
theorem State.drawBackoff_cases {s u : State} {d : Byte} (hp : s.params.wellFormed = true)
    (h : s.drawBackoff = .ok (d, u)) :
    (s.params.backoffMin.toNat ≤ d.toNat ∧ d.toNat ≤ s.params.backoffMax.toNat) ∧
      ∃ ds c, u = { s with backoffDraws := ds, drawCount := c } := by
  have hmin : s.params.backoffMin.toNat ≤ s.params.backoffMax.toNat := by
    simp only [Params.wellFormed, Params.backoffOk, Bool.and_eq_true, decide_eq_true_eq] at hp
    exact hp.1.2
  unfold State.drawBackoff at h
  split at h
  · split_ifs at h with hr
    cases h
    exact ⟨hr, _, _, rfl⟩
  · split at h
    · cases h
      exact ⟨⟨le_refl _, hmin⟩, _, _, rfl⟩
    · cases h
      refine ⟨?_, _, _, rfl⟩
      have hlt := Nat.mod_lt (Config.freeBackoff s.drawCount)
        (show 0 < s.params.backoffMax.toNat - s.params.backoffMin.toNat + 1 by omega)
      have hmax := s.params.backoffMax.isLt
      rw [BitVec.toNat_add, BitVec.toNat_ofNat]
      omega

/-- Everything an accept draw can answer (10_state.md R39, R43): 0 or 1. -/
theorem State.drawAccept_cases {s u : State} {acc : Nat} (h : s.drawAccept = .ok (acc, u)) :
    acc ≤ 1 ∧ ∃ ds c, u = { s with acceptDraws := ds, drawCount := c } := by
  unfold State.drawAccept at h
  split at h
  · cases h
    exact ⟨le_refl _, _, _, rfl⟩
  · split at h
    · split_ifs at h with hv
      cases h
      exact ⟨hv, _, _, rfl⟩
    · split at h
      · cases h
        exact ⟨le_refl _, _, _, rfl⟩
      · cases h
        exact ⟨by split <;> omega, _, _, rfl⟩

/-- Everything a busy sample can change (10_state.md R40): the queue of draws. -/
theorem State.drawBusy_cases (s : State) : ∃ ds, s.drawBusy.2 = { s with busyDraws := ds } := by
  unfold State.drawBusy
  split
  · exact ⟨_, rfl⟩
  · exact ⟨_, rfl⟩

/-- Everything a PPS length draw can answer (41_parser.md R114): 8 or 9. -/
theorem State.drawPpsLi_cases {s u : State} {li : Byte} (h : s.drawPpsLi = .ok (li, u)) :
    (li = 8 ∨ li = 9) ∧ ∃ ds c, u = { s with ppsLiDraws := ds, drawCount := c } := by
  unfold State.drawPpsLi at h
  split at h
  · split_ifs at h with hv
    cases h
    exact ⟨hv, _, _, rfl⟩
  · split at h
    · cases h
      exact ⟨.inl rfl, _, _, rfl⟩
    · cases h
      refine ⟨?_, _, _, rfl⟩
      split
      · exact .inl rfl
      · exact .inr rfl

@[simp] theorem State.setCount_receiveConfigured (s : State) (c : Byte) :
    (s.setCount c).receiveConfigured = s.receiveConfigured := rfl

@[simp] theorem State.buf_tx (s : State) : s.buf .tx = s.txbuf := rfl

@[simp] theorem State.buf_rx (s : State) : s.buf .rx = s.rxbuf := rfl

/-- Under the defaults an unscripted backoff is `BACKOFF_MIN_MS` (10_state.md R43). -/
theorem State.drawBackoff_simulator {s : State} (hu : s.unscripted = .simulator) (hd : s.backoffDraws = []) :
    s.drawBackoff = .ok (s.params.backoffMin, s) := by
  simp [State.drawBackoff, hu, hd]

/-- Under the defaults an unscripted offer is accepted (10_state.md R43). -/
theorem State.drawAccept_simulator {s : State} (hu : s.unscripted = .simulator) (hd : s.acceptDraws = []) :
    s.drawAccept = .ok (1, s) := by
  simp [State.drawAccept, hu, hd]

/-- Under the defaults an unscripted PPS length draw is 8 (10_state.md R43). -/
theorem State.drawPpsLi_simulator {s : State} (hu : s.unscripted = .simulator) (hd : s.ppsLiDraws = []) :
    s.drawPpsLi = .ok (8, s) := by
  simp [State.drawPpsLi, hu, hd, Config.ppsAfterShortLenIdx]

end Sys2Proof.Machine
end

