-- ==== Sys2Proof/Laws/State.lean ====
section
/-! SUPPORT. One lemma per field per named update of State, each true by rfl, so that no later proof unfolds a record
update. -/

namespace Sys2Proof.Machine

section
variable (s : State)

@[simp] theorem State.goto_params (p : Phase) : (s.goto p).params = s.params := rfl
@[simp] theorem State.goto_variant (p : Phase) : (s.goto p).variant = s.variant := rfl
@[simp] theorem State.goto_own (p : Phase) : (s.goto p).own = s.own := rfl
@[simp] theorem State.goto_dest (p : Phase) : (s.goto p).dest = s.dest := rfl
@[simp] theorem State.goto_validV (p : Phase) : (s.goto p).validV = s.validV := rfl
@[simp] theorem State.goto_validO (p : Phase) : (s.goto p).validO = s.validO := rfl
@[simp] theorem State.goto_validD (p : Phase) : (s.goto p).validD = s.validD := rfl
@[simp] theorem State.goto_lenIdx (p : Phase) : (s.goto p).lenIdx = s.lenIdx := rfl
@[simp] theorem State.goto_ppsOvrPend (p : Phase) : (s.goto p).ppsOvrPend = s.ppsOvrPend := rfl
@[simp] theorem State.goto_txbuf (p : Phase) : (s.goto p).txbuf = s.txbuf := rfl
@[simp] theorem State.goto_rxbuf (p : Phase) : (s.goto p).rxbuf = s.rxbuf := rfl
@[simp] theorem State.goto_done (p : Phase) : (s.goto p).done = s.done := rfl
@[simp] theorem State.goto_ok (p : Phase) : (s.goto p).ok = s.ok := rfl
@[simp] theorem State.goto_err (p : Phase) : (s.goto p).err = s.err := rfl
@[simp] theorem State.goto_rxlen (p : Phase) : (s.goto p).rxlen = s.rxlen := rfl
@[simp] theorem State.goto_cksum (p : Phase) : (s.goto p).cksum = s.cksum := rfl
@[simp] theorem State.goto_arg (p : Phase) : (s.goto p).arg = s.arg := rfl
@[simp] theorem State.goto_newVariant (p : Phase) : (s.goto p).newVariant = s.newVariant := rfl
@[simp] theorem State.goto_newOwn (p : Phase) : (s.goto p).newOwn = s.newOwn := rfl
@[simp] theorem State.goto_newDest (p : Phase) : (s.goto p).newDest = s.newDest := rfl
@[simp] theorem State.goto_phase (p : Phase) : (s.goto p).phase = p := rfl
@[simp] theorem State.goto_cmd (p : Phase) : (s.goto p).cmd = s.cmd := rfl
@[simp] theorem State.goto_n (p : Phase) : (s.goto p).n = s.n := rfl
@[simp] theorem State.goto_i (p : Phase) : (s.goto p).i = s.i := rfl
@[simp] theorem State.goto_li (p : Phase) : (s.goto p).li = s.li := rfl
@[simp] theorem State.goto_declLen (p : Phase) : (s.goto p).declLen = s.declLen := rfl
@[simp] theorem State.goto_sendLen (p : Phase) : (s.goto p).sendLen = s.sendLen := rfl
@[simp] theorem State.goto_k (p : Phase) : (s.goto p).k = s.k := rfl
@[simp] theorem State.goto_t0 (p : Phase) : (s.goto p).t0 = s.t0 := rfl
@[simp] theorem State.goto_wstart (p : Phase) : (s.goto p).wstart = s.wstart := rfl
@[simp] theorem State.goto_d (p : Phase) : (s.goto p).d = s.d := rfl
@[simp] theorem State.goto_timeout (p : Phase) : (s.goto p).timeout = s.timeout := rfl
@[simp] theorem State.goto_csActive (p : Phase) : (s.goto p).csActive = s.csActive := rfl
@[simp] theorem State.goto_rxPop (p : Phase) : (s.goto p).rxPop = s.rxPop := rfl
@[simp] theorem State.goto_txStrobe (p : Phase) : (s.goto p).txStrobe = s.txStrobe := rfl
@[simp] theorem State.goto_txData (p : Phase) : (s.goto p).txData = s.txData := rfl
@[simp] theorem State.goto_rxq (p : Phase) : (s.goto p).rxq = s.rxq := rfl
@[simp] theorem State.goto_csHeld (p : Phase) : (s.goto p).csHeld = s.csHeld := rfl
@[simp] theorem State.goto_lineBusy (p : Phase) : (s.goto p).lineBusy = s.lineBusy := rfl
@[simp] theorem State.goto_ms (p : Phase) : (s.goto p).ms = s.ms := rfl
@[simp] theorem State.goto_offered (p : Phase) : (s.goto p).offered = s.offered := rfl
@[simp] theorem State.goto_hostData (p : Phase) : (s.goto p).hostData = s.hostData := rfl
@[simp] theorem State.goto_agenda (p : Phase) : (s.goto p).agenda = s.agenda := rfl
@[simp] theorem State.goto_backoffDraws (p : Phase) : (s.goto p).backoffDraws = s.backoffDraws := rfl
@[simp] theorem State.goto_acceptDraws (p : Phase) : (s.goto p).acceptDraws = s.acceptDraws := rfl
@[simp] theorem State.goto_busyDraws (p : Phase) : (s.goto p).busyDraws = s.busyDraws := rfl
@[simp] theorem State.goto_ppsLiDraws (p : Phase) : (s.goto p).ppsLiDraws = s.ppsLiDraws := rfl
@[simp] theorem State.goto_unscripted (p : Phase) : (s.goto p).unscripted = s.unscripted := rfl
@[simp] theorem State.goto_drawCount (p : Phase) : (s.goto p).drawCount = s.drawCount := rfl

@[simp] theorem State.finishOk_params : s.finishOk.params = s.params := rfl
@[simp] theorem State.finishOk_variant : s.finishOk.variant = s.variant := rfl
@[simp] theorem State.finishOk_own : s.finishOk.own = s.own := rfl
@[simp] theorem State.finishOk_dest : s.finishOk.dest = s.dest := rfl
@[simp] theorem State.finishOk_validV : s.finishOk.validV = s.validV := rfl
@[simp] theorem State.finishOk_validO : s.finishOk.validO = s.validO := rfl
@[simp] theorem State.finishOk_validD : s.finishOk.validD = s.validD := rfl
@[simp] theorem State.finishOk_lenIdx : s.finishOk.lenIdx = s.lenIdx := rfl
@[simp] theorem State.finishOk_ppsOvrPend : s.finishOk.ppsOvrPend = s.ppsOvrPend := rfl
@[simp] theorem State.finishOk_txbuf : s.finishOk.txbuf = s.txbuf := rfl
@[simp] theorem State.finishOk_rxbuf : s.finishOk.rxbuf = s.rxbuf := rfl
@[simp] theorem State.finishOk_done : s.finishOk.done = true := rfl
@[simp] theorem State.finishOk_ok : s.finishOk.ok = true := rfl
@[simp] theorem State.finishOk_err : s.finishOk.err = .none := rfl
@[simp] theorem State.finishOk_rxlen : s.finishOk.rxlen = s.finishRxlen := rfl
@[simp] theorem State.finishOk_cksum : s.finishOk.cksum = s.cksum := rfl
@[simp] theorem State.finishOk_arg : s.finishOk.arg = s.arg := rfl
@[simp] theorem State.finishOk_newVariant : s.finishOk.newVariant = s.newVariant := rfl
@[simp] theorem State.finishOk_newOwn : s.finishOk.newOwn = s.newOwn := rfl
@[simp] theorem State.finishOk_newDest : s.finishOk.newDest = s.newDest := rfl
@[simp] theorem State.finishOk_phase : s.finishOk.phase = .idle := rfl
@[simp] theorem State.finishOk_cmd : s.finishOk.cmd = s.cmd := rfl
@[simp] theorem State.finishOk_n : s.finishOk.n = s.n := rfl
@[simp] theorem State.finishOk_i : s.finishOk.i = s.i := rfl
@[simp] theorem State.finishOk_li : s.finishOk.li = s.li := rfl
@[simp] theorem State.finishOk_declLen : s.finishOk.declLen = s.declLen := rfl
@[simp] theorem State.finishOk_sendLen : s.finishOk.sendLen = s.sendLen := rfl
@[simp] theorem State.finishOk_k : s.finishOk.k = s.k := rfl
@[simp] theorem State.finishOk_t0 : s.finishOk.t0 = s.t0 := rfl
@[simp] theorem State.finishOk_wstart : s.finishOk.wstart = s.wstart := rfl
@[simp] theorem State.finishOk_d : s.finishOk.d = s.d := rfl
@[simp] theorem State.finishOk_timeout : s.finishOk.timeout = s.timeout := rfl
@[simp] theorem State.finishOk_csActive : s.finishOk.csActive = s.csActive := rfl
@[simp] theorem State.finishOk_rxPop : s.finishOk.rxPop = s.rxPop := rfl
@[simp] theorem State.finishOk_txStrobe : s.finishOk.txStrobe = s.txStrobe := rfl
@[simp] theorem State.finishOk_txData : s.finishOk.txData = s.txData := rfl
@[simp] theorem State.finishOk_rxq : s.finishOk.rxq = s.rxq := rfl
@[simp] theorem State.finishOk_csHeld : s.finishOk.csHeld = s.csHeld := rfl
@[simp] theorem State.finishOk_lineBusy : s.finishOk.lineBusy = s.lineBusy := rfl
@[simp] theorem State.finishOk_ms : s.finishOk.ms = s.ms := rfl
@[simp] theorem State.finishOk_offered : s.finishOk.offered = s.offered := rfl
@[simp] theorem State.finishOk_hostData : s.finishOk.hostData = s.hostData := rfl
@[simp] theorem State.finishOk_agenda : s.finishOk.agenda = s.agenda := rfl
@[simp] theorem State.finishOk_backoffDraws : s.finishOk.backoffDraws = s.backoffDraws := rfl
@[simp] theorem State.finishOk_acceptDraws : s.finishOk.acceptDraws = s.acceptDraws := rfl
@[simp] theorem State.finishOk_busyDraws : s.finishOk.busyDraws = s.busyDraws := rfl
@[simp] theorem State.finishOk_ppsLiDraws : s.finishOk.ppsLiDraws = s.ppsLiDraws := rfl
@[simp] theorem State.finishOk_unscripted : s.finishOk.unscripted = s.unscripted := rfl
@[simp] theorem State.finishOk_drawCount : s.finishOk.drawCount = s.drawCount := rfl

@[simp] theorem State.raiseErr_params (e : ErrCode) : (s.raiseErr e).params = s.params := rfl
@[simp] theorem State.raiseErr_variant (e : ErrCode) : (s.raiseErr e).variant = s.variant := rfl
@[simp] theorem State.raiseErr_own (e : ErrCode) : (s.raiseErr e).own = s.own := rfl
@[simp] theorem State.raiseErr_dest (e : ErrCode) : (s.raiseErr e).dest = s.dest := rfl
@[simp] theorem State.raiseErr_validV (e : ErrCode) : (s.raiseErr e).validV = s.validV := rfl
@[simp] theorem State.raiseErr_validO (e : ErrCode) : (s.raiseErr e).validO = s.validO := rfl
@[simp] theorem State.raiseErr_validD (e : ErrCode) : (s.raiseErr e).validD = s.validD := rfl
@[simp] theorem State.raiseErr_lenIdx (e : ErrCode) : (s.raiseErr e).lenIdx = s.lenIdx := rfl
@[simp] theorem State.raiseErr_ppsOvrPend (e : ErrCode) : (s.raiseErr e).ppsOvrPend = s.ppsOvrPend := rfl
@[simp] theorem State.raiseErr_txbuf (e : ErrCode) : (s.raiseErr e).txbuf = s.txbuf := rfl
@[simp] theorem State.raiseErr_rxbuf (e : ErrCode) : (s.raiseErr e).rxbuf = s.rxbuf := rfl
@[simp] theorem State.raiseErr_done (e : ErrCode) : (s.raiseErr e).done = true := rfl
@[simp] theorem State.raiseErr_ok (e : ErrCode) : (s.raiseErr e).ok = false := rfl
@[simp] theorem State.raiseErr_err (e : ErrCode) : (s.raiseErr e).err = e := rfl
@[simp] theorem State.raiseErr_rxlen (e : ErrCode) : (s.raiseErr e).rxlen = s.finishRxlen := rfl
@[simp] theorem State.raiseErr_cksum (e : ErrCode) : (s.raiseErr e).cksum = s.cksum := rfl
@[simp] theorem State.raiseErr_arg (e : ErrCode) : (s.raiseErr e).arg = s.arg := rfl
@[simp] theorem State.raiseErr_newVariant (e : ErrCode) : (s.raiseErr e).newVariant = s.newVariant := rfl
@[simp] theorem State.raiseErr_newOwn (e : ErrCode) : (s.raiseErr e).newOwn = s.newOwn := rfl
@[simp] theorem State.raiseErr_newDest (e : ErrCode) : (s.raiseErr e).newDest = s.newDest := rfl
@[simp] theorem State.raiseErr_phase (e : ErrCode) : (s.raiseErr e).phase = .idle := rfl
@[simp] theorem State.raiseErr_cmd (e : ErrCode) : (s.raiseErr e).cmd = s.cmd := rfl
@[simp] theorem State.raiseErr_n (e : ErrCode) : (s.raiseErr e).n = s.n := rfl
@[simp] theorem State.raiseErr_i (e : ErrCode) : (s.raiseErr e).i = s.i := rfl
@[simp] theorem State.raiseErr_li (e : ErrCode) : (s.raiseErr e).li = s.li := rfl
@[simp] theorem State.raiseErr_declLen (e : ErrCode) : (s.raiseErr e).declLen = s.declLen := rfl
@[simp] theorem State.raiseErr_sendLen (e : ErrCode) : (s.raiseErr e).sendLen = s.sendLen := rfl
@[simp] theorem State.raiseErr_k (e : ErrCode) : (s.raiseErr e).k = s.k := rfl
@[simp] theorem State.raiseErr_t0 (e : ErrCode) : (s.raiseErr e).t0 = s.t0 := rfl
@[simp] theorem State.raiseErr_wstart (e : ErrCode) : (s.raiseErr e).wstart = s.wstart := rfl
@[simp] theorem State.raiseErr_d (e : ErrCode) : (s.raiseErr e).d = s.d := rfl
@[simp] theorem State.raiseErr_timeout (e : ErrCode) : (s.raiseErr e).timeout = s.timeout := rfl
@[simp] theorem State.raiseErr_csActive (e : ErrCode) : (s.raiseErr e).csActive = s.csActive := rfl
@[simp] theorem State.raiseErr_rxPop (e : ErrCode) : (s.raiseErr e).rxPop = s.rxPop := rfl
@[simp] theorem State.raiseErr_txStrobe (e : ErrCode) : (s.raiseErr e).txStrobe = s.txStrobe := rfl
@[simp] theorem State.raiseErr_txData (e : ErrCode) : (s.raiseErr e).txData = s.txData := rfl
@[simp] theorem State.raiseErr_rxq (e : ErrCode) : (s.raiseErr e).rxq = s.rxq := rfl
@[simp] theorem State.raiseErr_csHeld (e : ErrCode) : (s.raiseErr e).csHeld = s.csHeld := rfl
@[simp] theorem State.raiseErr_lineBusy (e : ErrCode) : (s.raiseErr e).lineBusy = s.lineBusy := rfl
@[simp] theorem State.raiseErr_ms (e : ErrCode) : (s.raiseErr e).ms = s.ms := rfl
@[simp] theorem State.raiseErr_offered (e : ErrCode) : (s.raiseErr e).offered = s.offered := rfl
@[simp] theorem State.raiseErr_hostData (e : ErrCode) : (s.raiseErr e).hostData = s.hostData := rfl
@[simp] theorem State.raiseErr_agenda (e : ErrCode) : (s.raiseErr e).agenda = s.agenda := rfl
@[simp] theorem State.raiseErr_backoffDraws (e : ErrCode) : (s.raiseErr e).backoffDraws = s.backoffDraws := rfl
@[simp] theorem State.raiseErr_acceptDraws (e : ErrCode) : (s.raiseErr e).acceptDraws = s.acceptDraws := rfl
@[simp] theorem State.raiseErr_busyDraws (e : ErrCode) : (s.raiseErr e).busyDraws = s.busyDraws := rfl
@[simp] theorem State.raiseErr_ppsLiDraws (e : ErrCode) : (s.raiseErr e).ppsLiDraws = s.ppsLiDraws := rfl
@[simp] theorem State.raiseErr_unscripted (e : ErrCode) : (s.raiseErr e).unscripted = s.unscripted := rfl
@[simp] theorem State.raiseErr_drawCount (e : ErrCode) : (s.raiseErr e).drawCount = s.drawCount := rfl

@[simp] theorem State.setTx_params (a : Nat) (v : Byte) : (s.setTx a v).params = s.params := rfl
@[simp] theorem State.setTx_variant (a : Nat) (v : Byte) : (s.setTx a v).variant = s.variant := rfl
@[simp] theorem State.setTx_own (a : Nat) (v : Byte) : (s.setTx a v).own = s.own := rfl
@[simp] theorem State.setTx_dest (a : Nat) (v : Byte) : (s.setTx a v).dest = s.dest := rfl
@[simp] theorem State.setTx_validV (a : Nat) (v : Byte) : (s.setTx a v).validV = s.validV := rfl
@[simp] theorem State.setTx_validO (a : Nat) (v : Byte) : (s.setTx a v).validO = s.validO := rfl
@[simp] theorem State.setTx_validD (a : Nat) (v : Byte) : (s.setTx a v).validD = s.validD := rfl
@[simp] theorem State.setTx_lenIdx (a : Nat) (v : Byte) : (s.setTx a v).lenIdx = s.lenIdx := rfl
@[simp] theorem State.setTx_ppsOvrPend (a : Nat) (v : Byte) : (s.setTx a v).ppsOvrPend = s.ppsOvrPend := rfl
@[simp] theorem State.setTx_txbuf (a : Nat) (v : Byte) : (s.setTx a v).txbuf = s.txbuf.write a v := rfl
@[simp] theorem State.setTx_rxbuf (a : Nat) (v : Byte) : (s.setTx a v).rxbuf = s.rxbuf := rfl
@[simp] theorem State.setTx_done (a : Nat) (v : Byte) : (s.setTx a v).done = s.done := rfl
@[simp] theorem State.setTx_ok (a : Nat) (v : Byte) : (s.setTx a v).ok = s.ok := rfl
@[simp] theorem State.setTx_err (a : Nat) (v : Byte) : (s.setTx a v).err = s.err := rfl
@[simp] theorem State.setTx_rxlen (a : Nat) (v : Byte) : (s.setTx a v).rxlen = s.rxlen := rfl
@[simp] theorem State.setTx_cksum (a : Nat) (v : Byte) : (s.setTx a v).cksum = s.cksum := rfl
@[simp] theorem State.setTx_arg (a : Nat) (v : Byte) : (s.setTx a v).arg = s.arg := rfl
@[simp] theorem State.setTx_newVariant (a : Nat) (v : Byte) : (s.setTx a v).newVariant = s.newVariant := rfl
@[simp] theorem State.setTx_newOwn (a : Nat) (v : Byte) : (s.setTx a v).newOwn = s.newOwn := rfl
@[simp] theorem State.setTx_newDest (a : Nat) (v : Byte) : (s.setTx a v).newDest = s.newDest := rfl
@[simp] theorem State.setTx_phase (a : Nat) (v : Byte) : (s.setTx a v).phase = s.phase := rfl
@[simp] theorem State.setTx_cmd (a : Nat) (v : Byte) : (s.setTx a v).cmd = s.cmd := rfl
@[simp] theorem State.setTx_n (a : Nat) (v : Byte) : (s.setTx a v).n = s.n := rfl
@[simp] theorem State.setTx_i (a : Nat) (v : Byte) : (s.setTx a v).i = s.i := rfl
@[simp] theorem State.setTx_li (a : Nat) (v : Byte) : (s.setTx a v).li = s.li := rfl
@[simp] theorem State.setTx_declLen (a : Nat) (v : Byte) : (s.setTx a v).declLen = s.declLen := rfl
@[simp] theorem State.setTx_sendLen (a : Nat) (v : Byte) : (s.setTx a v).sendLen = s.sendLen := rfl
@[simp] theorem State.setTx_k (a : Nat) (v : Byte) : (s.setTx a v).k = s.k := rfl
@[simp] theorem State.setTx_t0 (a : Nat) (v : Byte) : (s.setTx a v).t0 = s.t0 := rfl
@[simp] theorem State.setTx_wstart (a : Nat) (v : Byte) : (s.setTx a v).wstart = s.wstart := rfl
@[simp] theorem State.setTx_d (a : Nat) (v : Byte) : (s.setTx a v).d = s.d := rfl
@[simp] theorem State.setTx_timeout (a : Nat) (v : Byte) : (s.setTx a v).timeout = s.timeout := rfl
@[simp] theorem State.setTx_csActive (a : Nat) (v : Byte) : (s.setTx a v).csActive = s.csActive := rfl
@[simp] theorem State.setTx_rxPop (a : Nat) (v : Byte) : (s.setTx a v).rxPop = s.rxPop := rfl
@[simp] theorem State.setTx_txStrobe (a : Nat) (v : Byte) : (s.setTx a v).txStrobe = s.txStrobe := rfl
@[simp] theorem State.setTx_txData (a : Nat) (v : Byte) : (s.setTx a v).txData = s.txData := rfl
@[simp] theorem State.setTx_rxq (a : Nat) (v : Byte) : (s.setTx a v).rxq = s.rxq := rfl
@[simp] theorem State.setTx_csHeld (a : Nat) (v : Byte) : (s.setTx a v).csHeld = s.csHeld := rfl
@[simp] theorem State.setTx_lineBusy (a : Nat) (v : Byte) : (s.setTx a v).lineBusy = s.lineBusy := rfl
@[simp] theorem State.setTx_ms (a : Nat) (v : Byte) : (s.setTx a v).ms = s.ms := rfl
@[simp] theorem State.setTx_offered (a : Nat) (v : Byte) : (s.setTx a v).offered = s.offered := rfl
@[simp] theorem State.setTx_hostData (a : Nat) (v : Byte) : (s.setTx a v).hostData = s.hostData := rfl
@[simp] theorem State.setTx_agenda (a : Nat) (v : Byte) : (s.setTx a v).agenda = s.agenda := rfl
@[simp] theorem State.setTx_backoffDraws (a : Nat) (v : Byte) : (s.setTx a v).backoffDraws = s.backoffDraws := rfl
@[simp] theorem State.setTx_acceptDraws (a : Nat) (v : Byte) : (s.setTx a v).acceptDraws = s.acceptDraws := rfl
@[simp] theorem State.setTx_busyDraws (a : Nat) (v : Byte) : (s.setTx a v).busyDraws = s.busyDraws := rfl
@[simp] theorem State.setTx_ppsLiDraws (a : Nat) (v : Byte) : (s.setTx a v).ppsLiDraws = s.ppsLiDraws := rfl
@[simp] theorem State.setTx_unscripted (a : Nat) (v : Byte) : (s.setTx a v).unscripted = s.unscripted := rfl
@[simp] theorem State.setTx_drawCount (a : Nat) (v : Byte) : (s.setTx a v).drawCount = s.drawCount := rfl

@[simp] theorem State.setRx_params (a : Nat) (v : Byte) : (s.setRx a v).params = s.params := rfl
@[simp] theorem State.setRx_variant (a : Nat) (v : Byte) : (s.setRx a v).variant = s.variant := rfl
@[simp] theorem State.setRx_own (a : Nat) (v : Byte) : (s.setRx a v).own = s.own := rfl
@[simp] theorem State.setRx_dest (a : Nat) (v : Byte) : (s.setRx a v).dest = s.dest := rfl
@[simp] theorem State.setRx_validV (a : Nat) (v : Byte) : (s.setRx a v).validV = s.validV := rfl
@[simp] theorem State.setRx_validO (a : Nat) (v : Byte) : (s.setRx a v).validO = s.validO := rfl
@[simp] theorem State.setRx_validD (a : Nat) (v : Byte) : (s.setRx a v).validD = s.validD := rfl
@[simp] theorem State.setRx_lenIdx (a : Nat) (v : Byte) : (s.setRx a v).lenIdx = s.lenIdx := rfl
@[simp] theorem State.setRx_ppsOvrPend (a : Nat) (v : Byte) : (s.setRx a v).ppsOvrPend = s.ppsOvrPend := rfl
@[simp] theorem State.setRx_txbuf (a : Nat) (v : Byte) : (s.setRx a v).txbuf = s.txbuf := rfl
@[simp] theorem State.setRx_rxbuf (a : Nat) (v : Byte) : (s.setRx a v).rxbuf = s.rxbuf.write a v := rfl
@[simp] theorem State.setRx_done (a : Nat) (v : Byte) : (s.setRx a v).done = s.done := rfl
@[simp] theorem State.setRx_ok (a : Nat) (v : Byte) : (s.setRx a v).ok = s.ok := rfl
@[simp] theorem State.setRx_err (a : Nat) (v : Byte) : (s.setRx a v).err = s.err := rfl
@[simp] theorem State.setRx_rxlen (a : Nat) (v : Byte) : (s.setRx a v).rxlen = s.rxlen := rfl
@[simp] theorem State.setRx_cksum (a : Nat) (v : Byte) : (s.setRx a v).cksum = s.cksum := rfl
@[simp] theorem State.setRx_arg (a : Nat) (v : Byte) : (s.setRx a v).arg = s.arg := rfl
@[simp] theorem State.setRx_newVariant (a : Nat) (v : Byte) : (s.setRx a v).newVariant = s.newVariant := rfl
@[simp] theorem State.setRx_newOwn (a : Nat) (v : Byte) : (s.setRx a v).newOwn = s.newOwn := rfl
@[simp] theorem State.setRx_newDest (a : Nat) (v : Byte) : (s.setRx a v).newDest = s.newDest := rfl
@[simp] theorem State.setRx_phase (a : Nat) (v : Byte) : (s.setRx a v).phase = s.phase := rfl
@[simp] theorem State.setRx_cmd (a : Nat) (v : Byte) : (s.setRx a v).cmd = s.cmd := rfl
@[simp] theorem State.setRx_n (a : Nat) (v : Byte) : (s.setRx a v).n = s.n := rfl
@[simp] theorem State.setRx_i (a : Nat) (v : Byte) : (s.setRx a v).i = s.i := rfl
@[simp] theorem State.setRx_li (a : Nat) (v : Byte) : (s.setRx a v).li = s.li := rfl
@[simp] theorem State.setRx_declLen (a : Nat) (v : Byte) : (s.setRx a v).declLen = s.declLen := rfl
@[simp] theorem State.setRx_sendLen (a : Nat) (v : Byte) : (s.setRx a v).sendLen = s.sendLen := rfl
@[simp] theorem State.setRx_k (a : Nat) (v : Byte) : (s.setRx a v).k = s.k := rfl
@[simp] theorem State.setRx_t0 (a : Nat) (v : Byte) : (s.setRx a v).t0 = s.t0 := rfl
@[simp] theorem State.setRx_wstart (a : Nat) (v : Byte) : (s.setRx a v).wstart = s.wstart := rfl
@[simp] theorem State.setRx_d (a : Nat) (v : Byte) : (s.setRx a v).d = s.d := rfl
@[simp] theorem State.setRx_timeout (a : Nat) (v : Byte) : (s.setRx a v).timeout = s.timeout := rfl
@[simp] theorem State.setRx_csActive (a : Nat) (v : Byte) : (s.setRx a v).csActive = s.csActive := rfl
@[simp] theorem State.setRx_rxPop (a : Nat) (v : Byte) : (s.setRx a v).rxPop = s.rxPop := rfl
@[simp] theorem State.setRx_txStrobe (a : Nat) (v : Byte) : (s.setRx a v).txStrobe = s.txStrobe := rfl
@[simp] theorem State.setRx_txData (a : Nat) (v : Byte) : (s.setRx a v).txData = s.txData := rfl
@[simp] theorem State.setRx_rxq (a : Nat) (v : Byte) : (s.setRx a v).rxq = s.rxq := rfl
@[simp] theorem State.setRx_csHeld (a : Nat) (v : Byte) : (s.setRx a v).csHeld = s.csHeld := rfl
@[simp] theorem State.setRx_lineBusy (a : Nat) (v : Byte) : (s.setRx a v).lineBusy = s.lineBusy := rfl
@[simp] theorem State.setRx_ms (a : Nat) (v : Byte) : (s.setRx a v).ms = s.ms := rfl
@[simp] theorem State.setRx_offered (a : Nat) (v : Byte) : (s.setRx a v).offered = s.offered := rfl
@[simp] theorem State.setRx_hostData (a : Nat) (v : Byte) : (s.setRx a v).hostData = s.hostData := rfl
@[simp] theorem State.setRx_agenda (a : Nat) (v : Byte) : (s.setRx a v).agenda = s.agenda := rfl
@[simp] theorem State.setRx_backoffDraws (a : Nat) (v : Byte) : (s.setRx a v).backoffDraws = s.backoffDraws := rfl
@[simp] theorem State.setRx_acceptDraws (a : Nat) (v : Byte) : (s.setRx a v).acceptDraws = s.acceptDraws := rfl
@[simp] theorem State.setRx_busyDraws (a : Nat) (v : Byte) : (s.setRx a v).busyDraws = s.busyDraws := rfl
@[simp] theorem State.setRx_ppsLiDraws (a : Nat) (v : Byte) : (s.setRx a v).ppsLiDraws = s.ppsLiDraws := rfl
@[simp] theorem State.setRx_unscripted (a : Nat) (v : Byte) : (s.setRx a v).unscripted = s.unscripted := rfl
@[simp] theorem State.setRx_drawCount (a : Nat) (v : Byte) : (s.setRx a v).drawCount = s.drawCount := rfl

@[simp] theorem State.popRx_params : s.popRx.params = s.params := rfl
@[simp] theorem State.popRx_variant : s.popRx.variant = s.variant := rfl
@[simp] theorem State.popRx_own : s.popRx.own = s.own := rfl
@[simp] theorem State.popRx_dest : s.popRx.dest = s.dest := rfl
@[simp] theorem State.popRx_validV : s.popRx.validV = s.validV := rfl
@[simp] theorem State.popRx_validO : s.popRx.validO = s.validO := rfl
@[simp] theorem State.popRx_validD : s.popRx.validD = s.validD := rfl
@[simp] theorem State.popRx_lenIdx : s.popRx.lenIdx = s.lenIdx := rfl
@[simp] theorem State.popRx_ppsOvrPend : s.popRx.ppsOvrPend = s.ppsOvrPend := rfl
@[simp] theorem State.popRx_txbuf : s.popRx.txbuf = s.txbuf := rfl
@[simp] theorem State.popRx_rxbuf : s.popRx.rxbuf = s.rxbuf := rfl
@[simp] theorem State.popRx_done : s.popRx.done = s.done := rfl
@[simp] theorem State.popRx_ok : s.popRx.ok = s.ok := rfl
@[simp] theorem State.popRx_err : s.popRx.err = s.err := rfl
@[simp] theorem State.popRx_rxlen : s.popRx.rxlen = s.rxlen := rfl
@[simp] theorem State.popRx_cksum : s.popRx.cksum = s.cksum := rfl
@[simp] theorem State.popRx_arg : s.popRx.arg = s.arg := rfl
@[simp] theorem State.popRx_newVariant : s.popRx.newVariant = s.newVariant := rfl
@[simp] theorem State.popRx_newOwn : s.popRx.newOwn = s.newOwn := rfl
@[simp] theorem State.popRx_newDest : s.popRx.newDest = s.newDest := rfl
@[simp] theorem State.popRx_phase : s.popRx.phase = s.phase := rfl
@[simp] theorem State.popRx_cmd : s.popRx.cmd = s.cmd := rfl
@[simp] theorem State.popRx_n : s.popRx.n = s.n := rfl
@[simp] theorem State.popRx_i : s.popRx.i = s.i := rfl
@[simp] theorem State.popRx_li : s.popRx.li = s.li := rfl
@[simp] theorem State.popRx_declLen : s.popRx.declLen = s.declLen := rfl
@[simp] theorem State.popRx_sendLen : s.popRx.sendLen = s.sendLen := rfl
@[simp] theorem State.popRx_k : s.popRx.k = s.k := rfl
@[simp] theorem State.popRx_t0 : s.popRx.t0 = s.t0 := rfl
@[simp] theorem State.popRx_wstart : s.popRx.wstart = s.wstart := rfl
@[simp] theorem State.popRx_d : s.popRx.d = s.d := rfl
@[simp] theorem State.popRx_timeout : s.popRx.timeout = s.timeout := rfl
@[simp] theorem State.popRx_csActive : s.popRx.csActive = s.csActive := rfl
@[simp] theorem State.popRx_rxPop : s.popRx.rxPop = false := rfl
@[simp] theorem State.popRx_txStrobe : s.popRx.txStrobe = s.txStrobe := rfl
@[simp] theorem State.popRx_txData : s.popRx.txData = s.txData := rfl
@[simp] theorem State.popRx_rxq : s.popRx.rxq = s.rxq.tail := rfl
@[simp] theorem State.popRx_csHeld : s.popRx.csHeld = s.csHeld := rfl
@[simp] theorem State.popRx_lineBusy : s.popRx.lineBusy = s.lineBusy := rfl
@[simp] theorem State.popRx_ms : s.popRx.ms = s.ms := rfl
@[simp] theorem State.popRx_offered : s.popRx.offered = s.offered := rfl
@[simp] theorem State.popRx_hostData : s.popRx.hostData = s.hostData := rfl
@[simp] theorem State.popRx_agenda : s.popRx.agenda = s.agenda := rfl
@[simp] theorem State.popRx_backoffDraws : s.popRx.backoffDraws = s.backoffDraws := rfl
@[simp] theorem State.popRx_acceptDraws : s.popRx.acceptDraws = s.acceptDraws := rfl
@[simp] theorem State.popRx_busyDraws : s.popRx.busyDraws = s.busyDraws := rfl
@[simp] theorem State.popRx_ppsLiDraws : s.popRx.ppsLiDraws = s.ppsLiDraws := rfl
@[simp] theorem State.popRx_unscripted : s.popRx.unscripted = s.unscripted := rfl
@[simp] theorem State.popRx_drawCount : s.popRx.drawCount = s.drawCount := rfl

@[simp] theorem State.csEnter_params : s.csEnter.params = s.params := rfl
@[simp] theorem State.csEnter_variant : s.csEnter.variant = s.variant := rfl
@[simp] theorem State.csEnter_own : s.csEnter.own = s.own := rfl
@[simp] theorem State.csEnter_dest : s.csEnter.dest = s.dest := rfl
@[simp] theorem State.csEnter_validV : s.csEnter.validV = s.validV := rfl
@[simp] theorem State.csEnter_validO : s.csEnter.validO = s.validO := rfl
@[simp] theorem State.csEnter_validD : s.csEnter.validD = s.validD := rfl
@[simp] theorem State.csEnter_lenIdx : s.csEnter.lenIdx = s.lenIdx := rfl
@[simp] theorem State.csEnter_ppsOvrPend : s.csEnter.ppsOvrPend = s.ppsOvrPend := rfl
@[simp] theorem State.csEnter_txbuf : s.csEnter.txbuf = s.txbuf := rfl
@[simp] theorem State.csEnter_rxbuf : s.csEnter.rxbuf = s.rxbuf := rfl
@[simp] theorem State.csEnter_done : s.csEnter.done = s.done := rfl
@[simp] theorem State.csEnter_ok : s.csEnter.ok = s.ok := rfl
@[simp] theorem State.csEnter_err : s.csEnter.err = s.err := rfl
@[simp] theorem State.csEnter_rxlen : s.csEnter.rxlen = s.rxlen := rfl
@[simp] theorem State.csEnter_cksum : s.csEnter.cksum = s.cksum := rfl
@[simp] theorem State.csEnter_arg : s.csEnter.arg = s.arg := rfl
@[simp] theorem State.csEnter_newVariant : s.csEnter.newVariant = s.newVariant := rfl
@[simp] theorem State.csEnter_newOwn : s.csEnter.newOwn = s.newOwn := rfl
@[simp] theorem State.csEnter_newDest : s.csEnter.newDest = s.newDest := rfl
@[simp] theorem State.csEnter_phase : s.csEnter.phase = s.phase := rfl
@[simp] theorem State.csEnter_cmd : s.csEnter.cmd = s.cmd := rfl
@[simp] theorem State.csEnter_n : s.csEnter.n = s.n := rfl
@[simp] theorem State.csEnter_i : s.csEnter.i = s.i := rfl
@[simp] theorem State.csEnter_li : s.csEnter.li = s.li := rfl
@[simp] theorem State.csEnter_declLen : s.csEnter.declLen = s.declLen := rfl
@[simp] theorem State.csEnter_sendLen : s.csEnter.sendLen = s.sendLen := rfl
@[simp] theorem State.csEnter_k : s.csEnter.k = s.k := rfl
@[simp] theorem State.csEnter_t0 : s.csEnter.t0 = s.t0 := rfl
@[simp] theorem State.csEnter_wstart : s.csEnter.wstart = s.wstart := rfl
@[simp] theorem State.csEnter_d : s.csEnter.d = s.d := rfl
@[simp] theorem State.csEnter_timeout : s.csEnter.timeout = s.timeout := rfl
@[simp] theorem State.csEnter_csActive : s.csEnter.csActive = true := rfl
@[simp] theorem State.csEnter_rxPop : s.csEnter.rxPop = s.rxPop := rfl
@[simp] theorem State.csEnter_txStrobe : s.csEnter.txStrobe = s.txStrobe := rfl
@[simp] theorem State.csEnter_txData : s.csEnter.txData = s.txData := rfl
@[simp] theorem State.csEnter_rxq : s.csEnter.rxq = s.rxq := rfl
@[simp] theorem State.csEnter_csHeld : s.csEnter.csHeld = s.csHeld := rfl
@[simp] theorem State.csEnter_lineBusy : s.csEnter.lineBusy = s.lineBusy := rfl
@[simp] theorem State.csEnter_ms : s.csEnter.ms = s.ms := rfl
@[simp] theorem State.csEnter_offered : s.csEnter.offered = s.offered := rfl
@[simp] theorem State.csEnter_hostData : s.csEnter.hostData = s.hostData := rfl
@[simp] theorem State.csEnter_agenda : s.csEnter.agenda = s.agenda := rfl
@[simp] theorem State.csEnter_backoffDraws : s.csEnter.backoffDraws = s.backoffDraws := rfl
@[simp] theorem State.csEnter_acceptDraws : s.csEnter.acceptDraws = s.acceptDraws := rfl
@[simp] theorem State.csEnter_busyDraws : s.csEnter.busyDraws = s.busyDraws := rfl
@[simp] theorem State.csEnter_ppsLiDraws : s.csEnter.ppsLiDraws = s.ppsLiDraws := rfl
@[simp] theorem State.csEnter_unscripted : s.csEnter.unscripted = s.unscripted := rfl
@[simp] theorem State.csEnter_drawCount : s.csEnter.drawCount = s.drawCount := rfl

@[simp] theorem State.csExit_params : s.csExit.params = s.params := rfl
@[simp] theorem State.csExit_variant : s.csExit.variant = s.variant := rfl
@[simp] theorem State.csExit_own : s.csExit.own = s.own := rfl
@[simp] theorem State.csExit_dest : s.csExit.dest = s.dest := rfl
@[simp] theorem State.csExit_validV : s.csExit.validV = s.validV := rfl
@[simp] theorem State.csExit_validO : s.csExit.validO = s.validO := rfl
@[simp] theorem State.csExit_validD : s.csExit.validD = s.validD := rfl
@[simp] theorem State.csExit_lenIdx : s.csExit.lenIdx = s.lenIdx := rfl
@[simp] theorem State.csExit_ppsOvrPend : s.csExit.ppsOvrPend = s.ppsOvrPend := rfl
@[simp] theorem State.csExit_txbuf : s.csExit.txbuf = s.txbuf := rfl
@[simp] theorem State.csExit_rxbuf : s.csExit.rxbuf = s.rxbuf := rfl
@[simp] theorem State.csExit_done : s.csExit.done = s.done := rfl
@[simp] theorem State.csExit_ok : s.csExit.ok = s.ok := rfl
@[simp] theorem State.csExit_err : s.csExit.err = s.err := rfl
@[simp] theorem State.csExit_rxlen : s.csExit.rxlen = s.rxlen := rfl
@[simp] theorem State.csExit_cksum : s.csExit.cksum = s.cksum := rfl
@[simp] theorem State.csExit_arg : s.csExit.arg = s.arg := rfl
@[simp] theorem State.csExit_newVariant : s.csExit.newVariant = s.newVariant := rfl
@[simp] theorem State.csExit_newOwn : s.csExit.newOwn = s.newOwn := rfl
@[simp] theorem State.csExit_newDest : s.csExit.newDest = s.newDest := rfl
@[simp] theorem State.csExit_phase : s.csExit.phase = s.phase := rfl
@[simp] theorem State.csExit_cmd : s.csExit.cmd = s.cmd := rfl
@[simp] theorem State.csExit_n : s.csExit.n = s.n := rfl
@[simp] theorem State.csExit_i : s.csExit.i = s.i := rfl
@[simp] theorem State.csExit_li : s.csExit.li = s.li := rfl
@[simp] theorem State.csExit_declLen : s.csExit.declLen = s.declLen := rfl
@[simp] theorem State.csExit_sendLen : s.csExit.sendLen = s.sendLen := rfl
@[simp] theorem State.csExit_k : s.csExit.k = s.k := rfl
@[simp] theorem State.csExit_t0 : s.csExit.t0 = s.t0 := rfl
@[simp] theorem State.csExit_wstart : s.csExit.wstart = s.wstart := rfl
@[simp] theorem State.csExit_d : s.csExit.d = s.d := rfl
@[simp] theorem State.csExit_timeout : s.csExit.timeout = s.timeout := rfl
@[simp] theorem State.csExit_csActive : s.csExit.csActive = false := rfl
@[simp] theorem State.csExit_rxPop : s.csExit.rxPop = s.rxPop := rfl
@[simp] theorem State.csExit_txStrobe : s.csExit.txStrobe = s.txStrobe := rfl
@[simp] theorem State.csExit_txData : s.csExit.txData = s.txData := rfl
@[simp] theorem State.csExit_rxq : s.csExit.rxq = s.csHeld.foldl (enqueue s.params) s.rxq := rfl
@[simp] theorem State.csExit_csHeld : s.csExit.csHeld = [] := rfl
@[simp] theorem State.csExit_lineBusy : s.csExit.lineBusy = s.lineBusy := rfl
@[simp] theorem State.csExit_ms : s.csExit.ms = s.ms := rfl
@[simp] theorem State.csExit_offered : s.csExit.offered = s.offered := rfl
@[simp] theorem State.csExit_hostData : s.csExit.hostData = s.hostData := rfl
@[simp] theorem State.csExit_agenda : s.csExit.agenda = s.agenda := rfl
@[simp] theorem State.csExit_backoffDraws : s.csExit.backoffDraws = s.backoffDraws := rfl
@[simp] theorem State.csExit_acceptDraws : s.csExit.acceptDraws = s.acceptDraws := rfl
@[simp] theorem State.csExit_busyDraws : s.csExit.busyDraws = s.busyDraws := rfl
@[simp] theorem State.csExit_ppsLiDraws : s.csExit.ppsLiDraws = s.ppsLiDraws := rfl
@[simp] theorem State.csExit_unscripted : s.csExit.unscripted = s.unscripted := rfl
@[simp] theorem State.csExit_drawCount : s.csExit.drawCount = s.drawCount := rfl

@[simp] theorem State.offer_params (w : Byte) (c : Nat) : (s.offer w c).params = s.params := rfl
@[simp] theorem State.offer_variant (w : Byte) (c : Nat) : (s.offer w c).variant = s.variant := rfl
@[simp] theorem State.offer_own (w : Byte) (c : Nat) : (s.offer w c).own = s.own := rfl
@[simp] theorem State.offer_dest (w : Byte) (c : Nat) : (s.offer w c).dest = s.dest := rfl
@[simp] theorem State.offer_validV (w : Byte) (c : Nat) : (s.offer w c).validV = s.validV := rfl
@[simp] theorem State.offer_validO (w : Byte) (c : Nat) : (s.offer w c).validO = s.validO := rfl
@[simp] theorem State.offer_validD (w : Byte) (c : Nat) : (s.offer w c).validD = s.validD := rfl
@[simp] theorem State.offer_lenIdx (w : Byte) (c : Nat) : (s.offer w c).lenIdx = s.lenIdx := rfl
@[simp] theorem State.offer_ppsOvrPend (w : Byte) (c : Nat) : (s.offer w c).ppsOvrPend = s.ppsOvrPend := rfl
@[simp] theorem State.offer_txbuf (w : Byte) (c : Nat) : (s.offer w c).txbuf = s.txbuf := rfl
@[simp] theorem State.offer_rxbuf (w : Byte) (c : Nat) : (s.offer w c).rxbuf = s.rxbuf := rfl
@[simp] theorem State.offer_done (w : Byte) (c : Nat) : (s.offer w c).done = s.done := rfl
@[simp] theorem State.offer_ok (w : Byte) (c : Nat) : (s.offer w c).ok = s.ok := rfl
@[simp] theorem State.offer_err (w : Byte) (c : Nat) : (s.offer w c).err = s.err := rfl
@[simp] theorem State.offer_rxlen (w : Byte) (c : Nat) : (s.offer w c).rxlen = s.rxlen := rfl
@[simp] theorem State.offer_cksum (w : Byte) (c : Nat) : (s.offer w c).cksum = s.cksum := rfl
@[simp] theorem State.offer_arg (w : Byte) (c : Nat) : (s.offer w c).arg = s.arg := rfl
@[simp] theorem State.offer_newVariant (w : Byte) (c : Nat) : (s.offer w c).newVariant = s.newVariant := rfl
@[simp] theorem State.offer_newOwn (w : Byte) (c : Nat) : (s.offer w c).newOwn = s.newOwn := rfl
@[simp] theorem State.offer_newDest (w : Byte) (c : Nat) : (s.offer w c).newDest = s.newDest := rfl
@[simp] theorem State.offer_phase (w : Byte) (c : Nat) : (s.offer w c).phase = s.phase := rfl
@[simp] theorem State.offer_cmd (w : Byte) (c : Nat) : (s.offer w c).cmd = s.cmd := rfl
@[simp] theorem State.offer_n (w : Byte) (c : Nat) : (s.offer w c).n = s.n := rfl
@[simp] theorem State.offer_i (w : Byte) (c : Nat) : (s.offer w c).i = s.i := rfl
@[simp] theorem State.offer_li (w : Byte) (c : Nat) : (s.offer w c).li = s.li := rfl
@[simp] theorem State.offer_declLen (w : Byte) (c : Nat) : (s.offer w c).declLen = s.declLen := rfl
@[simp] theorem State.offer_sendLen (w : Byte) (c : Nat) : (s.offer w c).sendLen = s.sendLen := rfl
@[simp] theorem State.offer_k (w : Byte) (c : Nat) : (s.offer w c).k = s.k := rfl
@[simp] theorem State.offer_t0 (w : Byte) (c : Nat) : (s.offer w c).t0 = s.t0 := rfl
@[simp] theorem State.offer_wstart (w : Byte) (c : Nat) : (s.offer w c).wstart = s.wstart := rfl
@[simp] theorem State.offer_d (w : Byte) (c : Nat) : (s.offer w c).d = s.d := rfl
@[simp] theorem State.offer_timeout (w : Byte) (c : Nat) : (s.offer w c).timeout = s.timeout := rfl
@[simp] theorem State.offer_csActive (w : Byte) (c : Nat) : (s.offer w c).csActive = s.csActive := rfl
@[simp] theorem State.offer_rxPop (w : Byte) (c : Nat) : (s.offer w c).rxPop = s.rxPop := rfl
@[simp] theorem State.offer_txStrobe (w : Byte) (c : Nat) : (s.offer w c).txStrobe = false := rfl
@[simp] theorem State.offer_txData (w : Byte) (c : Nat) : (s.offer w c).txData = w := rfl
@[simp] theorem State.offer_rxq (w : Byte) (c : Nat) : (s.offer w c).rxq = s.rxq := rfl
@[simp] theorem State.offer_csHeld (w : Byte) (c : Nat) : (s.offer w c).csHeld = s.csHeld := rfl
@[simp] theorem State.offer_lineBusy (w : Byte) (c : Nat) : (s.offer w c).lineBusy = s.lineBusy := rfl
@[simp] theorem State.offer_ms (w : Byte) (c : Nat) : (s.offer w c).ms = s.ms := rfl
@[simp] theorem State.offer_offered (w : Byte) (c : Nat) : (s.offer w c).offered = s.offered ++ [{ data := w, accepted := c }] := rfl
@[simp] theorem State.offer_hostData (w : Byte) (c : Nat) : (s.offer w c).hostData = s.hostData := rfl
@[simp] theorem State.offer_agenda (w : Byte) (c : Nat) : (s.offer w c).agenda = s.agenda := rfl
@[simp] theorem State.offer_backoffDraws (w : Byte) (c : Nat) : (s.offer w c).backoffDraws = s.backoffDraws := rfl
@[simp] theorem State.offer_acceptDraws (w : Byte) (c : Nat) : (s.offer w c).acceptDraws = s.acceptDraws := rfl
@[simp] theorem State.offer_busyDraws (w : Byte) (c : Nat) : (s.offer w c).busyDraws = s.busyDraws := rfl
@[simp] theorem State.offer_ppsLiDraws (w : Byte) (c : Nat) : (s.offer w c).ppsLiDraws = s.ppsLiDraws := rfl
@[simp] theorem State.offer_unscripted (w : Byte) (c : Nat) : (s.offer w c).unscripted = s.unscripted := rfl
@[simp] theorem State.offer_drawCount (w : Byte) (c : Nat) : (s.offer w c).drawCount = s.drawCount := rfl

@[simp] theorem State.setCount_params (x : Byte) : (s.setCount x).params = s.params := rfl
@[simp] theorem State.setCount_variant (x : Byte) : (s.setCount x).variant = s.variant := rfl
@[simp] theorem State.setCount_own (x : Byte) : (s.setCount x).own = s.own := rfl
@[simp] theorem State.setCount_dest (x : Byte) : (s.setCount x).dest = s.dest := rfl
@[simp] theorem State.setCount_validV (x : Byte) : (s.setCount x).validV = s.validV := rfl
@[simp] theorem State.setCount_validO (x : Byte) : (s.setCount x).validO = s.validO := rfl
@[simp] theorem State.setCount_validD (x : Byte) : (s.setCount x).validD = s.validD := rfl
@[simp] theorem State.setCount_lenIdx (x : Byte) : (s.setCount x).lenIdx = s.lenIdx := rfl
@[simp] theorem State.setCount_ppsOvrPend (x : Byte) : (s.setCount x).ppsOvrPend = s.ppsOvrPend := rfl
@[simp] theorem State.setCount_txbuf (x : Byte) : (s.setCount x).txbuf = s.txbuf := rfl
@[simp] theorem State.setCount_rxbuf (x : Byte) : (s.setCount x).rxbuf = s.rxbuf := rfl
@[simp] theorem State.setCount_done (x : Byte) : (s.setCount x).done = s.done := rfl
@[simp] theorem State.setCount_ok (x : Byte) : (s.setCount x).ok = s.ok := rfl
@[simp] theorem State.setCount_err (x : Byte) : (s.setCount x).err = s.err := rfl
@[simp] theorem State.setCount_rxlen (x : Byte) : (s.setCount x).rxlen = s.rxlen := rfl
@[simp] theorem State.setCount_cksum (x : Byte) : (s.setCount x).cksum = s.cksum := rfl
@[simp] theorem State.setCount_arg (x : Byte) : (s.setCount x).arg = s.arg := rfl
@[simp] theorem State.setCount_newVariant (x : Byte) : (s.setCount x).newVariant = s.newVariant := rfl
@[simp] theorem State.setCount_newOwn (x : Byte) : (s.setCount x).newOwn = s.newOwn := rfl
@[simp] theorem State.setCount_newDest (x : Byte) : (s.setCount x).newDest = s.newDest := rfl
@[simp] theorem State.setCount_phase (x : Byte) : (s.setCount x).phase = s.phase := rfl
@[simp] theorem State.setCount_cmd (x : Byte) : (s.setCount x).cmd = s.cmd := rfl
@[simp] theorem State.setCount_n (x : Byte) : (s.setCount x).n = s.n := rfl
@[simp] theorem State.setCount_i (x : Byte) : (s.setCount x).i = x := rfl
@[simp] theorem State.setCount_li (x : Byte) : (s.setCount x).li = s.li := rfl
@[simp] theorem State.setCount_declLen (x : Byte) : (s.setCount x).declLen = s.declLen := rfl
@[simp] theorem State.setCount_sendLen (x : Byte) : (s.setCount x).sendLen = s.sendLen := rfl
@[simp] theorem State.setCount_k (x : Byte) : (s.setCount x).k = s.k := rfl
@[simp] theorem State.setCount_t0 (x : Byte) : (s.setCount x).t0 = s.t0 := rfl
@[simp] theorem State.setCount_wstart (x : Byte) : (s.setCount x).wstart = s.wstart := rfl
@[simp] theorem State.setCount_d (x : Byte) : (s.setCount x).d = s.d := rfl
@[simp] theorem State.setCount_timeout (x : Byte) : (s.setCount x).timeout = s.timeout := rfl
@[simp] theorem State.setCount_csActive (x : Byte) : (s.setCount x).csActive = s.csActive := rfl
@[simp] theorem State.setCount_rxPop (x : Byte) : (s.setCount x).rxPop = s.rxPop := rfl
@[simp] theorem State.setCount_txStrobe (x : Byte) : (s.setCount x).txStrobe = s.txStrobe := rfl
@[simp] theorem State.setCount_txData (x : Byte) : (s.setCount x).txData = s.txData := rfl
@[simp] theorem State.setCount_rxq (x : Byte) : (s.setCount x).rxq = s.rxq := rfl
@[simp] theorem State.setCount_csHeld (x : Byte) : (s.setCount x).csHeld = s.csHeld := rfl
@[simp] theorem State.setCount_lineBusy (x : Byte) : (s.setCount x).lineBusy = s.lineBusy := rfl
@[simp] theorem State.setCount_ms (x : Byte) : (s.setCount x).ms = s.ms := rfl
@[simp] theorem State.setCount_offered (x : Byte) : (s.setCount x).offered = s.offered := rfl
@[simp] theorem State.setCount_hostData (x : Byte) : (s.setCount x).hostData = s.hostData := rfl
@[simp] theorem State.setCount_agenda (x : Byte) : (s.setCount x).agenda = s.agenda := rfl
@[simp] theorem State.setCount_backoffDraws (x : Byte) : (s.setCount x).backoffDraws = s.backoffDraws := rfl
@[simp] theorem State.setCount_acceptDraws (x : Byte) : (s.setCount x).acceptDraws = s.acceptDraws := rfl
@[simp] theorem State.setCount_busyDraws (x : Byte) : (s.setCount x).busyDraws = s.busyDraws := rfl
@[simp] theorem State.setCount_ppsLiDraws (x : Byte) : (s.setCount x).ppsLiDraws = s.ppsLiDraws := rfl
@[simp] theorem State.setCount_unscripted (x : Byte) : (s.setCount x).unscripted = s.unscripted := rfl
@[simp] theorem State.setCount_drawCount (x : Byte) : (s.setCount x).drawCount = s.drawCount := rfl

@[simp] theorem State.setDeclLen_params (x : Nat) : (s.setDeclLen x).params = s.params := rfl
@[simp] theorem State.setDeclLen_variant (x : Nat) : (s.setDeclLen x).variant = s.variant := rfl
@[simp] theorem State.setDeclLen_own (x : Nat) : (s.setDeclLen x).own = s.own := rfl
@[simp] theorem State.setDeclLen_dest (x : Nat) : (s.setDeclLen x).dest = s.dest := rfl
@[simp] theorem State.setDeclLen_validV (x : Nat) : (s.setDeclLen x).validV = s.validV := rfl
@[simp] theorem State.setDeclLen_validO (x : Nat) : (s.setDeclLen x).validO = s.validO := rfl
@[simp] theorem State.setDeclLen_validD (x : Nat) : (s.setDeclLen x).validD = s.validD := rfl
@[simp] theorem State.setDeclLen_lenIdx (x : Nat) : (s.setDeclLen x).lenIdx = s.lenIdx := rfl
@[simp] theorem State.setDeclLen_ppsOvrPend (x : Nat) : (s.setDeclLen x).ppsOvrPend = s.ppsOvrPend := rfl
@[simp] theorem State.setDeclLen_txbuf (x : Nat) : (s.setDeclLen x).txbuf = s.txbuf := rfl
@[simp] theorem State.setDeclLen_rxbuf (x : Nat) : (s.setDeclLen x).rxbuf = s.rxbuf := rfl
@[simp] theorem State.setDeclLen_done (x : Nat) : (s.setDeclLen x).done = s.done := rfl
@[simp] theorem State.setDeclLen_ok (x : Nat) : (s.setDeclLen x).ok = s.ok := rfl
@[simp] theorem State.setDeclLen_err (x : Nat) : (s.setDeclLen x).err = s.err := rfl
@[simp] theorem State.setDeclLen_rxlen (x : Nat) : (s.setDeclLen x).rxlen = s.rxlen := rfl
@[simp] theorem State.setDeclLen_cksum (x : Nat) : (s.setDeclLen x).cksum = s.cksum := rfl
@[simp] theorem State.setDeclLen_arg (x : Nat) : (s.setDeclLen x).arg = s.arg := rfl
@[simp] theorem State.setDeclLen_newVariant (x : Nat) : (s.setDeclLen x).newVariant = s.newVariant := rfl
@[simp] theorem State.setDeclLen_newOwn (x : Nat) : (s.setDeclLen x).newOwn = s.newOwn := rfl
@[simp] theorem State.setDeclLen_newDest (x : Nat) : (s.setDeclLen x).newDest = s.newDest := rfl
@[simp] theorem State.setDeclLen_phase (x : Nat) : (s.setDeclLen x).phase = s.phase := rfl
@[simp] theorem State.setDeclLen_cmd (x : Nat) : (s.setDeclLen x).cmd = s.cmd := rfl
@[simp] theorem State.setDeclLen_n (x : Nat) : (s.setDeclLen x).n = s.n := rfl
@[simp] theorem State.setDeclLen_i (x : Nat) : (s.setDeclLen x).i = s.i := rfl
@[simp] theorem State.setDeclLen_li (x : Nat) : (s.setDeclLen x).li = s.li := rfl
@[simp] theorem State.setDeclLen_declLen (x : Nat) : (s.setDeclLen x).declLen = x := rfl
@[simp] theorem State.setDeclLen_sendLen (x : Nat) : (s.setDeclLen x).sendLen = s.sendLen := rfl
@[simp] theorem State.setDeclLen_k (x : Nat) : (s.setDeclLen x).k = s.k := rfl
@[simp] theorem State.setDeclLen_t0 (x : Nat) : (s.setDeclLen x).t0 = s.t0 := rfl
@[simp] theorem State.setDeclLen_wstart (x : Nat) : (s.setDeclLen x).wstart = s.wstart := rfl
@[simp] theorem State.setDeclLen_d (x : Nat) : (s.setDeclLen x).d = s.d := rfl
@[simp] theorem State.setDeclLen_timeout (x : Nat) : (s.setDeclLen x).timeout = s.timeout := rfl
@[simp] theorem State.setDeclLen_csActive (x : Nat) : (s.setDeclLen x).csActive = s.csActive := rfl
@[simp] theorem State.setDeclLen_rxPop (x : Nat) : (s.setDeclLen x).rxPop = s.rxPop := rfl
@[simp] theorem State.setDeclLen_txStrobe (x : Nat) : (s.setDeclLen x).txStrobe = s.txStrobe := rfl
@[simp] theorem State.setDeclLen_txData (x : Nat) : (s.setDeclLen x).txData = s.txData := rfl
@[simp] theorem State.setDeclLen_rxq (x : Nat) : (s.setDeclLen x).rxq = s.rxq := rfl
@[simp] theorem State.setDeclLen_csHeld (x : Nat) : (s.setDeclLen x).csHeld = s.csHeld := rfl
@[simp] theorem State.setDeclLen_lineBusy (x : Nat) : (s.setDeclLen x).lineBusy = s.lineBusy := rfl
@[simp] theorem State.setDeclLen_ms (x : Nat) : (s.setDeclLen x).ms = s.ms := rfl
@[simp] theorem State.setDeclLen_offered (x : Nat) : (s.setDeclLen x).offered = s.offered := rfl
@[simp] theorem State.setDeclLen_hostData (x : Nat) : (s.setDeclLen x).hostData = s.hostData := rfl
@[simp] theorem State.setDeclLen_agenda (x : Nat) : (s.setDeclLen x).agenda = s.agenda := rfl
@[simp] theorem State.setDeclLen_backoffDraws (x : Nat) : (s.setDeclLen x).backoffDraws = s.backoffDraws := rfl
@[simp] theorem State.setDeclLen_acceptDraws (x : Nat) : (s.setDeclLen x).acceptDraws = s.acceptDraws := rfl
@[simp] theorem State.setDeclLen_busyDraws (x : Nat) : (s.setDeclLen x).busyDraws = s.busyDraws := rfl
@[simp] theorem State.setDeclLen_ppsLiDraws (x : Nat) : (s.setDeclLen x).ppsLiDraws = s.ppsLiDraws := rfl
@[simp] theorem State.setDeclLen_unscripted (x : Nat) : (s.setDeclLen x).unscripted = s.unscripted := rfl
@[simp] theorem State.setDeclLen_drawCount (x : Nat) : (s.setDeclLen x).drawCount = s.drawCount := rfl

@[simp] theorem State.setSendLen_params (x : Nat) : (s.setSendLen x).params = s.params := rfl
@[simp] theorem State.setSendLen_variant (x : Nat) : (s.setSendLen x).variant = s.variant := rfl
@[simp] theorem State.setSendLen_own (x : Nat) : (s.setSendLen x).own = s.own := rfl
@[simp] theorem State.setSendLen_dest (x : Nat) : (s.setSendLen x).dest = s.dest := rfl
@[simp] theorem State.setSendLen_validV (x : Nat) : (s.setSendLen x).validV = s.validV := rfl
@[simp] theorem State.setSendLen_validO (x : Nat) : (s.setSendLen x).validO = s.validO := rfl
@[simp] theorem State.setSendLen_validD (x : Nat) : (s.setSendLen x).validD = s.validD := rfl
@[simp] theorem State.setSendLen_lenIdx (x : Nat) : (s.setSendLen x).lenIdx = s.lenIdx := rfl
@[simp] theorem State.setSendLen_ppsOvrPend (x : Nat) : (s.setSendLen x).ppsOvrPend = s.ppsOvrPend := rfl
@[simp] theorem State.setSendLen_txbuf (x : Nat) : (s.setSendLen x).txbuf = s.txbuf := rfl
@[simp] theorem State.setSendLen_rxbuf (x : Nat) : (s.setSendLen x).rxbuf = s.rxbuf := rfl
@[simp] theorem State.setSendLen_done (x : Nat) : (s.setSendLen x).done = s.done := rfl
@[simp] theorem State.setSendLen_ok (x : Nat) : (s.setSendLen x).ok = s.ok := rfl
@[simp] theorem State.setSendLen_err (x : Nat) : (s.setSendLen x).err = s.err := rfl
@[simp] theorem State.setSendLen_rxlen (x : Nat) : (s.setSendLen x).rxlen = s.rxlen := rfl
@[simp] theorem State.setSendLen_cksum (x : Nat) : (s.setSendLen x).cksum = s.cksum := rfl
@[simp] theorem State.setSendLen_arg (x : Nat) : (s.setSendLen x).arg = s.arg := rfl
@[simp] theorem State.setSendLen_newVariant (x : Nat) : (s.setSendLen x).newVariant = s.newVariant := rfl
@[simp] theorem State.setSendLen_newOwn (x : Nat) : (s.setSendLen x).newOwn = s.newOwn := rfl
@[simp] theorem State.setSendLen_newDest (x : Nat) : (s.setSendLen x).newDest = s.newDest := rfl
@[simp] theorem State.setSendLen_phase (x : Nat) : (s.setSendLen x).phase = s.phase := rfl
@[simp] theorem State.setSendLen_cmd (x : Nat) : (s.setSendLen x).cmd = s.cmd := rfl
@[simp] theorem State.setSendLen_n (x : Nat) : (s.setSendLen x).n = s.n := rfl
@[simp] theorem State.setSendLen_i (x : Nat) : (s.setSendLen x).i = s.i := rfl
@[simp] theorem State.setSendLen_li (x : Nat) : (s.setSendLen x).li = s.li := rfl
@[simp] theorem State.setSendLen_declLen (x : Nat) : (s.setSendLen x).declLen = s.declLen := rfl
@[simp] theorem State.setSendLen_sendLen (x : Nat) : (s.setSendLen x).sendLen = x := rfl
@[simp] theorem State.setSendLen_k (x : Nat) : (s.setSendLen x).k = s.k := rfl
@[simp] theorem State.setSendLen_t0 (x : Nat) : (s.setSendLen x).t0 = s.t0 := rfl
@[simp] theorem State.setSendLen_wstart (x : Nat) : (s.setSendLen x).wstart = s.wstart := rfl
@[simp] theorem State.setSendLen_d (x : Nat) : (s.setSendLen x).d = s.d := rfl
@[simp] theorem State.setSendLen_timeout (x : Nat) : (s.setSendLen x).timeout = s.timeout := rfl
@[simp] theorem State.setSendLen_csActive (x : Nat) : (s.setSendLen x).csActive = s.csActive := rfl
@[simp] theorem State.setSendLen_rxPop (x : Nat) : (s.setSendLen x).rxPop = s.rxPop := rfl
@[simp] theorem State.setSendLen_txStrobe (x : Nat) : (s.setSendLen x).txStrobe = s.txStrobe := rfl
@[simp] theorem State.setSendLen_txData (x : Nat) : (s.setSendLen x).txData = s.txData := rfl
@[simp] theorem State.setSendLen_rxq (x : Nat) : (s.setSendLen x).rxq = s.rxq := rfl
@[simp] theorem State.setSendLen_csHeld (x : Nat) : (s.setSendLen x).csHeld = s.csHeld := rfl
@[simp] theorem State.setSendLen_lineBusy (x : Nat) : (s.setSendLen x).lineBusy = s.lineBusy := rfl
@[simp] theorem State.setSendLen_ms (x : Nat) : (s.setSendLen x).ms = s.ms := rfl
@[simp] theorem State.setSendLen_offered (x : Nat) : (s.setSendLen x).offered = s.offered := rfl
@[simp] theorem State.setSendLen_hostData (x : Nat) : (s.setSendLen x).hostData = s.hostData := rfl
@[simp] theorem State.setSendLen_agenda (x : Nat) : (s.setSendLen x).agenda = s.agenda := rfl
@[simp] theorem State.setSendLen_backoffDraws (x : Nat) : (s.setSendLen x).backoffDraws = s.backoffDraws := rfl
@[simp] theorem State.setSendLen_acceptDraws (x : Nat) : (s.setSendLen x).acceptDraws = s.acceptDraws := rfl
@[simp] theorem State.setSendLen_busyDraws (x : Nat) : (s.setSendLen x).busyDraws = s.busyDraws := rfl
@[simp] theorem State.setSendLen_ppsLiDraws (x : Nat) : (s.setSendLen x).ppsLiDraws = s.ppsLiDraws := rfl
@[simp] theorem State.setSendLen_unscripted (x : Nat) : (s.setSendLen x).unscripted = s.unscripted := rfl
@[simp] theorem State.setSendLen_drawCount (x : Nat) : (s.setSendLen x).drawCount = s.drawCount := rfl

@[simp] theorem State.setIndex_params (x : Byte) : (s.setIndex x).params = s.params := rfl
@[simp] theorem State.setIndex_variant (x : Byte) : (s.setIndex x).variant = s.variant := rfl
@[simp] theorem State.setIndex_own (x : Byte) : (s.setIndex x).own = s.own := rfl
@[simp] theorem State.setIndex_dest (x : Byte) : (s.setIndex x).dest = s.dest := rfl
@[simp] theorem State.setIndex_validV (x : Byte) : (s.setIndex x).validV = s.validV := rfl
@[simp] theorem State.setIndex_validO (x : Byte) : (s.setIndex x).validO = s.validO := rfl
@[simp] theorem State.setIndex_validD (x : Byte) : (s.setIndex x).validD = s.validD := rfl
@[simp] theorem State.setIndex_lenIdx (x : Byte) : (s.setIndex x).lenIdx = s.lenIdx := rfl
@[simp] theorem State.setIndex_ppsOvrPend (x : Byte) : (s.setIndex x).ppsOvrPend = s.ppsOvrPend := rfl
@[simp] theorem State.setIndex_txbuf (x : Byte) : (s.setIndex x).txbuf = s.txbuf := rfl
@[simp] theorem State.setIndex_rxbuf (x : Byte) : (s.setIndex x).rxbuf = s.rxbuf := rfl
@[simp] theorem State.setIndex_done (x : Byte) : (s.setIndex x).done = s.done := rfl
@[simp] theorem State.setIndex_ok (x : Byte) : (s.setIndex x).ok = s.ok := rfl
@[simp] theorem State.setIndex_err (x : Byte) : (s.setIndex x).err = s.err := rfl
@[simp] theorem State.setIndex_rxlen (x : Byte) : (s.setIndex x).rxlen = s.rxlen := rfl
@[simp] theorem State.setIndex_cksum (x : Byte) : (s.setIndex x).cksum = s.cksum := rfl
@[simp] theorem State.setIndex_arg (x : Byte) : (s.setIndex x).arg = s.arg := rfl
@[simp] theorem State.setIndex_newVariant (x : Byte) : (s.setIndex x).newVariant = s.newVariant := rfl
@[simp] theorem State.setIndex_newOwn (x : Byte) : (s.setIndex x).newOwn = s.newOwn := rfl
@[simp] theorem State.setIndex_newDest (x : Byte) : (s.setIndex x).newDest = s.newDest := rfl
@[simp] theorem State.setIndex_phase (x : Byte) : (s.setIndex x).phase = s.phase := rfl
@[simp] theorem State.setIndex_cmd (x : Byte) : (s.setIndex x).cmd = s.cmd := rfl
@[simp] theorem State.setIndex_n (x : Byte) : (s.setIndex x).n = s.n := rfl
@[simp] theorem State.setIndex_i (x : Byte) : (s.setIndex x).i = s.i := rfl
@[simp] theorem State.setIndex_li (x : Byte) : (s.setIndex x).li = s.li := rfl
@[simp] theorem State.setIndex_declLen (x : Byte) : (s.setIndex x).declLen = s.declLen := rfl
@[simp] theorem State.setIndex_sendLen (x : Byte) : (s.setIndex x).sendLen = s.sendLen := rfl
@[simp] theorem State.setIndex_k (x : Byte) : (s.setIndex x).k = x := rfl
@[simp] theorem State.setIndex_t0 (x : Byte) : (s.setIndex x).t0 = s.t0 := rfl
@[simp] theorem State.setIndex_wstart (x : Byte) : (s.setIndex x).wstart = s.wstart := rfl
@[simp] theorem State.setIndex_d (x : Byte) : (s.setIndex x).d = s.d := rfl
@[simp] theorem State.setIndex_timeout (x : Byte) : (s.setIndex x).timeout = s.timeout := rfl
@[simp] theorem State.setIndex_csActive (x : Byte) : (s.setIndex x).csActive = s.csActive := rfl
@[simp] theorem State.setIndex_rxPop (x : Byte) : (s.setIndex x).rxPop = s.rxPop := rfl
@[simp] theorem State.setIndex_txStrobe (x : Byte) : (s.setIndex x).txStrobe = s.txStrobe := rfl
@[simp] theorem State.setIndex_txData (x : Byte) : (s.setIndex x).txData = s.txData := rfl
@[simp] theorem State.setIndex_rxq (x : Byte) : (s.setIndex x).rxq = s.rxq := rfl
@[simp] theorem State.setIndex_csHeld (x : Byte) : (s.setIndex x).csHeld = s.csHeld := rfl
@[simp] theorem State.setIndex_lineBusy (x : Byte) : (s.setIndex x).lineBusy = s.lineBusy := rfl
@[simp] theorem State.setIndex_ms (x : Byte) : (s.setIndex x).ms = s.ms := rfl
@[simp] theorem State.setIndex_offered (x : Byte) : (s.setIndex x).offered = s.offered := rfl
@[simp] theorem State.setIndex_hostData (x : Byte) : (s.setIndex x).hostData = s.hostData := rfl
@[simp] theorem State.setIndex_agenda (x : Byte) : (s.setIndex x).agenda = s.agenda := rfl
@[simp] theorem State.setIndex_backoffDraws (x : Byte) : (s.setIndex x).backoffDraws = s.backoffDraws := rfl
@[simp] theorem State.setIndex_acceptDraws (x : Byte) : (s.setIndex x).acceptDraws = s.acceptDraws := rfl
@[simp] theorem State.setIndex_busyDraws (x : Byte) : (s.setIndex x).busyDraws = s.busyDraws := rfl
@[simp] theorem State.setIndex_ppsLiDraws (x : Byte) : (s.setIndex x).ppsLiDraws = s.ppsLiDraws := rfl
@[simp] theorem State.setIndex_unscripted (x : Byte) : (s.setIndex x).unscripted = s.unscripted := rfl
@[simp] theorem State.setIndex_drawCount (x : Byte) : (s.setIndex x).drawCount = s.drawCount := rfl

@[simp] theorem State.setCksum_params (x : Half) : (s.setCksum x).params = s.params := rfl
@[simp] theorem State.setCksum_variant (x : Half) : (s.setCksum x).variant = s.variant := rfl
@[simp] theorem State.setCksum_own (x : Half) : (s.setCksum x).own = s.own := rfl
@[simp] theorem State.setCksum_dest (x : Half) : (s.setCksum x).dest = s.dest := rfl
@[simp] theorem State.setCksum_validV (x : Half) : (s.setCksum x).validV = s.validV := rfl
@[simp] theorem State.setCksum_validO (x : Half) : (s.setCksum x).validO = s.validO := rfl
@[simp] theorem State.setCksum_validD (x : Half) : (s.setCksum x).validD = s.validD := rfl
@[simp] theorem State.setCksum_lenIdx (x : Half) : (s.setCksum x).lenIdx = s.lenIdx := rfl
@[simp] theorem State.setCksum_ppsOvrPend (x : Half) : (s.setCksum x).ppsOvrPend = s.ppsOvrPend := rfl
@[simp] theorem State.setCksum_txbuf (x : Half) : (s.setCksum x).txbuf = s.txbuf := rfl
@[simp] theorem State.setCksum_rxbuf (x : Half) : (s.setCksum x).rxbuf = s.rxbuf := rfl
@[simp] theorem State.setCksum_done (x : Half) : (s.setCksum x).done = s.done := rfl
@[simp] theorem State.setCksum_ok (x : Half) : (s.setCksum x).ok = s.ok := rfl
@[simp] theorem State.setCksum_err (x : Half) : (s.setCksum x).err = s.err := rfl
@[simp] theorem State.setCksum_rxlen (x : Half) : (s.setCksum x).rxlen = s.rxlen := rfl
@[simp] theorem State.setCksum_cksum (x : Half) : (s.setCksum x).cksum = x := rfl
@[simp] theorem State.setCksum_arg (x : Half) : (s.setCksum x).arg = s.arg := rfl
@[simp] theorem State.setCksum_newVariant (x : Half) : (s.setCksum x).newVariant = s.newVariant := rfl
@[simp] theorem State.setCksum_newOwn (x : Half) : (s.setCksum x).newOwn = s.newOwn := rfl
@[simp] theorem State.setCksum_newDest (x : Half) : (s.setCksum x).newDest = s.newDest := rfl
@[simp] theorem State.setCksum_phase (x : Half) : (s.setCksum x).phase = s.phase := rfl
@[simp] theorem State.setCksum_cmd (x : Half) : (s.setCksum x).cmd = s.cmd := rfl
@[simp] theorem State.setCksum_n (x : Half) : (s.setCksum x).n = s.n := rfl
@[simp] theorem State.setCksum_i (x : Half) : (s.setCksum x).i = s.i := rfl
@[simp] theorem State.setCksum_li (x : Half) : (s.setCksum x).li = s.li := rfl
@[simp] theorem State.setCksum_declLen (x : Half) : (s.setCksum x).declLen = s.declLen := rfl
@[simp] theorem State.setCksum_sendLen (x : Half) : (s.setCksum x).sendLen = s.sendLen := rfl
@[simp] theorem State.setCksum_k (x : Half) : (s.setCksum x).k = s.k := rfl
@[simp] theorem State.setCksum_t0 (x : Half) : (s.setCksum x).t0 = s.t0 := rfl
@[simp] theorem State.setCksum_wstart (x : Half) : (s.setCksum x).wstart = s.wstart := rfl
@[simp] theorem State.setCksum_d (x : Half) : (s.setCksum x).d = s.d := rfl
@[simp] theorem State.setCksum_timeout (x : Half) : (s.setCksum x).timeout = s.timeout := rfl
@[simp] theorem State.setCksum_csActive (x : Half) : (s.setCksum x).csActive = s.csActive := rfl
@[simp] theorem State.setCksum_rxPop (x : Half) : (s.setCksum x).rxPop = s.rxPop := rfl
@[simp] theorem State.setCksum_txStrobe (x : Half) : (s.setCksum x).txStrobe = s.txStrobe := rfl
@[simp] theorem State.setCksum_txData (x : Half) : (s.setCksum x).txData = s.txData := rfl
@[simp] theorem State.setCksum_rxq (x : Half) : (s.setCksum x).rxq = s.rxq := rfl
@[simp] theorem State.setCksum_csHeld (x : Half) : (s.setCksum x).csHeld = s.csHeld := rfl
@[simp] theorem State.setCksum_lineBusy (x : Half) : (s.setCksum x).lineBusy = s.lineBusy := rfl
@[simp] theorem State.setCksum_ms (x : Half) : (s.setCksum x).ms = s.ms := rfl
@[simp] theorem State.setCksum_offered (x : Half) : (s.setCksum x).offered = s.offered := rfl
@[simp] theorem State.setCksum_hostData (x : Half) : (s.setCksum x).hostData = s.hostData := rfl
@[simp] theorem State.setCksum_agenda (x : Half) : (s.setCksum x).agenda = s.agenda := rfl
@[simp] theorem State.setCksum_backoffDraws (x : Half) : (s.setCksum x).backoffDraws = s.backoffDraws := rfl
@[simp] theorem State.setCksum_acceptDraws (x : Half) : (s.setCksum x).acceptDraws = s.acceptDraws := rfl
@[simp] theorem State.setCksum_busyDraws (x : Half) : (s.setCksum x).busyDraws = s.busyDraws := rfl
@[simp] theorem State.setCksum_ppsLiDraws (x : Half) : (s.setCksum x).ppsLiDraws = s.ppsLiDraws := rfl
@[simp] theorem State.setCksum_unscripted (x : Half) : (s.setCksum x).unscripted = s.unscripted := rfl
@[simp] theorem State.setCksum_drawCount (x : Half) : (s.setCksum x).drawCount = s.drawCount := rfl

end

/-- The error finish of a RECEIVE writes `RXLEN` (60_exceptions.md R202). -/
theorem State.raiseErr_of_receive {s : State} (h : s.cmd = encode .receive) (e : ErrCode) :
    s.raiseErr e = { s with rxlen := s.i, ok := false, err := e, done := true, phase := .idle } := by
  unfold State.raiseErr State.finishRxlen
  rw [if_pos h]

/-- The error finish of any other command leaves `RXLEN` (60_exceptions.md R202). -/
theorem State.raiseErr_of_ne {s : State} (h : s.cmd ≠ encode .receive) (e : ErrCode) :
    s.raiseErr e = { s with ok := false, err := e, done := true, phase := .idle } := by
  unfold State.raiseErr State.finishRxlen
  rw [if_neg h]

/-- The success of a RECEIVE writes `RXLEN` (60_exceptions.md R200). -/
theorem State.finishOk_of_receive {s : State} (h : s.cmd = encode .receive) :
    s.finishOk = { s with rxlen := s.i, ok := true, err := .none, done := true, phase := .idle } := by
  unfold State.finishOk State.finishRxlen
  rw [if_pos h]

/-- The success of any other command leaves `RXLEN` (60_exceptions.md R200). -/
theorem State.finishOk_of_ne {s : State} (h : s.cmd ≠ encode .receive) :
    s.finishOk = { s with ok := true, err := .none, done := true, phase := .idle } := by
  unfold State.finishOk State.finishRxlen
  rw [if_neg h]

end Sys2Proof.Machine
end

