-- ==== Sys2Proof/Laws/Ops.lean ====
section
/-! SUPPORT. One lemma per shared operation that says once everything it can do when it answers a next state, and one
where it can stop. Later proofs cite these instead of unfolding the operation. -/

namespace Sys2Proof.Machine

/-- An operation of the `EXEC` family either runs in `EXEC` or changes nothing. -/
theorem inExec_cases {f : State → Result} {s t : State} (h : inExec f s = .next t) :
    (s.phase = .exec ∧ f s = .next t) ∨ (s.phase ≠ .exec ∧ t = s) := by
  unfold inExec at h
  split at h
  · exact .inl ⟨by assumption, h⟩
  · rename_i hp
    cases h
    exact .inr ⟨hp, rfl⟩

theorem inExec_of_exec {f : State → Result} {s : State} (h : s.phase = .exec) : inExec f s = f s := by
  unfold inExec
  rw [h]

/-- A CKSUM operation finishes with OVERFLOW, or with the engine's value over bytes that are all written. -/
theorem cksumStep_cases {b : Buffer} {count : Nat → Nat} {engine : List Byte → Nat → Half} {s t : State}
    (h : cksumStep b count engine s = .next t) :
    (s.params.bufCap < s.n.toNat ∧ t = s.raiseErr .overflow) ∨
    (s.n.toNat ≤ s.params.bufCap ∧ ∃ bs, bs.length = count s.n.toNat ∧ s.holds b bs ∧
      t = (s.setCksum (engine bs s.n.toNat)).finishOk) := by
  unfold cksumStep at h
  split at h
  · cases h
    exact .inl ⟨by assumption, rfl⟩
  · split at h
    · cases h
    · rename_i hb
      cases h
      obtain ⟨h1, h2⟩ := State.readBytes_eq_ok.mp hb
      exact .inr ⟨by omega, _, h1, h2, rfl⟩

/-- `sof_found(b)`: the PPS short frame, or the start of a capture with `LEN_IDX`, or with a drawn 8 or 9. -/
theorem sofFound_cases {b : Byte} {s t : State} (h : sofFound b s = .next t) :
    (s.variant = .pps ∧ b = 0x17 ∧ s.own = 1 ∧
      t = { s.setRx 0 b with i := 1, ppsOvrPend := true }.finishOk) ∨
    (¬(s.variant = .pps ∧ b = 0x17 ∧ s.own = 1) ∧ ¬(s.variant = .pps ∧ s.ppsOvrPend = true) ∧
      t = { s.setRx 0 b with i := 1, li := s.lenIdx, phase := .rxSettle }) ∨
    (¬(s.variant = .pps ∧ b = 0x17 ∧ s.own = 1) ∧ s.variant = .pps ∧ s.ppsOvrPend = true ∧
      ∃ li ds c, (li = 8 ∨ li = 9) ∧ t = { s.setRx 0 b with
        i := 1, ppsOvrPend := false, ppsLiDraws := ds, drawCount := c, li := li, phase := .rxSettle }) := by
  unfold sofFound at h
  dsimp only at h
  split at h
  · rename_i hs
    cases h
    exact .inl ⟨hs.1, hs.2.1, hs.2.2, rfl⟩
  · rename_i hs
    unfold selectLi at h
    split at h
    · cases h
    · rename_i li u hu
      cases h
      split at hu
      · rename_i ho
        obtain ⟨hli, ds, c, rfl⟩ := State.drawPpsLi_cases hu
        exact .inr (.inr ⟨hs, ho.1, ho.2, li, ds, c, hli, rfl⟩)
      · rename_i ho
        cases hu
        exact .inr (.inl ⟨hs, ho, rfl⟩)

/-- `RX_HUNT`: the two failures, a discarded byte, or a start of frame. -/
theorem rxHuntStep_cases {s t : State} (h : rxHuntStep s = .next t) :
    (s.receiveConfigured = false ∧ t = (s.setCount 0).raiseErr .notConfigured) ∨
    (s.receiveConfigured = true ∧ s.rxq = [] ∧ t = (s.setCount 0).raiseErr .noSof) ∨
    (∃ r rest, s.receiveConfigured = true ∧ s.rxq = r :: rest ∧ sofInstr s.variant (polarity s.variant r) = none ∧
      t = (s.setCount 0).popRx) ∨
    (∃ r rest i, s.receiveConfigured = true ∧ s.rxq = r :: rest ∧
      sofInstr s.variant (polarity s.variant r) = some i ∧
      sofFound (polarity s.variant r) (s.setCount 0).popRx = .next t) := by
  unfold rxHuntStep at h
  dsimp only at h
  split at h
  · rename_i hc
    cases h
    exact .inl ⟨hc, rfl⟩
  · rename_i hc
    have hc' : s.receiveConfigured = true := by
      cases e : s.receiveConfigured
      · exact absurd e hc
      · rfl
    split at h
    · rename_i hq
      cases h
      exact .inr (.inl ⟨hc', hq, rfl⟩)
    · rename_i r rest hq
      unfold huntByte at h
      dsimp only at h
      split at h
      · rename_i i hi
        exact .inr (.inr (.inr ⟨r, rest, i, hc', hq, hi, h⟩))
      · rename_i hi
        cases h
        exact .inr (.inr (.inl ⟨r, rest, hc', hq, hi, rfl⟩))

/-- A start-of-frame byte runs the hunt, or is not there. -/
theorem sofByte_cases {w : Byte} {s t : State} (h : sofByte w s = .next t) :
    (s.phase = .rxHunt ∧ s.rxq.head? = some w ∧ rxHuntStep s = .next t) ∨ t = s := by
  unfold sofByte at h
  split at h
  · rename_i hp
    exact .inl ⟨hp.1, hp.2, h⟩
  · cases h
    exact .inr rfl

/-- `after_append()`: go on, an insane length field, or the declared length and what follows from it. -/
theorem afterAppend_cases {s t : State} (h : afterAppend s = .next t) :
    (s.i.toNat ≤ s.li.toNat ∧ t = s.goto .rxByte) ∨
    (s.li.toNat < s.i.toNat ∧ lenFieldInsane s = .ok true ∧ t = s.raiseErr .lenInsane) ∨
    (s.li.toNat < s.i.toNat ∧ lenFieldInsane s = .ok false ∧ ∃ e, s.declaredLength = .ok e ∧
      ((e ≤ s.i.toNat ∧ t = (s.setDeclLen e).goto .rxCheck) ∨
        (s.i.toNat < e ∧ t = (s.setDeclLen e).goto .rxByte))) := by
  unfold afterAppend at h
  split at h
  · rename_i hi
    cases h
    exact .inl ⟨hi, rfl⟩
  · rename_i hi
    split at h
    · cases h
    · rename_i hl
      cases h
      exact .inr (.inl ⟨by omega, hl, rfl⟩)
    · rename_i hl
      split at h
      · cases h
      · rename_i e he
        dsimp only at h
        refine .inr (.inr ⟨by omega, hl, e, he, ?_⟩)
        split at h
        · rename_i hle
          cases h
          exact .inl ⟨hle, rfl⟩
        · rename_i hle
          cases h
          exact .inr ⟨not_le.mp hle, rfl⟩

/-- `RX_BYTE`: a latched timeout, nothing to do, an overflow, or a byte appended. -/
theorem rxByteStep_cases {s t : State} (h : rxByteStep s = .next t) :
    (s.timeout = true ∧ t = { s with timeout := false, phase := .rxCheck }) ∨
    (s.timeout = false ∧ s.rxq = [] ∧ t = s) ∨
    (∃ r rest, s.timeout = false ∧ s.rxq = r :: rest ∧ s.params.bufCap ≤ s.i.toNat ∧
      t = s.popRx.raiseErr .overflow) ∨
    (∃ r rest, s.timeout = false ∧ s.rxq = r :: rest ∧ s.i.toNat < s.params.bufCap ∧
      afterAppend ((s.popRx.setRx s.i.toNat (polarity s.variant r)).setCount (s.i + 1)) = .next t) := by
  unfold rxByteStep at h
  split at h
  · rename_i ht
    cases h
    exact .inl ⟨ht, rfl⟩
  · rename_i ht
    have ht' : s.timeout = false := by simpa using ht
    split at h
    · rename_i hq
      cases h
      exact .inr (.inl ⟨ht', hq, rfl⟩)
    · rename_i r rest hq
      unfold appendByte at h
      dsimp only at h
      split at h
      · rename_i hc
        cases h
        exact .inr (.inr (.inl ⟨r, rest, ht', hq, hc, rfl⟩))
      · rename_i hc
        exact .inr (.inr (.inr ⟨r, rest, ht', hq, by simpa using hc, h⟩))

/-- `RX_CHECK`: a length mismatch, or the checksum decides. -/
theorem rxCheckStep_cases {s t : State} (h : rxCheckStep s = .next t) :
    ((s.i.toNat ≤ s.li.toNat ∨ s.i.toNat ≠ s.declLen) ∧ t = s.raiseErr .lenMismatch) ∨
    (s.li.toNat < s.i.toNat ∧ s.i.toNat = s.declLen ∧ ∃ c good, frameChecksum s = .ok (c, good) ∧
      ((good = true ∧ t = (s.setCksum c).finishOk) ∨
        (good = false ∧ t = (s.setCksum c).raiseErr .checksum))) := by
  unfold rxCheckStep at h
  split at h
  · rename_i h1
    cases h
    exact .inl ⟨.inl h1, rfl⟩
  · rename_i h1
    split at h
    · rename_i h2
      cases h
      exact .inl ⟨.inr h2, rfl⟩
    · rename_i h2
      unfold checksumCheck at h
      split at h
      · cases h
      · rename_i c good hc
        refine .inr ⟨by omega, by omega, c, good, hc, ?_⟩
        dsimp only at h
        split at h
        · rename_i hg
          cases h
          exact .inl ⟨hg, rfl⟩
        · rename_i hg
          cases h
          exact .inr ⟨by simpa using hg, rfl⟩

/-- `embed_checksum()`: the state it answers differs in `TXBUF` and `CKSUM` alone; the trailer's indices. -/
theorem embedChecksum_cases {s t : State} {len : Nat} (h : embedChecksum s len = .ok t) :
    (s.variant ≠ .pps ∧ ∃ c, t = s.setTrailer len c) ∨
    (s.variant = .pps ∧ ∃ v c, t = (s.setTx s.lenIdx.toNat v).setCksum c) := by
  unfold embedChecksum at h
  split at h
  · rename_i hv
    split at h
    · cases h
    · cases h
      exact .inl ⟨by rw [hv]; decide, _, rfl⟩
  · rename_i hv
    split at h
    · cases h
    · cases h
      exact .inl ⟨by rw [hv]; decide, _, rfl⟩
  · rename_i hv
    split at h
    · cases h
    · cases h
      exact .inr ⟨hv, _, _, rfl⟩

/-- `check_length(N)` passes only inside the bounds. -/
theorem checkLength_ok_none {s : State} {len : Nat} (h : checkLength s len = .ok none) :
    len ≤ s.params.bufCap ∧ (s.variant ≠ .pps → 6 ≤ len ∧ ∃ v, s.txbuf.read s.lenIdx.toNat = some v ∧ v.toNat ≤ 32) := by
  unfold checkLength at h
  split at h
  · rename_i hv
    refine ⟨?_, fun hn => absurd hv hn⟩
    split_ifs at h
    · cases h
    · omega
  · split at h
    · cases h
    · rename_i v hr
      split_ifs at h with h1 h2 h3
      · simp at h
      · simp at h
      · simp at h
      · simp only [Config.saneMax, Config.minSendLen] at h1 h2
        exact ⟨by omega, fun _ => ⟨by omega, v, State.readByte_eq_ok.mp hr, by omega⟩⟩

/-- The errors of `check_length(N)` are LEN_INSANE and OVERFLOW. -/
theorem checkLength_ok_some {s : State} {len : Nat} {e : ErrCode} (h : checkLength s len = .ok (some e)) :
    e = .lenInsane ∨ e = .overflow := by
  unfold checkLength at h
  split at h
  · split_ifs at h <;> cases h
    exact .inr rfl
  · split at h
    · cases h
    · split_ifs at h <;> cases h
      · exact .inl rfl
      · exact .inl rfl
      · exact .inr rfl

/-- `fill_header()` changes `TXBUF` alone. -/
theorem fillHeader_eq (s : State) : ∃ m, s.fillHeader = { s with txbuf := m } := by
  unfold State.fillHeader
  split
  · exact ⟨_, rfl⟩
  · split
    · exact ⟨_, rfl⟩
    · exact ⟨_, rfl⟩
  · exact ⟨_, rfl⟩

/-- `TX_PREP`: not configured, a length error, or a prepared frame. -/
theorem txPrepStep_cases {s t : State} (h : txPrepStep s = .next t) :
    (s.sendConfigured = false ∧ t = s.raiseErr .notConfigured) ∨
    (s.sendConfigured = true ∧ ∃ len, s.frameLength = .ok len ∧
      ((∃ e, (e = .lenInsane ∨ e = .overflow) ∧ checkLength (s.setSendLen len) len = .ok (some e) ∧
          t = (s.setSendLen len).raiseErr e) ∨
        (checkLength (s.setSendLen len) len = .ok none ∧
          ∃ u, embedChecksum (s.setSendLen len).fillHeader len = .ok u ∧ t = u.goto .txAcq))) := by
  unfold txPrepStep at h
  split at h
  · rename_i hc
    cases h
    exact .inl ⟨hc, rfl⟩
  · rename_i hc
    split at h
    · cases h
    · rename_i len hl
      refine .inr ⟨by simpa using hc, len, hl, ?_⟩
      dsimp only at h
      split at h
      · cases h
      · rename_i e he
        cases h
        exact .inl ⟨e, checkLength_ok_some he, he, rfl⟩
      · rename_i he
        split at h
        · cases h
        · rename_i u hu
          cases h
          exact .inr ⟨he, u, hu, rfl⟩

/-- `TX_ACQ`: the deadline, PPS, or a backoff of the range. -/
theorem txAcqStep_cases {s t : State} (h : txAcqStep s = .next t) :
    (1000 < s.elapsed s.t0 ∧ t = s.raiseErr .busTimeout) ∨
    (s.elapsed s.t0 ≤ 1000 ∧ s.variant = .pps ∧ t = s.goto .txChk) ∨
    (s.elapsed s.t0 ≤ 1000 ∧ s.variant ≠ .pps ∧ ∃ d ds c,
      (s.params.wellFormed = true → s.params.backoffMin.toNat ≤ d.toNat ∧ d.toNat ≤ s.params.backoffMax.toNat) ∧
      t = { s with backoffDraws := ds, drawCount := c, d := d, wstart := s.ms, phase := .txWait }) := by
  unfold txAcqStep at h
  split at h
  · rename_i hd
    cases h
    exact .inl ⟨hd, rfl⟩
  · rename_i hd
    have hd' : s.elapsed s.t0 ≤ 1000 := not_lt.mp hd
    split at h
    · rename_i hv
      cases h
      exact .inr (.inl ⟨hd', hv, rfl⟩)
    · rename_i hv
      split at h
      · cases h
      · rename_i d u hu
        cases h
        refine .inr (.inr ⟨hd', hv, ?_⟩)
        have hshape : ∃ ds c, u = { s with backoffDraws := ds, drawCount := c } := by
          unfold State.drawBackoff at hu
          split at hu
          · split_ifs at hu
            cases hu
            exact ⟨_, _, rfl⟩
          · split at hu <;> cases hu <;> exact ⟨_, _, rfl⟩
        obtain ⟨ds, c, rfl⟩ := hshape
        exact ⟨d, ds, c, fun hp => (State.drawBackoff_cases hp hu).1, rfl⟩

/-- `TX_WAIT`: back to `TX_ACQ` on a busy sample, on to `TX_CHK` when the backoff has passed, or another sample. -/
theorem txWaitStep_cases {s t : State} (h : txWaitStep s = .next t) :
    ∃ ds, (t = { s with busyDraws := ds, phase := .txAcq }) ∨
      (s.d.toNat ≤ s.elapsed s.wstart ∧ t = { s with busyDraws := ds, phase := .txChk }) ∨
      t = { s with busyDraws := ds, phase := .txWait } := by
  obtain ⟨ds, hd⟩ := s.drawBusy_cases
  refine ⟨ds, ?_⟩
  unfold txWaitStep at h
  split at h
  · rename_i u hu
    rw [hu] at hd
    dsimp only at hd
    subst hd
    cases h
    exact .inl rfl
  · rename_i u hu
    rw [hu] at hd
    dsimp only at hd
    subst hd
    split at h
    · rename_i he
      cases h
      exact .inr (.inl ⟨he, rfl⟩)
    · cases h
      exact .inr (.inr rfl)

/-- `TX_CHK`: the deadline, or the frame starts. -/
theorem txChkStep_cases {s t : State} (h : txChkStep s = .next t) :
    (1000 < s.elapsed s.t0 ∧ t = s.raiseErr .busTimeout) ∨
    (s.elapsed s.t0 ≤ 1000 ∧ t = { s with k := 0, phase := .txByte }) := by
  unfold txChkStep at h
  split at h
  · rename_i hd
    cases h
    exact .inl ⟨hd, rfl⟩
  · rename_i hd
    cases h
    exact .inr ⟨not_lt.mp hd, rfl⟩

/-- The state after an offer inside the critical section; `u` is the state after the accept draw. -/
theorem afterOffer_cases {acc : Nat} {s t : State} (h : afterOffer acc s = .next t) :
    (acc = 0 ∧ t = s.goto .txAcq) ∨
    (acc ≠ 0 ∧ (s.k + 1).toNat = s.sendLen ∧ t = (s.setIndex (s.k + 1)).finishOk) ∨
    (acc ≠ 0 ∧ (s.k + 1).toNat ≠ s.sendLen ∧ t = (s.setIndex (s.k + 1)).goto .txByte) := by
  unfold afterOffer at h
  split at h
  · rename_i ha
    cases h
    exact .inl ⟨by omega, rfl⟩
  · rename_i ha
    dsimp only at h
    split at h
    · rename_i hk
      cases h
      exact .inr (.inl ⟨by omega, hk, rfl⟩)
    · rename_i hk
      cases h
      exact .inr (.inr ⟨by omega, hk, rfl⟩)

/-- `TX_BYTE`: the byte `TXBUF[k]` is offered in its wire form, and the answer decides. -/
theorem txByteStep_cases {s t : State} (h : txByteStep s = .next t) :
    ∃ b acc ds c, s.txbuf.read s.k.toNat = some b ∧ acc ≤ 1 ∧
      afterOffer acc ({ s with acceptDraws := ds, drawCount := c, csActive := true }.offer
        (polarity s.variant b) acc).csExit = .next t := by
  unfold txByteStep at h
  dsimp only at h
  split at h
  · cases h
  · rename_i b hb
    split at h
    · cases h
    · rename_i acc u hu
      obtain ⟨hacc, ds, c, rfl⟩ := State.drawAccept_cases hu
      exact ⟨b, acc, ds, c, by simpa [State.buf] using State.readByte_eq_ok.mp hb, hacc, h⟩

/-- CONFIGURE writes the configuration registers alone (40_config.md R100). -/
theorem configure_eq (s : State) : ∃ v vv l p o vo d vd, s.configureVariant.configureOwn.configureDest =
    { s with variant := v, validV := vv, lenIdx := l, ppsOvrPend := p, own := o, validO := vo, dest := d, validD := vd } := by
  have h1 : ∃ v vv l p, s.configureVariant = { s with variant := v, validV := vv, lenIdx := l, ppsOvrPend := p } := by
    unfold State.configureVariant
    split <;> exact ⟨_, _, _, _, rfl⟩
  have h2 : ∀ u : State, ∃ o vo, u.configureOwn = { u with own := o, validO := vo } := by
    intro u
    unfold State.configureOwn
    split <;> exact ⟨_, _, rfl⟩
  have h3 : ∀ u : State, ∃ d vd, u.configureDest = { u with dest := d, validD := vd } := by
    intro u
    unfold State.configureDest
    split <;> exact ⟨_, _, rfl⟩
  obtain ⟨v, vv, l, p, h1⟩ := h1
  obtain ⟨o, vo, h2⟩ := h2 s.configureVariant
  obtain ⟨d, vd, h3⟩ := h3 s.configureVariant.configureOwn
  rw [h3, h2, h1]
  exact ⟨v, vv, l, p, o, vo, d, vd, rfl⟩

/-! ### Where an operation stops -/

/-- A CKSUM operation stops only at an unwritten byte of its buffer (60 R208). -/
theorem cksumStep_fault {b : Buffer} {count : Nat → Nat} {engine : List Byte → Nat → Half} {s : State} {f : Fault}
    (h : cksumStep b count engine s = .fault f) : ∃ j, f = .unwrittenByte b j ∧ (s.buf b).read j = none := by
  unfold cksumStep at h
  split at h
  · cases h
  · split at h
    · rename_i hb
      cases h
      obtain ⟨j, hf, -, hj, -⟩ := State.readBytes_eq_error.mp hb
      exact ⟨j, hf, hj⟩
    · cases h

/-- `frame_length()` stops only at an unwritten byte of `TXBUF`. -/
theorem frameLength_fault {s : State} {f : Fault} (h : s.frameLength = .error f) :
    ∃ j, f = .unwrittenByte .tx j ∧ s.txbuf.read j = none := by
  unfold State.frameLength at h
  split at h
  · split at h
    · cases h
    · rename_i he
      cases h
      obtain ⟨h1, h2⟩ := State.readByte_eq_error.mp he
      exact ⟨_, h2, h1⟩
  · split at h
    · cases h
    · rename_i he
      cases h
      obtain ⟨h1, h2⟩ := State.readByte_eq_error.mp he
      exact ⟨_, h2, h1⟩
  · cases h

/-- `check_length(N)` stops only at an unwritten byte of `TXBUF`. -/
theorem checkLength_fault {s : State} {n} {f : Fault} (h : checkLength s n = .error f) :
    ∃ j, f = .unwrittenByte .tx j ∧ s.txbuf.read j = none := by
  unfold checkLength at h
  split at h
  · cases h
  · split at h
    · rename_i he
      cases h
      obtain ⟨h1, h2⟩ := State.readByte_eq_error.mp he
      exact ⟨_, h2, h1⟩
    · cases h

/-- `embed_checksum()` stops only at an unwritten byte of `TXBUF`. -/
theorem embedChecksum_fault {s : State} {n} {f : Fault} (h : embedChecksum s n = .error f) :
    ∃ j, f = .unwrittenByte .tx j ∧ s.txbuf.read j = none := by
  unfold embedChecksum at h
  split at h
  all_goals
    split at h
    · rename_i he
      cases h
      obtain ⟨j, hf, -, hj, -⟩ := State.readBytes_eq_error.mp he
      exact ⟨j, hf, hj⟩
    · cases h

/-- `fill_header()` unwrites nothing. -/
theorem State.read_eq_none_of_fillHeader {s : State} {j : Nat} (h : s.fillHeader.txbuf.read j = none) :
    s.txbuf.read j = none := by
  have three : ∀ {m : Memory} {a b c : Nat} {u v w : Byte}, (((m.write a u).write b v).write c w).read j = none →
      m.read j = none := fun h =>
    Memory.read_eq_none_of_write (Memory.read_eq_none_of_write (Memory.read_eq_none_of_write h))
  unfold State.fillHeader at h
  split at h
  · exact three h
  · split at h <;> exact three h
  · exact h

/-- `TX_PREP` stops only at a byte of `TXBUF` that was unwritten before it (60 R208). -/
theorem txPrepStep_fault {s : State} {f : Fault} (h : txPrepStep s = .fault f) :
    ∃ j, f = .unwrittenByte .tx j ∧ s.txbuf.read j = none := by
  unfold txPrepStep at h
  split at h
  · cases h
  · split at h
    · rename_i he
      cases h
      exact frameLength_fault he
    · dsimp only at h
      split at h
      · rename_i he
        cases h
        exact checkLength_fault he
      · cases h
      · split at h
        · rename_i he
          cases h
          obtain ⟨j, hf, hj⟩ := embedChecksum_fault he
          have hs := State.read_eq_none_of_fillHeader hj
          exact ⟨j, hf, hs⟩
        · cases h

/-- `RX_HUNT` reads no buffer and never faults. -/
theorem rxHuntStep_ne_fault {s : State} {f : Fault} : rxHuntStep s ≠ .fault f := by
  intro h
  unfold rxHuntStep at h
  dsimp only at h
  split at h
  · cases h
  split at h
  · cases h
  unfold huntByte at h
  dsimp only at h
  split at h
  · unfold sofFound at h
    dsimp only at h
    split at h
    · cases h
    · split at h <;> cases h
  · cases h

/-- `TX_ACQ` never faults. -/
theorem txAcqStep_ne_fault {s : State} {f : Fault} : txAcqStep s ≠ .fault f := by
  intro h
  unfold txAcqStep at h
  split at h
  · cases h
  split at h
  · cases h
  split at h <;> cases h

/-- `TX_WAIT` never faults. -/
theorem txWaitStep_ne_fault {s : State} {f : Fault} : txWaitStep s ≠ .fault f := by
  intro h
  unfold txWaitStep at h
  split at h
  · cases h
  split at h <;> cases h

/-- `TX_CHK` never faults. -/
theorem txChkStep_ne_fault {s : State} {f : Fault} : txChkStep s ≠ .fault f := by
  intro h
  unfold txChkStep at h
  split at h <;> cases h

end Sys2Proof.Machine
end

