-- ==== Sys2Proof/Laws/PerInstr.lean ====
section
/-! SUPPORT. Statements about every instruction as syntax, one lemma per constructor of Instr. -/

namespace Sys2Proof.Laws

/-- An instruction's byte, numbered as the opcode table numbers it, decodes to the instruction (30_encoding.md R72, R78). -/
def WordDecodes.Statement (i : Instr) : Prop := decodeTableWord 8 (encode i).toNat = some i

theorem WordDecodes.nop : WordDecodes.Statement .nop := by unfold WordDecodes.Statement; decide
theorem WordDecodes.configure : WordDecodes.Statement .configure := by unfold WordDecodes.Statement; decide
theorem WordDecodes.cksumBsbTx : WordDecodes.Statement .cksumBsbTx := by unfold WordDecodes.Statement; decide
theorem WordDecodes.cksumBsbRx : WordDecodes.Statement .cksumBsbRx := by unfold WordDecodes.Statement; decide
theorem WordDecodes.cksumLpbTx : WordDecodes.Statement .cksumLpbTx := by unfold WordDecodes.Statement; decide
theorem WordDecodes.cksumLpbRx : WordDecodes.Statement .cksumLpbRx := by unfold WordDecodes.Statement; decide
theorem WordDecodes.cksumPpsTx : WordDecodes.Statement .cksumPpsTx := by unfold WordDecodes.Statement; decide
theorem WordDecodes.cksumPpsRx : WordDecodes.Statement .cksumPpsRx := by unfold WordDecodes.Statement; decide
theorem WordDecodes.receive : WordDecodes.Statement .receive := by unfold WordDecodes.Statement; decide
theorem WordDecodes.send : WordDecodes.Statement .send := by unfold WordDecodes.Statement; decide
theorem WordDecodes.sofBsbDc : WordDecodes.Statement .sofBsbDc := by unfold WordDecodes.Statement; decide
theorem WordDecodes.sofBsbDe : WordDecodes.Statement .sofBsbDe := by unfold WordDecodes.Statement; decide
theorem WordDecodes.sofLpb : WordDecodes.Statement .sofLpb := by unfold WordDecodes.Statement; decide
theorem WordDecodes.sofPps17 : WordDecodes.Statement .sofPps17 := by unfold WordDecodes.Statement; decide
theorem WordDecodes.sofPps1D : WordDecodes.Statement .sofPps1D := by unfold WordDecodes.Statement; decide
theorem WordDecodes.sofPps1E : WordDecodes.Statement .sofPps1E := by unfold WordDecodes.Statement; decide

end Sys2Proof.Laws
end

