-- ==== Sys2Proof/Laws/Step.lean ====
section
/-! SUPPORT. What one step can do: whose turn it is, and for the Engine's turn which operation runs. -/

namespace Sys2Proof.Machine

@[simp] theorem State.turned_eq_self {s : State} (h : s.agenda = []) : s.turned = s := by
  cases s
  cases h
  rfl

/-- The Engine's turn, written or left by an empty agenda. -/
theorem step_of_engineNext {s : State} (h : s.engineNext) : step s = engineStep s.turned := by
  unfold step
  rcases h with h | h
  · rw [h, State.turned_eq_self h]
  · cases ha : s.agenda with
    | nil => simp [State.nextTurn, ha] at h
    | cons t rest =>
      simp only [State.nextTurn, ha, List.head?_cons, Option.some.injEq] at h
      subst h
      simp [takeTurn, State.turned, ha]

/-- Any other agent's turn. -/
theorem step_of_nextTurn {s : State} {t : Turn} (h : s.nextTurn t) : step s = takeTurn t s.turned := by
  unfold step
  cases ha : s.agenda with
  | nil => simp [State.nextTurn, ha] at h
  | cons u rest =>
    simp only [State.nextTurn, ha, List.head?_cons, Option.some.injEq] at h
    subst h
    simp [State.turned, ha]

/-- Every step is the Engine's or another agent's turn. -/
theorem step_cases (s : State) :
    (s.engineNext ∧ step s = engineStep s.turned) ∨
      ∃ t, s.nextTurn t ∧ t ≠ .engine ∧ ¬ s.engineNext ∧ step s = takeTurn t s.turned := by
  by_cases h : s.engineNext
  · exact .inl ⟨h, step_of_engineNext h⟩
  · right
    cases ha : s.agenda with
    | nil => exact absurd (.inl ha) h
    | cons t rest =>
      have ht : s.nextTurn t := by simp [State.nextTurn, ha]
      refine ⟨t, ht, ?_, h, step_of_nextTurn ht⟩
      rintro rfl
      exact h (.inr ht)

/-- What one Engine step runs, by its phase: the accepted command's phase rule, an illegal command, or nothing. -/
inductive EngineRuns (s : State) : Result → Prop where
  | hold : EngineRuns s (.next s)
  | badOp (e : Reject) : s.phase = .exec → decodeCommand s.cmd = .error e →
      EngineRuns s (.next (s.raiseErr .badOp))
  | nop : s.phase = .exec → s.cmd = encode .nop → EngineRuns s (.next s.finishOk)
  | configure : s.phase = .exec → s.cmd = encode .configure →
      EngineRuns s (.next s.configureVariant.configureOwn.configureDest.finishOk)
  | cksum (i : Instr) (b : Buffer) (count : Nat → Nat) (engine : List Byte → Nat → Half) : s.phase = .exec →
      s.cmd = encode i → firstPhaseOf i = .exec → i ≠ .nop → i ≠ .configure →
      EngineRuns s (cksumStep b count engine s)
  | hunt : s.phase = .rxHunt → EngineRuns s (rxHuntStep s)
  | settle : s.phase = .rxSettle → s.cmd = encode .receive → EngineRuns s (rxSettleStep s)
  | byte : s.phase = .rxByte → s.cmd = encode .receive → EngineRuns s (rxByteStep s)
  | check : s.phase = .rxCheck → s.cmd = encode .receive → EngineRuns s (rxCheckStep s)
  | prep : s.phase = .txPrep → s.cmd = encode .send → EngineRuns s (txPrepStep s)
  | acq : s.phase = .txAcq → s.cmd = encode .send → EngineRuns s (txAcqStep s)
  | wait : s.phase = .txWait → s.cmd = encode .send → EngineRuns s (txWaitStep s)
  | chk : s.phase = .txChk → s.cmd = encode .send → EngineRuns s (txChkStep s)
  | offer : s.phase = .txByte → s.cmd = encode .send → EngineRuns s (txByteStep s)

/-- A legal command byte is the byte of its instruction. -/
theorem decodeCommand_eq_ok {b : Byte} {i : Instr} (h : decodeCommand b = .ok i) :
    b = encode i ∧ i.space = .command := by
  have key : ∀ b : Byte, ∀ i, decodeCommand b = .ok i → b = encode i ∧ i.space = .command := by
    have all : ∀ b : Byte, (match decodeCommand b with
        | .ok i => decide (b = encode i ∧ i.space = .command)
        | .error _ => true) = true := by decide
    intro b i hb
    have := all b
    rw [hb] at this
    simpa using this
  exact key b i h

theorem exec_runs_of_command {s : State} {i : Instr} (h : s.cmd = encode i) (hs : i.space = .command) :
    EngineRuns s (exec i s) := by
  have hold' : ∀ r, r = hold s → EngineRuns s r := fun r hr => hr ▸ EngineRuns.hold
  cases i <;> simp only [Instr.space, reduceCtorEq] at hs
  case nop =>
    show EngineRuns s (execNop s)
    unfold execNop
    by_cases hp : s.phase = .exec
    · rw [inExec_of_exec hp]; exact .nop hp h
    · exact hold' _ (by unfold inExec; split <;> simp_all)
  case configure =>
    show EngineRuns s (execConfigure s)
    unfold execConfigure
    by_cases hp : s.phase = .exec
    · rw [inExec_of_exec hp]; exact .configure hp h
    · exact hold' _ (by unfold inExec; split <;> simp_all)
  case receive =>
    show EngineRuns s (execReceive s)
    unfold execReceive
    split
    · exact .hunt (by assumption)
    · exact .settle (by assumption) h
    · exact .byte (by assumption) h
    · exact .check (by assumption) h
    all_goals exact .hold
  case send =>
    show EngineRuns s (execSend s)
    unfold execSend
    split
    · exact .prep (by assumption) h
    · exact .acq (by assumption) h
    · exact .wait (by assumption) h
    · exact .chk (by assumption) h
    · exact .offer (by assumption) h
    all_goals exact .hold
  all_goals
    show EngineRuns s (inExec _ s)
    by_cases hp : s.phase = .exec
    · rw [inExec_of_exec hp]
      exact .cksum _ _ _ _ hp h rfl (by decide) (by decide)
    · exact hold' _ (by unfold inExec; split <;> simp_all)

/-- A start-of-frame instruction runs the hunt or nothing. -/
theorem exec_runs_of_wire {s : State} {i : Instr} {v : Variant} (hs : i.space = .wire v) :
    EngineRuns s (exec i s) := by
  have key : ∀ w, EngineRuns s (sofByte w s) := by
    intro w
    unfold sofByte
    split
    · rename_i h
      exact .hunt h.1
    · exact .hold
  cases i <;> simp only [Instr.space, reduceCtorEq] at hs <;> exact key _

/-- What the fetch can answer. -/
theorem fetch_cases (s : State) :
    (s.phase = .idle ∧ s.fetch = none) ∨ (s.phase ≠ .idle ∧ s.fetch = some (decodeCommand s.cmd)) ∨
      ∃ r rest i, s.phase = .rxHunt ∧ s.receiveConfigured = true ∧ s.rxq = r :: rest ∧
        decodeWire s.variant r = .ok i ∧ s.fetch = some (.ok i) := by
  unfold State.fetch
  cases hp : s.phase
  case idle => exact .inl ⟨rfl, rfl⟩
  case rxHunt =>
    right
    dsimp only
    split
    · rename_i r rest hc hq
      cases hd : decodeWire s.variant r with
      | ok i => exact .inr ⟨r, rest, i, rfl, hc, hq, hd, rfl⟩
      | error e => exact .inl ⟨by decide, rfl⟩
    · exact .inl ⟨by decide, rfl⟩
  all_goals exact .inr (.inl ⟨by decide, rfl⟩)

/-- A wire byte that decodes is a start of frame. -/
theorem decodeWire_eq_ok {v : Variant} {w : Byte} {i : Instr} (h : decodeWire v w = .ok i) :
    sofInstr v (polarity v w) = some i ∧ i.space = .wire v := by
  unfold decodeWire at h
  split at h
  · rename_i j hj
    cases h
    refine ⟨hj, ?_⟩
    unfold sofInstr at hj
    split at hj <;> split_ifs at hj <;> cases hj <;> rfl
  · cases h

/-- THE INVERSION of the Engine's step. -/
theorem engineStep_runs (s : State) : EngineRuns s (engineStep s) := by
  unfold engineStep
  rcases fetch_cases s with ⟨-, hf⟩ | ⟨-, hf⟩ | ⟨r, rest, i, -, -, -, hd, hf⟩
  · rw [hf]
    exact .hold
  · rw [hf]
    cases hd : decodeCommand s.cmd with
    | ok i =>
      obtain ⟨h1, h2⟩ := decodeCommand_eq_ok hd
      exact exec_runs_of_command h1 h2
    | error e =>
      show EngineRuns s (badOpStep s)
      unfold badOpStep
      by_cases hp : s.phase = .exec
      · rw [inExec_of_exec hp]
        exact .badOp e hp hd
      · have : inExec (fun s => Host.Outcome.next (s.raiseErr .badOp)) s = hold s := by
          unfold inExec
          split <;> simp_all
        rw [this]
        exact .hold
  · rw [hf]
    exact exec_runs_of_wire (decodeWire_eq_ok hd).2

end Sys2Proof.Machine
end

