-- ==== Sys2Proof/Tests/Slice0.lean ====
section
/-! SUPPORT. The model's own tests: the well-formedness checks, decoding from words written out from the encoding tables,
the vectors of 95_test_vectors.md one step at a time, and for every obligation with hypotheses a concrete state that
meets them. -/

namespace Sys2Proof.Tests

open Sys2Proof Sys2Proof.Machine

/-! ## Well-formedness: an ill-formed term for each check -/

theorem test_wf_rsv : (cmdFields 0b00100001).rsvOk = false := by decide
theorem test_wf_op : (cmdFields 0b00000111).opOk = false := by decide
theorem test_wf_bufsel : (cmdFields 0b00010101).bufselOk = false ∧ (cmdFields 0b00010011).bufselOk = true := by decide
theorem test_wf_cmd : (cmdFields 0b11110000).wellFormed = false ∧ (cmdFields 0b00000110).wellFormed = true := by decide
theorem test_wf_bufCap : ({ Params.default with bufCap := 32 } : Params).wellFormed = false ∧
    ({ Params.default with bufCap := 65 } : Params).wellFormed = false ∧
    ({ Params.default with bufCap := 33 } : Params).wellFormed = true := by decide
theorem test_wf_backoff : ({ Params.default with backoffMin := 86 } : Params).wellFormed = false := by decide
theorem test_wf_fifo : ({ Params.default with rxFifoDepth := 0 } : Params).wellFormed = false := by decide

/-! ## Decoding, every constructor, from the words of 30_encoding.md R71, R72 (RSV, BUFSEL, OP) and R78 -/

theorem test_decode_nop : decodeCommand 0b00000000 = .ok .nop := by decide
theorem test_decode_configure : decodeCommand 0b00000001 = .ok .configure := by decide
theorem test_decode_cksumBsbTx : decodeCommand 0b00000010 = .ok .cksumBsbTx := by decide
theorem test_decode_cksumBsbRx : decodeCommand 0b00010010 = .ok .cksumBsbRx := by decide
theorem test_decode_cksumLpbTx : decodeCommand 0b00000011 = .ok .cksumLpbTx := by decide
theorem test_decode_cksumLpbRx : decodeCommand 0b00010011 = .ok .cksumLpbRx := by decide
theorem test_decode_cksumPpsTx : decodeCommand 0b00000100 = .ok .cksumPpsTx := by decide
theorem test_decode_cksumPpsRx : decodeCommand 0b00010100 = .ok .cksumPpsRx := by decide
theorem test_decode_receive : decodeCommand 0b00000101 = .ok .receive := by decide
theorem test_decode_send : decodeCommand 0b00000110 = .ok .send := by decide
theorem test_decode_sofBsbDc : decodeWire .bsb 0b00100011 = .ok .sofBsbDc := by decide
theorem test_decode_sofBsbDe : decodeWire .bsb 0b00100001 = .ok .sofBsbDe := by decide
theorem test_decode_sofLpb : decodeWire .lpb 0b10000111 = .ok .sofLpb := by decide
theorem test_decode_sofPps17 : decodeWire .pps 0b00010111 = .ok .sofPps17 := by decide
theorem test_decode_sofPps1D : decodeWire .pps 0b00011101 = .ok .sofPps1D := by decide
theorem test_decode_sofPps1E : decodeWire .pps 0b00011110 = .ok .sofPps1E := by decide

/-- The illegal bytes of V-G6 (30_encoding.md R84). -/
theorem test_decode_illegal : decodeCommand 0x07 = .error .unassignedOp ∧ decodeCommand 0x15 = .error .bufselNotAllowed ∧
    decodeCommand 0x21 = .error .reservedBits ∧ decodeCommand 0xF0 = .error .reservedBits := by decide

/-- V-P4 and V-P30: a byte of the wrong polarity is no start of frame. -/
theorem test_decode_polarity : decodeWire .bsb 0xDC = .error .notSof ∧ decodeWire .pps 0xE2 = .error .notSof := by decide

theorem test_decode_stream : decodeBytes .command [0x12, 0x05] = .ok (.cksumBsbRx, [0x05]) ∧
    decodeBytes .command [] = .error .noByte := by decide

/-! ## Small states -/

/-- A buffer with the given bytes from index 0. -/
def bufOf (bs : List Byte) : Memory := bs.zipIdx.map fun p => (p.2, p.1)

/-- "Configured BSB" (95_test_vectors.md). -/
def bsb : State :=
  { State.reset with
    variant := .bsb, own := 0x21, dest := 0x01, validV := true, validO := true, validD := true, lenIdx := 3 }

/-- "Configured LPB" (95_test_vectors.md). -/
def lpb : State := { bsb with variant := .lpb, own := 0x42, dest := 0x00, lenIdx := 1 }

/-- "Configured PPS" (95_test_vectors.md). -/
def pps : State := { bsb with variant := .pps, own := 0x01, dest := 0x00, validD := false, lenIdx := 9 }

/-- A command accepted (20_memory.md R54). -/
def cmd (s : State) (i : Instr) : State := s.accept (encode i)

/-- A CKSUM operation with length operand `n` over the bytes `bs` in both buffers. -/
def cks (i : Instr) (n : Byte) (bs : List Byte) : State :=
  { State.reset with arg := n, txbuf := bufOf bs, rxbuf := bufOf bs }.accept (encode i)

/-- The next state of a result, or a given state. -/
def after (r : Result) (s : State) : State :=
  match r with
  | .next t => t
  | .fault _ => s
  | .refused _ => s

/-- The frame of V-C3. -/
def frame11 : List Byte := [0xDC, 0xA1, 0x01, 0x0B, 0x00, 0xD5, 0x00, 0x00, 0x00, 0xA8, 0x3A]

/-! ## The checksum engines (V-C1, V-C2, V-C3, V-C6, V-C7) -/

theorem test_crcBsb_check : crcBsb [0x31, 0x32, 0x33, 0x34, 0x35, 0x36, 0x37, 0x38, 0x39] = 0x31C3 := by decide +kernel
theorem test_crcBsb_small : crcBsb [0x80] = 0x9188 ∧ crcBsb [0xDC, 0xA1, 0x01, 0x04] = 0x1E28 := by decide +kernel
theorem test_crcBsb_residue : crcBsb frame11 = 0 ∧ crcBsb (frame11.take 9) = 0xA83A := by decide +kernel
theorem test_crcLpb : crcLpb [0x78, 0x0D, 0, 0x42, 0, 0, 0, 0, 0, 6, 0x3D, 5] 13 = 0xF51A ∧ crcLpb [] 0 = 0x00FE ∧
    crcLpb [] 1 = 0xFFFF ∧ crcLpb [0x78] 2 = 0xFF78 := by decide
theorem test_crcPps : crcPps [0x1E, 1, 2, 3, 4, 5, 6, 7, 8] = 0xBE ∧ crcPps [] = 0 ∧ crcPps [0x80, 0x80] = 0 ∧
    crcPps [0x01] = 0xFF := by decide

/-! ## One step of each instruction -/

/-- V-G5. -/
theorem test_nop : (after (exec .nop (cmd bsb .nop)) bsb).status = 0x06 := by decide

/-- V-G1. -/
theorem test_configure :
    let t := after (exec .configure
      (cmd { State.reset with newVariant := 0, newOwn := 0x21, newDest := 0x01 } .configure)) State.reset
    t.own = 0x21 ∧ t.dest = 0x01 ∧ t.lenIdx = 3 ∧ t.cfgValid = 0x07 ∧ t.status = 0x06 := by decide

/-- V-G3: code 3 and the sentinel keep what was there. -/
theorem test_configure_sentinel :
    let t := after (exec .configure (cmd { pps with newDest := 0x05 } .configure)) State.reset
    t.variant = .pps ∧ t.own = 0x01 ∧ t.dest = 0x05 ∧ t.lenIdx = 9 := by decide

/-- V-G10's shape on BSB: `CKSUM.BSB TX`; V-G7: above the capacity. -/
theorem test_cksumBsbTx : (after (exec .cksumBsbTx (cks .cksumBsbTx 1 [0x80])) bsb).cksum = 0x9188 ∧
    (after (exec .cksumBsbTx (cks .cksumBsbTx 0x41 [])) bsb).status = 0x62 := by decide +kernel

/-- V-G8. -/
theorem test_cksumBsbRx : (after (exec .cksumBsbRx (cks .cksumBsbRx 9 frame11)) bsb).cksum = 0xA83A := by decide +kernel

/-- V-G11. -/
theorem test_cksumLpbTx : (after (exec .cksumLpbTx (cks .cksumLpbTx 0 [])) bsb).cksum = 0x00FE := by decide

/-- V-G9, V-G13. -/
theorem test_cksumLpbRx :
    (after (exec .cksumLpbRx (cks .cksumLpbRx 13 [0x78, 0x0D, 0, 0x42, 0, 0, 0, 0, 0, 6, 0x3D, 5])) bsb).cksum = 0xF51A ∧
    exec .cksumLpbRx (cks .cksumLpbRx 14 [0x78, 0x0D, 0, 0x42, 0, 0, 0, 0, 0, 6, 0x3D, 5]) =
      .fault (.unwrittenByte .rx 12) := ⟨by decide, rfl⟩

/-- V-G10. -/
theorem test_cksumPpsTx :
    (after (exec .cksumPpsTx (cks .cksumPpsTx 9 [0x1E, 1, 2, 3, 4, 5, 6, 7, 8])) bsb).cksum = 0x00BE := by decide

/-- P5, line 5. -/
theorem test_cksumPpsRx :
    (after (exec .cksumPpsRx (cks .cksumPpsRx 12 [0x78, 0x0D, 0, 0x42, 0, 0, 0, 0, 0, 6, 0x3D, 5])) bsb).cksum = 0x00F1 := by
  decide

/-- V-P31: nothing is popped. -/
theorem test_receive_unconfigured :
    let t := after (exec .receive (cmd { State.reset with rxq := [0x23] } .receive)) bsb
    t.status = 0x72 ∧ t.rxlen = 0 ∧ t.rxq = [0x23] := by decide

/-- V-P5: the step that stores an insane length field. -/
theorem test_receive_insane :
    let t := after (exec .receive { cmd { bsb with rxq := [0xDE], rxbuf := bufOf [0xDC, 0xA1, 0x01] } .receive with
      phase := .rxByte, i := 3, li := 3 }) bsb
    t.status = 0x22 ∧ t.rxlen = 4 ∧ t.rxbuf.read 3 = some 0x21 := by decide

/-- V-T1's preparation. -/
theorem test_send_prep :
    let t := after (exec .send (cmd { bsb with txbuf := [(3, 0x0B), (4, 0), (5, 0xD5), (6, 0), (7, 0), (8, 0)] } .send)) bsb
    t.txbuf = bufOf frame11 ∧ t.cksum = 0xA83A ∧ t.phase = .txAcq := by decide +kernel

/-- V-T3's collision: the fourth byte is refused. -/
theorem test_send_collision :
    let s := { cmd { lpb with txbuf := bufOf [0x78, 0x0D, 0x00, 0x42], acceptDraws := [0] } .send with
      phase := .txByte, k := 3, sendLen := 14 }
    let t := after (exec .send s) bsb
    t.phase = .txAcq ∧ t.offered = [{ data := 0xBD, accepted := 0 }] ∧ t.csActive = false := by decide

/-- V-P1's first byte. -/
theorem test_sofBsbDc :
    let t := after (exec .sofBsbDc (cmd { bsb with rxq := [0x23, 0x5E] } .receive)) bsb
    t.rxbuf = [(0, 0xDC)] ∧ t.rxq = [0x5E] ∧ t.li = 3 ∧ t.phase = .rxSettle := by decide

theorem test_sofBsbDe :
    let t := after (exec .sofBsbDe (cmd { bsb with rxq := [0x21] } .receive)) bsb
    t.rxbuf = [(0, 0xDE)] ∧ t.i = 1 := by decide

/-- V-P17's first byte. -/
theorem test_sofLpb :
    let t := after (exec .sofLpb (cmd { lpb with rxq := [0x87] } .receive)) bsb
    t.rxbuf = [(0, 0x78)] ∧ t.li = 1 := by decide

/-- V-P23: the short frame; V-P27: with another own address a long frame. -/
theorem test_sofPps17 :
    (let t := after (exec .sofPps17 (cmd { pps with rxq := [0x17, 0x1D] } .receive)) bsb
     t.status = 0x06 ∧ t.rxlen = 1 ∧ t.rxq = [0x1D] ∧ t.ppsOvrPend = true) ∧
    (let t := after (exec .sofPps17 (cmd { pps with own := 5, rxq := [0x17] } .receive)) bsb
     t.phase = .rxSettle ∧ t.li = 9) := by decide

/-- V-P24: the override with a draw of 8. -/
theorem test_sofPps1D :
    let t := after (exec .sofPps1D
      (cmd { pps with rxq := [0x1D], ppsOvrPend := true, ppsLiDraws := [8] } .receive)) bsb
    t.li = 8 ∧ t.ppsOvrPend = false ∧ t.lenIdx = 9 := by decide

theorem test_sofPps1E :
    let t := after (exec .sofPps1E (cmd { pps with rxq := [0x1E] } .receive)) bsb
    t.li = 9 ∧ t.rxbuf = [(0, 0x1E)] := by decide

/-- V-G14, V-G15. -/
theorem test_host_reset_reads : State.reset.hostRead 0x06 = .ok 0x03 ∧ State.reset.hostRead 0x07 = .ok 0xFF ∧
    State.reset.hostRead 0x20 = .ok 0x00 ∧ State.reset.hostRead 0xC0 = .ok 0x00 ∧
    State.reset.hostRead 0x40 = .error (.unwrittenByte .tx 0) := by decide

/-- A table row's word, placed and stepped (V-P31's start configured for BSB by the placement). -/
theorem test_withFetchWord :
    (after (step (State.reset.withFetchWord 8 0x00)) bsb).status = 0x06 ∧
    (after (step (State.reset.withFetchWord 8 0x23)) bsb).rxbuf = [(0, 0xDC)] := by decide

/-- P2's first lines, a stray byte discarded: `ENV rx_arrive(0x00, 0x23)`, `CFG 0, 0x21, 0x01`, `RECEIVE`. -/
theorem test_program :
    let p := programTurns [(.arrive [0x00, 0x23], 0), (.cfg 0x00 0x21 0x01, 1), (.command .receive, 2)]
    let t := after (core.run p.length { State.reset with agenda := p }) bsb
    p.length = 11 ∧ t.rxbuf = [(0, 0xDC)] ∧ t.rxq = [] ∧ t.phase = .rxSettle ∧ t.agenda = [] := by decide

/-- V-P23 and the start of V-P24 with no `DRAW`: the default is `pps_li = 8` (policy 4 of 95_test_vectors.md). -/
theorem test_program_default :
    let p := programTurns [(.cfg 0x02 0x01 0xFF, 1), (.arrive [0x17, 0x1D], 0), (.command .receive, 1), (.command .receive, 1)]
    let t := after (core.run p.length { State.reset with agenda := p }) bsb
    t.li = 8 ∧ t.phase = .rxSettle ∧ t.ppsOvrPend = false := by decide

/-- P1's lines 1 and 2: the first read finds `DONE = 0` and the Engine moves; the second gives 06 and ends the loop. -/
theorem test_waitDone :
    let p := programTurns [(.cfg 0x00 0x21 0x01, 0), (.waitDone [.engine], 0)]
    let s := { State.reset with agenda := p }
    (after (core.run 6 s) bsb).hostData = 0x01 ∧ (after (core.run 8 s) bsb).hostData = 0x06 ∧
      (after (core.run 8 s) bsb).agenda = [] := by decide

/-- U6 of 93_implementation_defined.md is a run: junk before every hunt step, and after each round the same state. -/
theorem test_endless_hunt :
    let s := { cmd bsb .receive with agenda := [.waitDone [.transport (.rxArrive 0x00), .engine]], hostData := 0x01 }
    core.run 3 s = .next s := by rfl

/-! ## Witnesses: for each obligation with hypotheses, states and operands that meet them, clause by clause -/

/-- A state with one turn to come. -/
def turn (s : State) (t : Turn) : State := { s with agenda := [t] }

/-- A state in a phase. -/
def inPhase (s : State) (i : Instr) (p : Phase) : State := { cmd s i with phase := p }

theorem witness_resetEvent : (turn bsb .reset).nextTurn .reset := rfl

theorem witness_stepRunsFetched :
    ((cmd bsb .send).engineNext ∧ (cmd bsb .send).fetch = some (.ok .send) ∧ (cmd bsb .send).agenda = []) ∧
    ((turn (cmd bsb .nop) .engine).engineNext ∧ (turn (cmd bsb .nop) .engine).fetch = some (.ok .nop)) :=
  ⟨⟨.inl rfl, by decide, rfl⟩, .inr rfl, by decide⟩

theorem witness_fetch :
    (State.reset.phase = .idle) ∧
    (let s := cmd { pps with rxq := [0x1E] } .receive
     s.phase = .rxHunt ∧ s.receiveConfigured = true ∧ Instr.sofPps1E.space = .wire s.variant ∧
      s.rxq = encode .sofPps1E :: []) ∧
    (let s := cmd bsb .cksumPpsRx
     s.phase ≠ .idle ∧ s.phase ≠ .rxHunt ∧ Instr.cksumPpsRx.space = .command ∧ s.cmd = encode .cksumPpsRx) ∧
    (let s := cmd { bsb with rxq := [0xDC] } .receive
     s.phase = .rxHunt ∧ s.cmd = encode .receive ∧ s.rxq = 0xDC :: [] ∧ logicalByte s.variant 0xDC ∉ sofValues s.variant) ∧
    (∀ p ∈ [cmd bsb .receive, cmd { State.reset with rxq := [0x23] } .receive, cmd { pps with validO := false, rxq := [0x17] } .receive],
      p.phase = .rxHunt ∧ p.cmd = encode .receive ∧ (p.rxq = [] ∨ p.receiveConfigured = false)) := by
  decide

theorem witness_decodeInvertsEncode :
    Instr.sofLpb.wellFormed = true ∧ decode (.wire .lpb) 0x87 = .ok .sofLpb ∧ decode .command 0x14 = .ok .cksumPpsRx := by
  decide

theorem witness_illegalCommand :
    let s := bsb.accept 0x15
    s.engineNext ∧ s.phase = .exec ∧ decodeCommand s.cmd = .error .bufselNotAllowed := ⟨.inl rfl, by decide, by decide⟩

theorem witness_nop : (cmd bsb .nop).phase = .exec ∧ (cmd bsb .nop).cmd = encode .nop := by decide

theorem witness_configure : (cmd bsb .configure).phase = .exec ∧ (cmd bsb .configure).cmd = encode .configure := by decide

theorem witness_configureTwice :
    let s := cmd { bsb with newVariant := 1 } .configure
    let u := cmd { pps with newVariant := 1 } .configure
    s.phase = .exec ∧ u.phase = .exec ∧ s.newVariant = u.newVariant ∧ s.newVariant ≠ 3 ∧
      exec .configure s = .next (after (exec .configure s) s) ∧ exec .configure u = .next (after (exec .configure u) u) :=
  ⟨by decide, by decide, by decide, by decide, rfl, rfl⟩

/-- Of both buffers and the three engines: `n` just above `BUF_CAP`, `n` at `BUF_CAP` with every byte written, and `n` at
`BUF_CAP` with the first or the last byte read unwritten. -/
theorem witness_cksum : ∀ b ∈ [(Instr.cksumBsbTx, 0), (.cksumBsbRx, 0), (.cksumPpsTx, 0), (.cksumPpsRx, 0),
      (.cksumLpbTx, 1), (.cksumLpbRx, 1)],
    (cks b.1 65 []).phase = .exec ∧ (cks b.1 65 []).cmd = encode b.1 ∧ (cks b.1 65 []).params.bufCap < (cks b.1 65 []).n.toNat ∧
    (cks b.1 64 []).n.toNat ≤ (cks b.1 64 []).params.bufCap ∧
    (let F := List.replicate (64 - b.2) (0xFF : Byte)
     F.length = (cks b.1 64 F).n.toNat - b.2 ∧ (∀ j, j < F.length → (cks b.1 64 F).txbuf.read j = F[j]?) ∧
      ∀ j, j < F.length → (cks b.1 64 F).rxbuf.read j = F[j]?) ∧
    (cks b.1 64 []).rxbuf.read 0 = none ∧ (cks b.1 64 []).txbuf.read 0 = none ∧
    (let F := List.replicate (63 - b.2) (0 : Byte)
     (cks b.1 64 F).rxbuf.read (63 - b.2) = none ∧ 63 - b.2 < (cks b.1 64 F).n.toNat - b.2 ∧
      ∀ l, l < 63 - b.2 → (cks b.1 64 F).rxbuf.read l ≠ none ∧ (cks b.1 64 F).txbuf.read l ≠ none) := by
  decide +kernel

theorem witness_crcLinear : ([0x01] : List Byte).length = ([0x80] : List Byte).length := by decide

theorem witness_detect : 10 < frame11.length ∧ frame11[10]? ≠ some 0x3B := by decide

theorem witness_hunt :
    (let s := cmd State.reset .receive
     s.phase = .rxHunt ∧ s.cmd = encode .receive ∧ s.validV = false) ∧
    (let s := cmd { pps with validO := false } .receive
     s.phase = .rxHunt ∧ s.variant = .pps ∧ s.validO = false) ∧
    (let s := cmd bsb .receive
     s.phase = .rxHunt ∧ s.cmd = encode .receive ∧ s.validV = true ∧ (s.variant = .pps → s.validO = true) ∧ s.rxq = []) ∧
    (let s := cmd { lpb with rxq := [0x23] } .receive
     s.phase = .rxHunt ∧ s.validV = true ∧ (s.variant = .pps → s.validO = true) ∧ s.rxq = 0x23 :: [] ∧
      logicalByte s.variant 0x23 ∉ sofValues s.variant) := by decide

/-- Each of the six start-of-frame bytes under its variant, with another own address than 1 for PPS 0x17. -/
theorem witness_startOfFrame : ∀ p ∈ [(bsb, Instr.sofBsbDc), (bsb, .sofBsbDe), (lpb, .sofLpb),
      ({ pps with own := 0x05 }, .sofPps17), (pps, .sofPps1D), (pps, .sofPps1E)],
    let s := cmd { p.1 with rxq := [encode p.2] } .receive
    p.2.space = .wire s.variant ∧ s.phase = .rxHunt ∧ s.validV = true ∧ (s.variant = .pps → s.validO = true) ∧
      s.rxq = encode p.2 :: [] ∧ (p.2 = .sofPps17 → s.own ≠ 1) ∧ (s.variant = .pps → s.ppsOvrPend = false) := by decide

theorem witness_ppsShort :
    let s := cmd { pps with rxq := [0x17] } .receive
    s.phase = .rxHunt ∧ s.cmd = encode .receive ∧ s.variant = .pps ∧ s.validV = true ∧ s.validO = true ∧ s.own = 1 ∧
      s.rxq = 0x17 :: [] := by decide

/-- The override with a draw of 8, of 9, of the neighbours 7 and 10, and with none. -/
theorem witness_ppsOverride : ∀ ds ∈ [([8] : List Byte), [9], [7], [10], []],
    let s := cmd { pps with rxq := [0x1D], ppsOvrPend := true, ppsLiDraws := ds } .receive
    s.variant = .pps ∧ Instr.sofPps1D.space = .wire .pps ∧ s.phase = .rxHunt ∧ s.validV = true ∧ s.validO = true ∧
      s.rxq = encode .sofPps1D :: [] ∧ s.ppsOvrPend = true ∧ s.ppsLiDraws = ds := by decide

theorem witness_settleTimeoutHold :
    (inPhase bsb .receive .rxSettle).phase = .rxSettle ∧
    (let s := { inPhase bsb .receive .rxByte with timeout := true, rxq := [0x00] }
     s.phase = .rxByte ∧ s.timeout = true) ∧
    (let s := inPhase bsb .receive .rxByte
     s.phase = .rxByte ∧ s.timeout = false ∧ s.rxq = []) := by decide

/-- A capture of BSB bytes: `F` stored, the next wire byte waiting. -/
def capture (F : List Byte) (w : Byte) : State :=
  { inPhase { bsb with params := { Params.default with bufCap := 33 }, rxq := [w], rxbuf := bufOf F } .receive .rxByte with
    i := BitVec.ofNat 8 F.length, li := 3 }

theorem witness_byteStep :
    (∀ s ∈ [capture (List.replicate 33 0) 0x00, capture [0xDC, 0xA1] 0xFE, capture [0xDC, 0xA1, 0x01] 0xDE,
        capture [0xDC, 0xA1, 0x01] 0xDF, capture [0xDC, 0xA1, 0x01] 0xFB],
      s.params.wellFormed = true ∧ s.phase = .rxByte ∧ s.cmd = encode .receive ∧ s.timeout = false ∧ s.rxq ≠ []) ∧
    (capture (List.replicate 33 0) 0x00).params.bufCap ≤ (capture (List.replicate 33 0) 0x00).i.toNat ∧
    ((capture [0xDC, 0xA1] 0xFE).i.toNat < 3 ∧ (capture [0xDC, 0xA1] 0xFE).i.toNat < 33) ∧
    ((Memory.write (bufOf [0xDC, 0xA1, 0x01]) 3 (logicalByte .bsb 0xDE)).read 3 = some 33) ∧
    ((Memory.write (bufOf [0xDC, 0xA1, 0x01]) 3 (logicalByte .bsb 0xDF)).read 3 = some 32) ∧
    ((Memory.write (bufOf [0xDC, 0xA1, 0x01]) 3 (logicalByte .bsb 0xFB)).read 3 = some 4) := by decide

/-- The declared lengths of the last two captures: 32, above the count, and 4, which it reaches. -/
theorem witness_byteStep_declares :
    ({ capture [0xDC, 0xA1, 0x01] 0xDF with rxbuf := bufOf [0xDC, 0xA1, 0x01, 0x20] } : State).declares 32 ∧
    ({ capture [0xDC, 0xA1, 0x01] 0xFB with rxbuf := bufOf [0xDC, 0xA1, 0x01, 0x04] } : State).declares 4 :=
  ⟨⟨0x20, rfl, rfl⟩, ⟨0x04, rfl, rfl⟩⟩

/-- The end of a capture of `n` bytes that declared `e`. -/
def checking (s : State) (n : Byte) (e : Nat) (F : List Byte) : State :=
  { inPhase { s with rxbuf := bufOf F } .receive .rxCheck with i := n, li := lenIdxOf s.variant, declLen := e }

theorem witness_wrongLength :
    (let s := checking bsb 3 0 [0xDC, 0xA1, 0x01]
     s.phase = .rxCheck ∧ s.cmd = encode .receive ∧ s.i.toNat ≤ s.li.toNat) ∧
    (let s := checking bsb 4 5 [0xDC, 0xA1, 0x01, 0x05]
     s.phase = .rxCheck ∧ s.cmd = encode .receive ∧ s.i.toNat ≠ s.declLen) := by decide

/-- For each variant a frame that verifies and one that does not. -/
theorem witness_checksumCheck :
    (∀ F ∈ [frame11, frame11.set 5 0xD4],
      let s := checking bsb 11 11 F
      s.phase = .rxCheck ∧ s.cmd = encode .receive ∧ s.li.toNat < s.i.toNat ∧ s.i.toNat = s.declLen ∧
        F.length = s.declLen ∧ (∀ j, j < F.length → s.rxbuf.read j = F[j]?)) ∧
    (∀ F ∈ [([0x78, 0x01] : List Byte), [0xFF, 0xFE]],
      let s := checking lpb 2 2 F
      s.li.toNat < s.i.toNat ∧ s.i.toNat = s.declLen ∧ F.length = s.declLen ∧
        (∀ j, j < F.length → s.rxbuf.read j = F[j]?) ∧ F = [] ++ [F[0]!, F[1]!]) ∧
    (∀ F ∈ [([0x1E, 1, 2, 3, 4, 5, 6, 7, 8, 0xBE] : List Byte), [0x1E, 1, 2, 3, 4, 5, 6, 7, 8, 0xBF]],
      let s := checking pps 10 10 F
      s.li.toNat < s.i.toNat ∧ s.i.toNat = s.declLen ∧ s.declLen = s.li.toNat + 1 ∧ F.length = s.declLen ∧
        (∀ j, j < F.length → s.rxbuf.read j = F[j]?) ∧ F = F.take 9 ++ [F[9]!]) := by decide +kernel

/-- V-P1 with a stray byte behind the frame. -/
theorem witness_receiveBsb :
    let s := cmd { bsb with rxq := frame11.map (fun b => b ^^^ 0xFF) ++ [0x23] } .receive
    s.params.wellFormed = true ∧ s.agenda = [] ∧ s.phase = .rxHunt ∧ s.cmd = encode .receive ∧ s.variant = .bsb ∧
      s.validV = true ∧ s.lenIdx = 3 ∧ s.timeout = false ∧ frame11[0]? = some 0xDC ∧
      frame11[3]? = some (BitVec.ofNat 8 frame11.length) ∧ frame11.length ≤ 32 ∧ crcBsb frame11 = 0 ∧
      s.rxq = frame11.map (fun b => b ^^^ 0xFF) ++ [0x23] := by decide +kernel

/-- The invariant of a state whose command has just been accepted or that is idle, from its decidable parts. -/
theorem inv_of_parts {s : State} (h : s.params.wellFormed = true ∧ s.BuffersOk ∧ s.QueueOk ∧ s.OutputsQuiet ∧ s.StatusOk ∧
    s.ConfigOk ∧ s.phase.capturing = false) (hs : s.SendOk) (hc : s.phase.start = none ∨ s.phase.start = some (firstPhase s.cmd)) :
    s.Inv where
  params := h.1
  buffers := h.2.1
  queue := h.2.2.1
  outputs := h.2.2.2.1
  status := h.2.2.2.2.1
  config := h.2.2.2.2.2.1
  command := by
    intro p hp
    rcases hc with hc | hc
    · rw [hc] at hp
      cases hp
    · rw [hc] at hp
      exact Option.some.inj hp
  capture := by
    intro h'
    rw [h.2.2.2.2.2.2] at h'
    cases h'
  send := hs

/-- A prepared BSB frame at the check after the wait, every offer to be accepted. -/
def sendable : State :=
  { inPhase { bsb with txbuf := bufOf frame11, acceptDraws := List.replicate 11 1 } .send .txChk with sendLen := 11 }

theorem witness_sendable_inv : sendable.Inv :=
  inv_of_parts (by decide)
    (fun _ => ⟨by decide, by decide, by decide, by decide, rfl, fun h => absurd h (by decide), fun h => absurd h (by decide)⟩)
    (.inr (by decide))

theorem witness_sendFrame :
    sendable.agenda = [] ∧ sendable.phase = .txChk ∧ sendable.elapsed sendable.t0 ≤ 1000 ∧
      frame11.length = sendable.sendLen ∧ (∀ j, j < frame11.length → sendable.txbuf.read j = frame11[j]?) ∧
      sendable.params.forceAccept = false ∧ sendable.acceptDraws = List.replicate frame11.length 1 := by decide

/-- A capture right after its start of frame. -/
def settling : State :=
  { inPhase { bsb with rxbuf := [(0, 0xDC)], rxq := [0x5E] } .receive .rxSettle with i := 1, li := 3 }

theorem witness_settling_inv : settling.Inv where
  params := by decide
  buffers := by decide
  queue := by decide
  outputs := by decide
  status := by decide
  config := by decide
  command := by
    intro p hp
    cases hp
    decide
  capture := fun _ => ⟨by decide, by decide, by decide, by decide, by decide, by decide, by decide,
    fun h => absurd h (by decide), fun h => absurd h (by decide)⟩
  send := fun h => absurd h (by decide)

theorem witness_neverOverflows : settling.engineNext ∧ settling.phase.capturing = true ∧
    step settling = .next (after (step settling) bsb) := ⟨.inl rfl, rfl, rfl⟩

/-- A send about to be prepared, the length field `v` in place. -/
def preparing (s : State) (v : Byte) : State := cmd { s with txbuf := [(s.lenIdx.toNat, v)] } .send

theorem witness_prepareRejects :
    (let s := cmd State.reset .send
     s.phase = .txPrep ∧ s.cmd = encode .send ∧ s.validV = false) ∧
    (let s := cmd { bsb with validD := false } .send
     s.phase = .txPrep ∧ s.variant ≠ .pps ∧ s.validD = false) ∧
    (∀ p ∈ [(bsb, (33 : Byte)), (bsb, 5), (lpb, 33), (lpb, 4)],
      let s := preparing p.1 p.2
      s.phase = .txPrep ∧ s.cmd = encode .send ∧ s.validV = true ∧ s.validO = true ∧ s.validD = true ∧
        s.lenIdx = lenIdxOf s.variant ∧ s.variant ≠ .pps ∧ s.txbuf.read s.lenIdx.toNat = some p.2 ∧
        (32 < p.2.toNat ∨ (if s.variant = .bsb then p.2.toNat else p.2.toNat + 1) < 6)) ∧
    (let s := preparing { lpb with params := { Params.default with bufCap := 32 } } 32
     s.lenIdx = lenIdxOf s.variant ∧ s.txbuf.read s.lenIdx.toNat = some 32 ∧ s.params.bufCap < 33) ∧
    (let s := cmd bsb .send
     s.lenIdx = lenIdxOf s.variant ∧ s.txbuf.read s.lenIdx.toNat = none) ∧
    (let s := cmd { pps with params := { Params.default with bufCap := 9 } } .send
     s.lenIdx = lenIdxOf s.variant ∧ s.variant = .pps ∧ s.params.bufCap < 10) := by decide

/-- The shortest and the longest BSB frame. -/
theorem witness_prepareBsb :
    (∀ p ∈ [([(3, (6 : Byte))], (6 : Byte)), ((List.range 32).map (fun j => (j, (32 : Byte))), 32)],
      let s := cmd { bsb with txbuf := p.1 } .send
      s.params.wellFormed = true ∧ s.phase = .txPrep ∧ s.variant = .bsb ∧ s.validV = true ∧ s.validO = true ∧
        s.validD = true ∧ s.lenIdx = 3 ∧ s.txbuf.read 3 = some p.2 ∧ 6 ≤ p.2.toNat ∧ p.2.toNat ≤ 32 ∧
        ∀ j, j < p.2.toNat - 2 → 4 ≤ j → s.txbuf.read j ≠ none) := by decide

/-- The shortest and the longest LPB frame. -/
theorem witness_prepareLpb :
    (∀ p ∈ [([(1, (5 : Byte))], (5 : Byte)), ((List.range 33).map (fun j => (j, (32 : Byte))), 32)],
      let s := cmd { lpb with txbuf := p.1 } .send
      s.params.wellFormed = true ∧ s.phase = .txPrep ∧ s.variant = .lpb ∧ s.validV = true ∧ s.validO = true ∧
        s.validD = true ∧ s.lenIdx = 1 ∧ s.txbuf.read 1 = some p.2 ∧ 5 ≤ p.2.toNat ∧ p.2.toNat ≤ 32 ∧
        ∀ j, j < p.2.toNat - 1 → 4 ≤ j → s.txbuf.read j ≠ none) := by decide

theorem witness_preparePps :
    let G : List Byte := [0x1D, 0, 0, 0, 0, 0, 0, 0, 0]
    let s := cmd { pps with txbuf := bufOf G } .send
    s.params.wellFormed = true ∧ s.phase = .txPrep ∧ s.variant = .pps ∧ s.validV = true ∧ s.lenIdx = 9 ∧ G.length = 9 ∧
      ∀ j, j < G.length → s.txbuf.read j = G[j]? := by decide

/-- `TX_ACQ` just past the deadline and exactly at it, with and without a draw, at both ends of the range and outside. -/
theorem witness_acquire :
    (∀ p ∈ [(bsb, (1001 : Millis)), (bsb, 1000), (pps, 1000)],
      let s := { inPhase p.1 .send .txAcq with ms := p.2 }
      s.params.wellFormed = true ∧ s.phase = .txAcq ∧ s.cmd = encode .send ∧ (s.ms - s.t0).toNat = p.2.toNat) ∧
    bsb.variant ≠ .pps ∧ bsb.backoffDraws = [] ∧
    (∀ d ∈ [(26 : Byte), 85], bsb.params.backoffMin.toNat ≤ d.toNat ∧ d.toNat ≤ bsb.params.backoffMax.toNat) ∧
    (∀ d ∈ [(25 : Byte), 86], ¬(bsb.params.backoffMin.toNat ≤ d.toNat ∧ d.toNat ≤ bsb.params.backoffMax.toNat)) := by decide

/-- A sample in the step that ends the wait and in the step before it, scripted and from the line. -/
theorem witness_wait :
    let s := { inPhase { bsb with lineBusy := true } .send .txWait with d := 26, ms := 26 }
    s.phase = .txWait ∧ s.busyDraws = [] ∧ true = s.lineBusy ∧ s.d.toNat ≤ (s.ms - s.wstart).toNat ∧
      ({ s with ms := 25 }.ms - s.wstart).toNat < s.d.toNat ∧
      { s with busyDraws := [false] }.busyDraws = false :: [] := by decide

theorem witness_check : ∀ p ∈ [(bsb, (1000 : Millis)), (bsb, 1001)],
    let s := { inPhase p.1 .send .txChk with ms := p.2 }
    s.phase = .txChk ∧ s.cmd = encode .send ∧ (s.ms - s.t0).toNat = p.2.toNat := by decide

/-- The first and the last byte of a frame, forced, scripted (0, 1 and 2) and free. -/
theorem witness_offer : ∀ k ∈ [(0 : Byte), 10],
    let s := { sendable with phase := .txByte, k := k }
    s.phase = .txByte ∧ s.cmd = encode .send ∧ s.csHeld = [] ∧ s.txbuf.read s.k.toNat = frame11[k.toNat]? ∧
      (s.txbuf.read s.k.toNat).isSome = true ∧ s.k.toNat < 255 ∧ s.params.forceAccept = false ∧
      { s with params := { s.params with forceAccept := true } }.params.forceAccept = true ∧
      { s with acceptDraws := [] }.acceptDraws = [] ∧ { s with acceptDraws := [0] }.acceptDraws = 0 :: [] ∧
      { s with acceptDraws := [2] }.acceptDraws = 2 :: [] := by decide

/-- A deadline that has passed at the top of an attempt. -/
def late : State := { inPhase bsb .send .txAcq with ms := 1001 }

theorem witness_busTimeout : step late = .next (after (step late) bsb) ∧ (after (step late) bsb).err = .busTimeout ∧
    late.err ≠ .busTimeout := ⟨rfl, by decide, by decide⟩

theorem witness_deadlineBase :
    late.phase ≠ .idle ∧ ¬ late.nextTurn .reset ∧ ¬ late.nextTurn .tick ∧ step late = .next (after (step late) bsb) :=
  ⟨by decide, (fun h => by cases h), (fun h => by cases h), rfl⟩

/-- The clock's half in states the first half leaves out: an idle block, and the reset event. -/
theorem witness_clockKept :
    bsb.phase = .idle ∧ step bsb = .next bsb ∧ ¬ bsb.nextTurn .tick ∧
    (turn late .reset).nextTurn .reset ∧ ¬ (turn late .reset).nextTurn .tick ∧
    step (turn late .reset) = .next (after (step (turn late .reset)) bsb) :=
  ⟨rfl, rfl, (fun h => by cases h), rfl, (fun h => by cases h), rfl⟩

/-- The register map's boundary addresses; a capacity below 64 leaves reserved window addresses. -/
theorem witness_hostMap :
    (0x0E ≤ (0x0E : Byte).toNat ∧ (0x3F : Byte).toNat < 0x40 ∧ 0xC0 ≤ (0xC0 : Byte).toNat) ∧
    (let s := { bsb with params := { Params.default with bufCap := 33 }, txbuf := [(0, 0xDC)], rxbuf := [(32, 0x01)] }
     s.params.bufCap ≤ 33 ∧ (0x61 : Byte).toNat = 0x40 + 33 ∧ (0xA1 : Byte).toNat = 0x80 + 33 ∧ 32 < s.params.bufCap ∧
      (0x40 : Byte).toNat = 0x40 + 0 ∧ s.txbuf.read 0 = some 0xDC ∧ (0xA0 : Byte).toNat = 0x80 + 32 ∧
      s.rxbuf.read 32 = some 0x01 ∧ s.txbuf.read 32 = none ∧ s.rxbuf.read 0 = none) := by decide

theorem witness_hostRead :
    ((turn bsb (.host (.read 0x05 1))).nextTurn (.host (.read 0x05 1)) ∧ (turn bsb (.host (.read 0x05 1))).hostRead 0x05 = .ok 3) ∧
    (turn bsb (.host (.read 0x05 2))).nextTurn (.host (.read 0x05 2)) ∧
    (turn bsb (.host (.read 0x40 1))).hostRead 0x40 = .error (.unwrittenByte .tx 0) ∧
    (∀ w ∈ [0, 2, 4], (turn bsb (.host (.write 0x01 w 0x77))).agenda.head? = some (.host (.write 0x01 w 0x77)) ∧ w ≠ 1) :=
  ⟨⟨rfl, by decide⟩, rfl, by decide, by decide⟩

theorem witness_busyWrite :
    (turn sendable (.host (.write 0x45 1 0x77))).phase ≠ .idle ∧
    (turn sendable (.host (.write 0x45 1 0x77))).nextTurn (.host (.write 0x45 1 0x77)) := ⟨by decide, rfl⟩

theorem witness_commandWrite : ∀ v ∈ [(0x05 : Byte), 0x06, 0x02, 0x15],
    (turn bsb (.host (.write 0x00 1 v))).phase = .idle ∧
    (turn bsb (.host (.write 0x00 1 v))).agenda.head? = some (.host (.write 0x00 1 v)) := by decide

theorem witness_idleWrite : ∀ a ∈ [(0x01 : Byte), 0x02, 0x05, 0x06, 0x07, 0x08, 0x09, 0x3F, 0x40, 0x7F, 0x80, 0xBF, 0xC0],
    (turn bsb (.host (.write a 1 0x5A))).phase = .idle ∧
    (turn bsb (.host (.write a 1 0x5A))).agenda.head? = some (.host (.write a 1 0x5A)) := by decide

theorem witness_windowWrite :
    (turn bsb (.host (.write 0xBF 1 0x5A))).phase = .idle ∧ 63 < bsb.params.bufCap ∧ (0xBF : Byte).toNat = 0x80 + 63 ∧
    (turn bsb (.host (.write 0xBF 1 0x5A))).nextTurn (.host (.write 0xBF 1 0x5A)) := ⟨by decide, by decide, by decide, rfl⟩

theorem witness_transportClock :
    ((turn bsb (.transport (.rxArrive 0x23))).nextTurn (.transport (.rxArrive 0x23)) ∧ bsb.csActive = false ∧
      bsb.rxq.length < bsb.params.rxFifoDepth) ∧
    ((turn (inPhase bsb .receive .rxByte) (.transport .rxTimeout)).nextTurn (.transport .rxTimeout) ∧
      (inPhase bsb .receive .rxByte).phase = .rxByte ∧ (inPhase bsb .receive .rxByte).rxq = []) ∧
    ((turn settling (.transport .rxTimeout)).nextTurn (.transport .rxTimeout) ∧ settling.phase ≠ .rxByte) ∧
    (turn bsb (.transport (.line true))).nextTurn (.transport (.line true)) ∧ (turn bsb .tick).nextTurn .tick :=
  ⟨⟨rfl, rfl, by decide⟩, ⟨rfl, rfl, rfl⟩, ⟨rfl, by decide⟩, rfl, rfl⟩

theorem witness_stepKeeps : sendable.Inv ∧ settling.Inv ∧ step settling = .next (after (step settling) bsb) ∧
    sendable.params.wellFormed = true ∧ sendable.BuffersOk :=
  ⟨witness_sendable_inv, witness_settling_inv, rfl, by decide, by decide⟩

/-- A SEND whose length field nobody wrote (V-T20). -/
theorem witness_faults : (cmd bsb .send).Inv ∧ (cmd bsb .send).engineNext ∧
    step (cmd bsb .send) = .fault (.unwrittenByte .tx 3) :=
  ⟨inv_of_parts (by decide) (fun h => absurd h (by decide)) (.inr (by decide)), .inl rfl, rfl⟩

/-- A CKSUM operation over bytes nobody wrote. -/
theorem witness_faults_cksum : (cks .cksumPpsRx 3 []).Inv ∧ (cks .cksumPpsRx 3 []).engineNext ∧
    step (cks .cksumPpsRx 3 []) = .fault (.unwrittenByte .rx 0) :=
  ⟨inv_of_parts (by decide) (fun h => absurd h (by decide)) (.inr (by decide)), .inl rfl, rfl⟩

theorem witness_onlyConfigure : step settling = .next (after (step settling) bsb) ∧ ¬ settling.nextTurn .reset ∧
    settling.phase ≠ .exec := ⟨rfl, (fun h => by cases h), by decide⟩

/-- A RECEIVE that finishes and so writes `RXLEN` and `CKSUM`. -/
theorem witness_resultWriters :
    let s := checking lpb 2 2 [0x78, 0x01]
    step s = .next (after (step s) s) ∧ ¬ s.nextTurn .reset ∧ (after (step s) s).rxlen ≠ s.rxlen ∧
      (after (step s) s).cksum ≠ s.cksum := ⟨rfl, (fun h => by cases h), by decide, by decide⟩

/-- A CKSUM operation and a SEND's preparation, the other writers of `CKSUM`. -/
theorem witness_cksumWriters :
    (let s := cks .cksumPpsTx 1 [0x01]
     step s = .next (after (step s) s) ∧ ¬ s.nextTurn .reset ∧ (after (step s) s).cksum ≠ s.cksum) ∧
    (let s := cmd { pps with txbuf := bufOf [0x1D, 0, 0, 0, 0, 0, 0, 0, 0] } .send
     step s = .next (after (step s) s) ∧ ¬ s.nextTurn .reset ∧ (after (step s) s).cksum ≠ s.cksum) :=
  ⟨⟨rfl, (fun h => by cases h), by decide⟩, rfl, (fun h => by cases h), by decide⟩

theorem witness_offers :
    let s := { sendable with phase := .txByte }
    step s = .next (after (step s) s) ∧ (after (step s) s).offered ≠ s.offered := ⟨rfl, by decide⟩

theorem witness_pops :
    let s := cmd { bsb with rxq := [0x23, 0x5E] } .receive
    s.csHeld = [] ∧ s.engineNext ∧ step s = .next (after (step s) s) ∧ (after (step s) s).rxq ≠ s.rxq :=
  ⟨rfl, .inl rfl, rfl, by decide⟩

theorem witness_ppsPersists :
    (let s := cmd { pps with rxq := [0x17] } .receive
     step s = .next (after (step s) s) ∧ s.ppsOvrPend = false ∧ (after (step s) s).ppsOvrPend = true) ∧
    (let s := cmd { pps with rxq := [0x1D], ppsOvrPend := true, ppsLiDraws := [8] } .receive
     step s = .next (after (step s) s) ∧ s.ppsOvrPend = true ∧ (after (step s) s).ppsOvrPend = false) :=
  ⟨⟨rfl, rfl, by decide⟩, rfl, rfl, by decide⟩

/-- An idle block with a success to keep. -/
def finished : State := { bsb with done := true, ok := true }

theorem witness_resultsStay : finished.Inv ∧ finished.done = true ∧ step finished = .next finished ∧
    ¬ finished.nextTurn .reset ∧ ∀ v, ¬ finished.nextTurn (.host (.write 0x00 1 v)) :=
  ⟨inv_of_parts (by decide) (fun h => absurd h (by decide)) (.inl rfl), rfl, rfl, (fun h => by cases h), fun _ h => by cases h⟩

theorem witness_frameUnchanged : sendable.phase.sending = true ∧ sendable.cmd = encode .send ∧
    step sendable = .next (after (step sendable) bsb) ∧ ¬ sendable.nextTurn .reset :=
  ⟨rfl, rfl, rfl, fun h => by cases h⟩

/-- A backoff, an offer and a PPS length with no draw under the simulator's defaults; the turns of a script. -/
theorem witness_unscripted :
    (∀ u ∈ [Unscripted.simulator, .anyValue], (turn bsb (.unscripted u)).agenda.head? = some (.unscripted u)) ∧
    (∀ d ∈ [Draw.backoff 40, .accept 0, .busy true, .ppsLi 8], (turn bsb (.draw d)).agenda.head? = some (.draw d)) ∧
    (let s := { inPhase bsb .send .txAcq with unscripted := .simulator, ms := 1000 }
     s.phase = .txAcq ∧ s.variant ≠ .pps ∧ (s.ms - s.t0).toNat ≤ 1000 ∧ s.backoffDraws = []) ∧
    (let s := { sendable with phase := .txByte, acceptDraws := [], unscripted := .simulator }
     s.phase = .txByte ∧ s.cmd = encode .send ∧ s.csHeld = [] ∧ s.txbuf.read s.k.toNat = some 0xDC ∧ s.k.toNat < 255 ∧
      s.acceptDraws = []) ∧
    (let s := cmd { pps with rxq := [0x1D], ppsOvrPend := true, unscripted := .simulator } .receive
     s.variant = .pps ∧ Instr.sofPps1D.space = .wire .pps ∧ s.phase = .rxHunt ∧ s.validV = true ∧ s.validO = true ∧
      s.rxq = encode .sofPps1D :: [] ∧ s.ppsOvrPend = true ∧ s.ppsLiDraws = []) := by decide

theorem witness_waitDone :
    (turn (cmd bsb .nop) (.waitDone [.tick, .engine])).agenda.head? = some (.waitDone [.tick, .engine]) ∧
    (cmd bsb .nop).done = false ∧ (turn { bsb with done := true } (.waitDone [])).done = true ∧
    (turn { bsb with done := true } (.waitDone [])).agenda.head? = some (.waitDone []) := by decide

theorem witness_unscriptedKept : step settling = .next (after (step settling) bsb) ∧ ∀ u, ¬ settling.nextTurn (.unscripted u) :=
  ⟨rfl, fun _ h => by cases h⟩

end Sys2Proof.Tests
end

section
/-! The implementation's parameters are nobody's to write (00_scope.md R6): each operation of the Engine keeps them, then
each other agent's step, then every step. -/

namespace Sys2Proof.Machine

/-! ### The Engine's operations -/

theorem cksumStep_params {b : Buffer} {count : Nat → Nat} {engine : List Byte → Nat → Half} {s t : State}
    (h : cksumStep b count engine s = .next t) : t.params = s.params := by
  obtain ⟨-, rfl⟩ | ⟨-, _, -, -, rfl⟩ := cksumStep_cases h
  · simp
  · simp

theorem sofFound_params {b : Byte} {s t : State} (h : sofFound b s = .next t) : t.params = s.params := by
  obtain ⟨-, -, -, rfl⟩ | ⟨-, -, rfl⟩ | ⟨-, -, -, _, _, _, -, rfl⟩ := sofFound_cases h
  · simp
  · simp
  · simp

theorem rxHuntStep_params {s t : State} (h : rxHuntStep s = .next t) : t.params = s.params := by
  obtain ⟨-, rfl⟩ | ⟨-, -, rfl⟩ | ⟨_, _, -, -, -, rfl⟩ | ⟨_, _, _, -, -, -, hsof⟩ := rxHuntStep_cases h
  · simp
  · simp
  · simp
  · simpa using sofFound_params hsof

theorem rxSettleStep_params {s t : State} (h : rxSettleStep s = .next t) : t.params = s.params := by
  cases h
  simp

theorem afterAppend_params {s t : State} (h : afterAppend s = .next t) : t.params = s.params := by
  obtain ⟨-, rfl⟩ | ⟨-, -, rfl⟩ | ⟨-, -, _, -, ⟨-, rfl⟩ | ⟨-, rfl⟩⟩ := afterAppend_cases h
  · simp
  · simp
  · simp
  · simp

theorem rxByteStep_params {s t : State} (h : rxByteStep s = .next t) : t.params = s.params := by
  obtain ⟨-, rfl⟩ | ⟨-, -, rfl⟩ | ⟨_, _, -, -, -, rfl⟩ | ⟨_, _, -, -, -, happ⟩ := rxByteStep_cases h
  · rfl
  · rfl
  · simp
  · simpa using afterAppend_params happ

theorem rxCheckStep_params {s t : State} (h : rxCheckStep s = .next t) : t.params = s.params := by
  obtain ⟨-, rfl⟩ | ⟨-, -, _, _, -, ⟨-, rfl⟩ | ⟨-, rfl⟩⟩ := rxCheckStep_cases h
  · simp
  · simp
  · simp

@[simp] theorem State.fillHeader_params (s : State) : s.fillHeader.params = s.params := by
  obtain ⟨m, hm⟩ := fillHeader_eq s
  rw [hm]

@[simp] theorem State.setTrailer_params (s : State) (len : Nat) (c : Half) :
    (s.setTrailer len c).params = s.params := rfl

theorem embedChecksum_params {s t : State} {len : Nat} (h : embedChecksum s len = .ok t) : t.params = s.params := by
  obtain ⟨-, _, rfl⟩ | ⟨-, _, _, rfl⟩ := embedChecksum_cases h
  · simp
  · simp

theorem txPrepStep_params {s t : State} (h : txPrepStep s = .next t) : t.params = s.params := by
  obtain ⟨-, rfl⟩ | ⟨-, _, -, ⟨_, -, -, rfl⟩ | ⟨-, _, hembed, rfl⟩⟩ := txPrepStep_cases h
  · simp
  · simp
  · simpa using embedChecksum_params hembed

theorem txAcqStep_params {s t : State} (h : txAcqStep s = .next t) : t.params = s.params := by
  obtain ⟨-, rfl⟩ | ⟨-, -, rfl⟩ | ⟨-, -, _, _, _, -, rfl⟩ := txAcqStep_cases h
  · simp
  · simp
  · rfl

theorem txWaitStep_params {s t : State} (h : txWaitStep s = .next t) : t.params = s.params := by
  obtain ⟨_, rfl | ⟨-, rfl⟩ | rfl⟩ := txWaitStep_cases h
  · rfl
  · rfl
  · rfl

theorem txChkStep_params {s t : State} (h : txChkStep s = .next t) : t.params = s.params := by
  obtain ⟨-, rfl⟩ | ⟨-, rfl⟩ := txChkStep_cases h
  · simp
  · rfl

theorem afterOffer_params {acc : Nat} {s t : State} (h : afterOffer acc s = .next t) : t.params = s.params := by
  obtain ⟨-, rfl⟩ | ⟨-, -, rfl⟩ | ⟨-, -, rfl⟩ := afterOffer_cases h
  · simp
  · simp
  · simp

theorem txByteStep_params {s t : State} (h : txByteStep s = .next t) : t.params = s.params := by
  obtain ⟨_, _, _, _, -, -, hoffer⟩ := txByteStep_cases h
  simpa using afterOffer_params hoffer

@[simp] theorem State.configure_params (s : State) :
    s.configureVariant.configureOwn.configureDest.params = s.params := by
  obtain ⟨_, _, _, _, _, _, _, _, hc⟩ := configure_eq s
  rw [hc]

/-- The inversion of the Engine's step, read for the parameters. -/
theorem EngineRuns.params {s t : State} {r : Result} (hruns : EngineRuns s r) (h : r = .next t) :
    t.params = s.params := by
  cases hruns with
  | hold => cases h; rfl
  | badOp => cases h; simp
  | nop => cases h; simp
  | configure => cases h; simp
  | cksum => exact cksumStep_params h
  | hunt => exact rxHuntStep_params h
  | settle => exact rxSettleStep_params h
  | byte => exact rxByteStep_params h
  | check => exact rxCheckStep_params h
  | prep => exact txPrepStep_params h
  | acq => exact txAcqStep_params h
  | wait => exact txWaitStep_params h
  | chk => exact txChkStep_params h
  | offer => exact txByteStep_params h

theorem engineStep_params {s t : State} (h : engineStep s = .next t) : t.params = s.params :=
  (engineStep_runs s).params h

/-! ### The other agents -/

theorem State.writeIdle_params (s : State) (v : Byte) (r : HostReg) : (s.writeIdle v r).params = s.params := by
  cases r with
  | byte b j => cases b <;> simp [State.writeIdle]
  | _ => rfl

theorem State.hostWrite_params (s : State) (a v : Byte) : (s.hostWrite a v).params = s.params := by
  obtain ⟨-, hw⟩ | ⟨-, hw⟩ := s.hostWrite_cases a v
  · rw [hw]
  · rw [hw, State.writeIdle_params]

theorem hostStep_params {a : HostAccess} {s t : State} (h : hostStep a s = .next t) : t.params = s.params := by
  cases a with
  | read addr width =>
    simp only [hostStep] at h
    split_ifs at h
    split at h
    · cases h
    · cases h
      rfl
  | write addr width value =>
    simp only [hostStep] at h
    split_ifs at h
    cases h
    exact s.hostWrite_params addr value

theorem State.rxArrive_params (s : State) (b : Byte) : (s.rxArrive b).params = s.params := by
  unfold State.rxArrive
  split
  · split
    · rfl
    · rfl
  · rfl

theorem State.rxTimeout_params (s : State) : s.rxTimeout.params = s.params := by
  unfold State.rxTimeout
  split
  · rfl
  · rfl

theorem transportStep_params {e : TransportStep} {s t : State} (h : transportStep e s = .next t) :
    t.params = s.params := by
  cases e with
  | rxArrive b => cases h; exact s.rxArrive_params b
  | rxTimeout => cases h; exact s.rxTimeout_params
  | line busy => cases h; rfl

theorem drawStep_params {d : Draw} {s t : State} (h : drawStep d s = .next t) : t.params = s.params := by
  cases d with
  | backoff v => cases h; rfl
  | accept v => cases h; rfl
  | busy v => cases h; rfl
  | ppsLi v => cases h; rfl

theorem waitDoneStep_params {between : List OtherTurn} {s t : State} (h : waitDoneStep between s = .next t) :
    t.params = s.params := by
  rw [waitDoneStep_eq] at h
  cases h
  rfl

/-! ### Every step -/

theorem takeTurn_params {u : Turn} {s t : State} (h : takeTurn u s = .next t) : t.params = s.params := by
  cases u with
  | engine => exact engineStep_params h
  | host a => exact hostStep_params h
  | transport e => exact transportStep_params h
  | tick => cases h; rfl
  | reset => cases h; rfl
  | draw d => exact drawStep_params h
  | unscripted u => cases h; rfl
  | waitDone between => exact waitDoneStep_params h

@[simp] theorem State.turned_params (s : State) : s.turned.params = s.params := rfl

/-- Settles O59 (00_scope.md R6): whichever agent's turn it is, its step keeps the parameters. -/
theorem parametersNeverChange : Obligations.ParametersNeverChange := by
  intro s t h
  obtain ⟨-, hstep⟩ | ⟨u, -, -, -, hstep⟩ := step_cases s
  · rw [hstep] at h
    simpa using engineStep_params h
  · rw [hstep] at h
    simpa using takeTurn_params h

end Sys2Proof.Machine
end

section
/-! The schedule and the agents around the Engine (10_state.md R20, R36, 20_memory.md R54): the Engine's turn runs what it
fetches, and what each other agent's turn can do is said once, in `AgentTurn`. -/

namespace Sys2Proof.Machine

/-! ### The Engine's turn -/

/-- The fetch does not look at the agenda. -/
@[simp] theorem State.turned_fetch (s : State) : s.turned.fetch = s.fetch := rfl

theorem engineStep_of_fetch {s : State} {i : Instr} (h : s.fetch = some (.ok i)) : engineStep s = exec i s := by
  unfold engineStep
  rw [h]

/-- Settles O4 (20_memory.md R64): the turn is taken off the agenda, and the fetch reads the rest of the state. -/
theorem stepRunsFetchedInstruction : Obligations.StepRunsFetchedInstruction := by
  intro s i hnext hfetch _
  have hstep : step s = exec i s.turned := by
    rw [step_of_engineNext hnext, engineStep_of_fetch (by simpa using hfetch)]
  refine ⟨hstep, fun hagenda => ?_⟩
  rw [hstep, State.turned_eq_self hagenda]

/-! ### The Transport and the Clock -/

/-- With the receive path open a byte goes to the queue (10_state.md R36, R42). -/
theorem State.rxArrive_of_open {s : State} (h : s.csActive = false) (b : Byte) :
    s.rxArrive b = { s with rxq := enqueue s.params s.rxq b } := by
  simp [State.rxArrive, h]

/-- An arriving byte reaches the queue or the bytes held back, and nothing else. -/
theorem State.rxArrive_eq (s : State) (b : Byte) : ∃ q c, s.rxArrive b = { s with rxq := q, csHeld := c } := by
  unfold State.rxArrive
  split
  · split
    · exact ⟨_, _, rfl⟩
    · exact ⟨_, _, rfl⟩
  · exact ⟨_, _, rfl⟩

theorem State.rxTimeout_of_enabled {s : State} (hp : s.phase = .rxByte) (hq : s.rxq = []) :
    s.rxTimeout = { s with timeout := true } := if_pos ⟨hp, hq⟩

theorem State.rxTimeout_of_disabled {s : State} (h : s.phase ≠ .rxByte ∨ s.rxq ≠ []) : s.rxTimeout = s :=
  if_neg (by tauto)

theorem State.rxTimeout_eq (s : State) : ∃ x, s.rxTimeout = { s with timeout := x } := by
  unfold State.rxTimeout
  split
  · exact ⟨_, rfl⟩
  · exact ⟨_, rfl⟩

/-- Settles O48 (10_state.md R36, R38, R40, R41), one part per kind of step. -/
theorem transportAndClockSteps : Obligations.TransportAndClockSteps := by
  intro s
  refine ⟨fun b hnext hopen hroom => ?_, fun hnext hp hq => ?_, fun hnext hoff => ?_, fun l hnext => ?_, fun hnext => ?_⟩
  · have harrive := State.rxArrive_of_open (s := s.turned) hopen b
    rw [enqueue_of_lt b (show s.turned.rxq.length < s.turned.params.rxFifoDepth from hroom)] at harrive
    rw [step_of_nextTurn hnext]
    exact congrArg Host.Outcome.next harrive
  · rw [step_of_nextTurn hnext]
    exact congrArg Host.Outcome.next (State.rxTimeout_of_enabled (s := s.turned) hp hq)
  · rw [step_of_nextTurn hnext]
    exact congrArg Host.Outcome.next (State.rxTimeout_of_disabled (s := s.turned) hoff)
  · rw [step_of_nextTurn hnext]
    rfl
  · refine ⟨{ s.turned with ms := s.ms + 1 }, ?_, ?_, rfl⟩
    · rw [step_of_nextTurn hnext]
      rfl
    · exact BitVec.toNat_add _ _

/-! ### What another agent's turn can do -/

/-- `AgentTurn s u t`: the turn `u` of an agent other than the Engine leads from `s` to `t`. -/
inductive AgentTurn (s : State) : Turn → State → Prop where
  | read (a : HostAccess) (v : Byte) : AgentTurn s (.host a) { s with hostData := v }
  | ignored (a : HostAccess) : AgentTurn s (.host a) s
  | accept (a : HostAccess) (v : Byte) : s.phase = .idle → AgentTurn s (.host a) (s.accept v)
  | argument (a : HostAccess) (arg own dest : Byte) (variant : BitVec 2) :
      AgentTurn s (.host a) { s with arg := arg, newVariant := variant, newOwn := own, newDest := dest }
  | storeTx (a : HostAccess) (j : Nat) (v : Byte) : s.phase = .idle → j < s.params.bufCap →
      AgentTurn s (.host a) (s.setTx j v)
  | storeRx (a : HostAccess) (j : Nat) (v : Byte) : s.phase = .idle → j < s.params.bufCap →
      AgentTurn s (.host a) (s.setRx j v)
  | arrive (b : Byte) : AgentTurn s (.transport (.rxArrive b)) (s.rxArrive b)
  | timeout (x : Bool) : AgentTurn s (.transport .rxTimeout) { s with timeout := x }
  | line (busy : Bool) : AgentTurn s (.transport (.line busy)) { s with lineBusy := busy }
  | tick : AgentTurn s .tick { s with ms := s.ms + 1 }
  | reset : AgentTurn s .reset s.rst
  | draw (d : Draw) (bs ls : List Byte) (as : List Nat) (ys : List Bool) :
      AgentTurn s (.draw d) { s with backoffDraws := bs, acceptDraws := as, busyDraws := ys, ppsLiDraws := ls }
  | unscripted (x : Unscripted) : AgentTurn s (.unscripted x) { s with unscripted := x }
  | waitDone (between : List OtherTurn) (v : Byte) (ts : List Turn) :
      AgentTurn s (.waitDone between) { s with hostData := v, agenda := ts }

/-- A host write to an idle block: a command, an argument register, a buffer byte, or an address that takes no write. -/
theorem AgentTurn.of_writeIdle {s : State} (a : HostAccess) (addr v : Byte) (hidle : s.phase = .idle) :
    AgentTurn s (.host a) (s.writeIdle v (hostReg s.params addr)) := by
  cases hreg : hostReg s.params addr with
  | cmd => exact .accept a v hidle
  | arg => exact .argument a v s.newOwn s.newDest s.newVariant
  | newVariant => exact .argument a s.arg s.newOwn s.newDest _
  | newOwn => exact .argument a s.arg v s.newDest s.newVariant
  | newDest => exact .argument a s.arg s.newOwn v s.newVariant
  | byte b j =>
    obtain ⟨hj, -⟩ := hostReg_eq_byte.mp hreg
    cases b with
    | tx => exact .storeTx a j v hidle hj
    | rx => exact .storeRx a j v hidle hj
  | _ => exact .ignored a

theorem hostStep_agentTurn {a : HostAccess} {s t : State} (h : hostStep a s = .next t) : AgentTurn s (.host a) t := by
  cases a with
  | read addr width =>
    simp only [hostStep] at h
    split_ifs at h
    split at h
    · cases h
    · cases h
      exact .read _ _
  | write addr width v =>
    simp only [hostStep] at h
    split_ifs at h
    cases h
    obtain ⟨-, hw⟩ | ⟨hidle, hw⟩ := s.hostWrite_cases addr v
    · rw [hw]
      exact .ignored _
    · rw [hw]
      exact .of_writeIdle _ addr v hidle

theorem transportStep_agentTurn {e : TransportStep} {s t : State} (h : transportStep e s = .next t) :
    AgentTurn s (.transport e) t := by
  cases e with
  | rxArrive b =>
    cases h
    exact .arrive b
  | rxTimeout =>
    cases h
    obtain ⟨x, hx⟩ := s.rxTimeout_eq
    rw [hx]
    exact .timeout x
  | line busy =>
    cases h
    exact .line busy

theorem drawStep_agentTurn {d : Draw} {s t : State} (h : drawStep d s = .next t) : AgentTurn s (.draw d) t := by
  cases d with
  | backoff v => cases h; exact .draw _ _ _ _ _
  | accept v => cases h; exact .draw _ _ _ _ _
  | busy v => cases h; exact .draw _ _ _ _ _
  | ppsLi v => cases h; exact .draw _ _ _ _ _

/-- THE INVERSION of another agent's turn. -/
theorem takeTurn_agentTurn {u : Turn} {s t : State} (hu : u ≠ .engine) (h : takeTurn u s = .next t) :
    AgentTurn s u t := by
  cases u with
  | engine => exact absurd rfl hu
  | host a => exact hostStep_agentTurn h
  | transport e => exact transportStep_agentTurn h
  | tick => cases h; exact .tick
  | reset => cases h; exact .reset
  | draw d => exact drawStep_agentTurn h
  | unscripted x => cases h; exact .unscripted x
  | waitDone between =>
    simp only [takeTurn, waitDoneStep_eq] at h
    cases h
    exact .waitDone between _ _

/-- Every step is an Engine step or another agent's turn, on the state whose agenda has lost the turn. -/
theorem step_next_cases {s t : State} (h : step s = .next t) :
    (s.engineNext ∧ EngineRuns s.turned (.next t)) ∨ ∃ u, s.nextTurn u ∧ AgentTurn s.turned u t := by
  obtain ⟨hnext, hstep⟩ | ⟨u, hu, hne, -, hstep⟩ := step_cases s
  · left
    refine ⟨hnext, ?_⟩
    rw [← h, hstep]
    exact engineStep_runs _
  · right
    exact ⟨u, hu, takeTurn_agentTurn hne (hstep ▸ h)⟩

end Sys2Proof.Machine
end

section
/-! The frame buffers stay canonical and below the capacity (10_state.md R27, 20_memory.md R66): every store goes below
`BUF_CAP`. -/

namespace Sys2Proof.Machine

/-! ### Stores -/

/-- The capacity takes every index that a start of frame or a header has (00_scope.md R6). -/
theorem Params.bufCap_ge {p : Params} (h : p.wellFormed = true) : 33 ≤ p.bufCap := by
  simp only [Params.wellFormed, Params.bufCapOk, Bool.and_eq_true, decide_eq_true_eq] at h
  omega

/-- The capacity is at most 64 (00_scope.md R6). -/
theorem Params.bufCap_le {p : Params} (h : p.wellFormed = true) : p.bufCap ≤ 64 := by
  simp only [Params.wellFormed, Params.bufCapOk, Bool.and_eq_true, decide_eq_true_eq] at h
  omega

theorem State.BuffersOk.setTx {s : State} (h : s.BuffersOk) {a : Nat} (ha : a < s.params.bufCap) (v : Byte) :
    (s.setTx a v).BuffersOk :=
  ⟨Memory.wf_write h.1, h.2.1, Memory.within_write h.2.2.1 ha, h.2.2.2⟩

theorem State.BuffersOk.setRx {s : State} (h : s.BuffersOk) {a : Nat} (ha : a < s.params.bufCap) (v : Byte) :
    (s.setRx a v).BuffersOk :=
  ⟨h.1, Memory.wf_write h.2.1, h.2.2.1, Memory.within_write h.2.2.2 ha⟩

/-- `fill_header()` stores at the indices 0 to 3 only (43_transmitter.md R164 to R166). -/
theorem State.BuffersOk.fillHeader {s : State} (h : s.BuffersOk) (hcap : 33 ≤ s.params.bufCap) :
    s.fillHeader.BuffersOk := by
  unfold State.fillHeader
  split
  · exact ((h.setTx (by omega) _).setTx (by simp; omega) _).setTx (by simp; omega) _
  · split
    · exact ((h.setTx (by omega) _).setTx (by simp; omega) _).setTx (by simp; omega) _
    · exact ((h.setTx (by omega) _).setTx (by simp; omega) _).setTx (by simp; omega) _
  · exact h

@[simp] theorem State.fillHeader_variant (s : State) : s.fillHeader.variant = s.variant := by
  obtain ⟨m, hm⟩ := fillHeader_eq s
  rw [hm]

@[simp] theorem State.fillHeader_lenIdx (s : State) : s.fillHeader.lenIdx = s.lenIdx := by
  obtain ⟨m, hm⟩ := fillHeader_eq s
  rw [hm]

/-- The trailer lies at the end of the frame (43_transmitter.md R167, R168). -/
theorem State.BuffersOk.setTrailer {s : State} (h : s.BuffersOk) {len : Nat} (hpos : 1 ≤ len)
    (hlen : len ≤ s.params.bufCap) (c : Half) : (s.setTrailer len c).BuffersOk := by
  have htrailer := (h.setTx (a := len - 2) (by omega) (hiByte c)).setTx (a := len - 1) (by simp; omega) (loByte c)
  exact htrailer

/-! ### The Engine's operations -/

theorem sofFound_buffersOk {b : Byte} {s t : State} (hs : s.BuffersOk) (hcap : 33 ≤ s.params.bufCap)
    (h : sofFound b s = .next t) : t.BuffersOk := by
  have hstore := hs.setRx (a := 0) (by omega) b
  obtain ⟨-, -, -, rfl⟩ | ⟨-, -, rfl⟩ | ⟨-, -, -, _, _, _, -, rfl⟩ := sofFound_cases h
  · exact hstore
  · exact hstore
  · exact hstore

theorem rxHuntStep_buffersOk {s t : State} (hs : s.BuffersOk) (hcap : 33 ≤ s.params.bufCap)
    (h : rxHuntStep s = .next t) : t.BuffersOk := by
  obtain ⟨-, rfl⟩ | ⟨-, -, rfl⟩ | ⟨_, _, -, -, -, rfl⟩ | ⟨_, _, _, -, -, -, hsof⟩ := rxHuntStep_cases h
  · exact hs
  · exact hs
  · exact hs
  · exact sofFound_buffersOk (s := (s.setCount 0).popRx) hs hcap hsof

theorem afterAppend_buffersOk {s t : State} (hs : s.BuffersOk) (h : afterAppend s = .next t) : t.BuffersOk := by
  obtain ⟨-, rfl⟩ | ⟨-, -, rfl⟩ | ⟨-, -, _, -, ⟨-, rfl⟩ | ⟨-, rfl⟩⟩ := afterAppend_cases h
  · exact hs
  · exact hs
  · exact hs
  · exact hs

theorem rxByteStep_buffersOk {s t : State} (hs : s.BuffersOk) (h : rxByteStep s = .next t) : t.BuffersOk := by
  obtain ⟨-, rfl⟩ | ⟨-, -, rfl⟩ | ⟨_, _, -, -, -, rfl⟩ | ⟨r, _, -, -, hi, happ⟩ := rxByteStep_cases h
  · exact hs
  · exact hs
  · exact hs
  · refine afterAppend_buffersOk ?_ happ
    exact hs.setRx hi (polarity s.variant r)

theorem rxCheckStep_buffersOk {s t : State} (hs : s.BuffersOk) (h : rxCheckStep s = .next t) : t.BuffersOk := by
  obtain ⟨-, rfl⟩ | ⟨-, -, _, _, -, ⟨-, rfl⟩ | ⟨-, rfl⟩⟩ := rxCheckStep_cases h
  · exact hs
  · exact hs
  · exact hs

/-- `frame_length()` of PPS is `LEN_IDX + 1` (43_transmitter.md R162). -/
theorem State.frameLength_pps {s : State} (h : s.variant = .pps) : s.frameLength = .ok (s.lenIdx.toNat + 1) := by
  simp [State.frameLength, h]

/-- A length that `check_length(N)` passes keeps header and trailer inside the buffer. -/
theorem embedChecksum_buffersOk {s u : State} {len : Nat} (hs : s.BuffersOk) (hcap : len ≤ s.params.bufCap)
    (hframe : s.variant ≠ .pps → 6 ≤ len) (hpps : s.variant = .pps → len = s.lenIdx.toNat + 1)
    (h : embedChecksum s len = .ok u) : u.BuffersOk := by
  obtain ⟨hv, c, rfl⟩ | ⟨hv, v, c, rfl⟩ := embedChecksum_cases h
  · have := hframe hv
    exact hs.setTrailer (by omega) hcap c
  · have := hpps hv
    exact hs.setTx (a := s.lenIdx.toNat) (by omega) v

theorem txPrepStep_buffersOk {s t : State} (hs : s.BuffersOk) (hcap : 33 ≤ s.params.bufCap)
    (h : txPrepStep s = .next t) : t.BuffersOk := by
  obtain ⟨-, rfl⟩ | ⟨-, len, hlen, ⟨_, -, -, rfl⟩ | ⟨hcheck, u, hembed, rfl⟩⟩ := txPrepStep_cases h
  · exact hs
  · exact hs
  · obtain ⟨hmax, hmin⟩ := checkLength_ok_none hcheck
    have hheader := State.BuffersOk.fillHeader (s := s.setSendLen len) hs hcap
    simp only [State.setSendLen_params, State.setSendLen_variant] at hmax hmin
    refine embedChecksum_buffersOk (u := u) hheader (by simpa using hmax) (fun hv => ?_) (fun hv => ?_) hembed
    · exact (hmin (by simpa using hv)).1
    · rw [State.frameLength_pps (by simpa using hv)] at hlen
      simpa using (Except.ok.inj hlen).symm

theorem txAcqStep_buffersOk {s t : State} (hs : s.BuffersOk) (h : txAcqStep s = .next t) : t.BuffersOk := by
  obtain ⟨-, rfl⟩ | ⟨-, -, rfl⟩ | ⟨-, -, _, _, _, -, rfl⟩ := txAcqStep_cases h
  · exact hs
  · exact hs
  · exact hs

theorem txWaitStep_buffersOk {s t : State} (hs : s.BuffersOk) (h : txWaitStep s = .next t) : t.BuffersOk := by
  obtain ⟨_, rfl | ⟨-, rfl⟩ | rfl⟩ := txWaitStep_cases h
  · exact hs
  · exact hs
  · exact hs

theorem txChkStep_buffersOk {s t : State} (hs : s.BuffersOk) (h : txChkStep s = .next t) : t.BuffersOk := by
  obtain ⟨-, rfl⟩ | ⟨-, rfl⟩ := txChkStep_cases h
  · exact hs
  · exact hs

theorem afterOffer_buffersOk {acc : Nat} {s t : State} (hs : s.BuffersOk) (h : afterOffer acc s = .next t) :
    t.BuffersOk := by
  obtain ⟨-, rfl⟩ | ⟨-, -, rfl⟩ | ⟨-, -, rfl⟩ := afterOffer_cases h
  · exact hs
  · exact hs
  · exact hs

theorem txByteStep_buffersOk {s t : State} (hs : s.BuffersOk) (h : txByteStep s = .next t) : t.BuffersOk := by
  obtain ⟨_, _, _, _, -, -, hoffer⟩ := txByteStep_cases h
  refine afterOffer_buffersOk ?_ hoffer
  exact hs

theorem cksumStep_buffersOk {b : Buffer} {count : Nat → Nat} {engine : List Byte → Nat → Half} {s t : State}
    (hs : s.BuffersOk) (h : cksumStep b count engine s = .next t) : t.BuffersOk := by
  obtain ⟨-, rfl⟩ | ⟨-, _, -, -, rfl⟩ := cksumStep_cases h
  · exact hs
  · exact hs

theorem EngineRuns.buffersOk {s t : State} {r : Result} (hruns : EngineRuns s r) (hcap : 33 ≤ s.params.bufCap)
    (hs : s.BuffersOk) (h : r = .next t) : t.BuffersOk := by
  cases hruns with
  | hold => cases h; exact hs
  | badOp => cases h; exact hs
  | nop => cases h; exact hs
  | configure =>
    cases h
    obtain ⟨_, _, _, _, _, _, _, _, hc⟩ := configure_eq s
    rw [hc]
    exact hs
  | cksum => exact cksumStep_buffersOk hs h
  | hunt => exact rxHuntStep_buffersOk hs hcap h
  | settle => cases h; exact hs
  | byte => exact rxByteStep_buffersOk hs h
  | check => exact rxCheckStep_buffersOk hs h
  | prep => exact txPrepStep_buffersOk hs hcap h
  | acq => exact txAcqStep_buffersOk hs h
  | wait => exact txWaitStep_buffersOk hs h
  | chk => exact txChkStep_buffersOk hs h
  | offer => exact txByteStep_buffersOk hs h

/-! ### The other agents, and every step -/

theorem AgentTurn.buffersOk {s t : State} {u : Turn} (hturn : AgentTurn s u t) (hs : s.BuffersOk) : t.BuffersOk := by
  cases hturn with
  | storeTx a j v _ hj => exact hs.setTx hj v
  | storeRx a j v _ hj => exact hs.setRx hj v
  | arrive b =>
    obtain ⟨_, _, harrive⟩ := s.rxArrive_eq b
    rw [harrive]
    exact hs
  | reset => exact ⟨Memory.wf_nil, Memory.wf_nil, Memory.within_nil _, Memory.within_nil _⟩
  | _ => exact hs

/-- Settles O50 (10_state.md R27, 20_memory.md R66): every store that a step makes lies below the capacity. -/
theorem stepKeepsBuffersCanonical : Obligations.StepKeepsBuffersCanonical := by
  intro s t hp hs hstep
  obtain ⟨-, hruns⟩ | ⟨u, -, hturn⟩ := step_next_cases hstep
  · exact hruns.buffersOk (Params.bufCap_ge hp) hs rfl
  · exact hturn.buffersOk hs

end Sys2Proof.Machine
end

section
/-! Who writes `RXLEN`, `CKSUM`, the receive queue and the pending PPS override (10_state.md R26, R29, R30, R38): said once
for every operation of the Engine, in `EngineWrites`, and once for the other agents. -/

namespace Sys2Proof.Machine

/-- `RXLEN` is as before, or the finish of a RECEIVE has written the captured count (41_parser.md R124). -/
def RxlenWritten (s t : State) : Prop :=
  t.rxlen = s.rxlen ∨ s.cmd = encode .receive ∧ t.done = true ∧ t.phase = .idle ∧ t.rxlen = t.i

/-- The steps that compute a checksum: a CKSUM operation, `TX_PREP` and `RX_CHECK` (10_state.md R30). -/
def State.computesCksum (s : State) : Prop :=
  s.phase = .exec ∧ s.cmd ∈ [0x02, 0x12, 0x03, 0x13, 0x04, 0x14] ∨ s.phase = .txPrep ∧ s.cmd = 0x06 ∨
    s.phase = .rxCheck ∧ s.cmd = 0x05

/-- The three writes of the pending PPS override (10_state.md R26). -/
inductive OverrideWritten (s t : State) : Prop where
  | short : t.ppsOvrPend = true → s.phase = .rxHunt → s.variant = .pps → s.own = 1 → s.rxq.head? = some 0x17 →
      OverrideWritten s t
  | configure : t.ppsOvrPend = false → s.phase = .exec → s.cmd = encode .configure → OverrideWritten s t
  | capture : t.ppsOvrPend = false → s.phase = .rxHunt → s.variant = .pps → t.phase = .rxSettle → OverrideWritten s t

/-- The writes of one Engine step from `s` to `t`. -/
structure EngineWrites (s t : State) : Prop where
  rxlen : RxlenWritten s t
  cksum : t.cksum = s.cksum ∨ s.computesCksum
  queue : s.csHeld = [] → t.rxq = s.rxq ∨ (s.phase = .rxHunt ∨ s.phase = .rxByte) ∧ ∃ r, s.rxq = r :: t.rxq
  override : t.ppsOvrPend = s.ppsOvrPend ∨ OverrideWritten s t
  unscripted : t.unscripted = s.unscripted

/-- A step that writes none of them, but that it may finish. -/
structure KeepsResults (s t : State) : Prop where
  rxlen : RxlenWritten s t
  cksum : t.cksum = s.cksum
  queue : t.rxq = s.rxq
  override : t.ppsOvrPend = s.ppsOvrPend
  unscripted : t.unscripted = s.unscripted

theorem KeepsResults.writes {s t : State} (h : KeepsResults s t) : EngineWrites s t :=
  ⟨h.rxlen, .inl h.cksum, fun _ => .inl h.queue, .inl h.override, h.unscripted⟩

/-- A finish writes `RXLEN` for a RECEIVE alone (60_exceptions.md R200, R202). -/
theorem State.finishRxlen_cases (s : State) :
    s.finishRxlen = s.rxlen ∨ s.cmd = encode .receive ∧ s.finishRxlen = s.i := by
  unfold State.finishRxlen
  split
  · exact .inr ⟨by assumption, rfl⟩
  · exact .inl rfl

theorem State.finishOk_rxlenWritten (s : State) : RxlenWritten s s.finishOk :=
  s.finishRxlen_cases.imp id fun ⟨hcmd, hi⟩ => ⟨hcmd, rfl, rfl, hi⟩

theorem State.raiseErr_rxlenWritten (s : State) (e : ErrCode) : RxlenWritten s (s.raiseErr e) :=
  s.finishRxlen_cases.imp id fun ⟨hcmd, hi⟩ => ⟨hcmd, rfl, rfl, hi⟩

theorem State.finishOk_keeps (s : State) : KeepsResults s s.finishOk :=
  ⟨s.finishOk_rxlenWritten, rfl, rfl, rfl, rfl⟩

theorem State.raiseErr_keeps (s : State) (e : ErrCode) : KeepsResults s (s.raiseErr e) :=
  ⟨s.raiseErr_rxlenWritten e, rfl, rfl, rfl, rfl⟩

/-- A pop takes the oldest byte (10_state.md R38). -/
theorem State.popRx_takes {s : State} {r : Byte} {rest : List Byte} (h : s.rxq = r :: rest) :
    ∃ r, s.rxq = r :: s.popRx.rxq :=
  ⟨r, by simp [h]⟩

/-! ### The Engine's operations -/

/-- CONFIGURE keeps the pending override or clears it (40_config.md R102). -/
theorem configure_ppsOvrPend (s : State) :
    s.configureVariant.configureOwn.configureDest.ppsOvrPend = s.ppsOvrPend ∨
      s.configureVariant.configureOwn.configureDest.ppsOvrPend = false := by
  have hdest : ∀ u : State, u.configureDest.ppsOvrPend = u.ppsOvrPend := by
    intro u
    unfold State.configureDest
    split
    · rfl
    · rfl
  have hown : ∀ u : State, u.configureOwn.ppsOvrPend = u.ppsOvrPend := by
    intro u
    unfold State.configureOwn
    split
    · rfl
    · rfl
  rw [hdest, hown]
  unfold State.configureVariant
  split
  · exact .inr rfl
  · exact .inl rfl

theorem configure_writes {s : State} (hp : s.phase = .exec) (hcmd : s.cmd = encode .configure) :
    EngineWrites s s.configureVariant.configureOwn.configureDest.finishOk := by
  have hover := configure_ppsOvrPend s
  obtain ⟨_, _, _, _, _, _, _, _, hc⟩ := configure_eq s
  rw [hc] at hover ⊢
  exact ⟨State.finishOk_rxlenWritten _, .inl rfl, fun _ => .inl rfl,
    hover.imp id fun hclear => .configure hclear hp hcmd, rfl⟩

/-- The command bytes of the CKSUM operations (30_encoding.md R72). -/
theorem encode_mem_of_cksum {i : Instr} (hphase : firstPhaseOf i = .exec) (hnop : i ≠ .nop) (hconf : i ≠ .configure) :
    encode i ∈ ([0x02, 0x12, 0x03, 0x13, 0x04, 0x14] : List Byte) := by
  cases i <;> simp [firstPhaseOf, encode] at *

theorem cksumStep_writes {b : Buffer} {count : Nat → Nat} {engine : List Byte → Nat → Half} {s t : State}
    (hwriter : s.computesCksum) (h : cksumStep b count engine s = .next t) : EngineWrites s t := by
  obtain ⟨-, rfl⟩ | ⟨-, _, -, -, rfl⟩ := cksumStep_cases h
  · exact (s.raiseErr_keeps _).writes
  · exact ⟨State.finishOk_rxlenWritten (s.setCksum _), .inr hwriter, fun _ => .inl rfl, .inl rfl, rfl⟩

/-- A start of frame writes the override as it starts a PPS short frame or a capture (41_parser.md R113, R114). -/
theorem sofFound_writes {b : Byte} {s t : State} (h : sofFound b s = .next t) :
    RxlenWritten s t ∧ t.cksum = s.cksum ∧ t.rxq = s.rxq ∧ t.unscripted = s.unscripted ∧
      (t.ppsOvrPend = s.ppsOvrPend ∨ (t.ppsOvrPend = true ∧ s.variant = .pps ∧ b = 0x17 ∧ s.own = 1) ∨
        (t.ppsOvrPend = false ∧ s.variant = .pps ∧ t.phase = .rxSettle)) := by
  obtain ⟨hv, hb, hown, rfl⟩ | ⟨-, -, rfl⟩ | ⟨-, hv, -, _, _, _, -, rfl⟩ := sofFound_cases h
  · have hfinish := State.finishOk_rxlenWritten { s.setRx 0 b with i := 1, ppsOvrPend := true }
    exact ⟨hfinish, rfl, rfl, rfl, .inr (.inl ⟨rfl, hv, hb, hown⟩)⟩
  · exact ⟨.inl rfl, rfl, rfl, rfl, .inl rfl⟩
  · exact ⟨.inl rfl, rfl, rfl, rfl, .inr (.inr ⟨rfl, hv, rfl⟩)⟩

theorem rxHuntStep_writes {s t : State} (hp : s.phase = .rxHunt) (h : rxHuntStep s = .next t) : EngineWrites s t := by
  obtain ⟨-, rfl⟩ | ⟨-, -, rfl⟩ | ⟨_, _, -, hq, -, rfl⟩ | ⟨r, _, _, -, hq, -, hsof⟩ := rxHuntStep_cases h
  · exact ⟨(s.setCount 0).raiseErr_rxlenWritten _, .inl rfl, fun _ => .inl rfl, .inl rfl, rfl⟩
  · exact ⟨(s.setCount 0).raiseErr_rxlenWritten _, .inl rfl, fun _ => .inl rfl, .inl rfl, rfl⟩
  · exact ⟨.inl rfl, .inl rfl, fun _ => .inr ⟨.inl hp, State.popRx_takes hq⟩, .inl rfl, rfl⟩
  · obtain ⟨hrxlen, hcksum, hrxq, hunscripted, hover⟩ := sofFound_writes hsof
    refine ⟨hrxlen, .inl hcksum, fun _ => .inr ⟨.inl hp, ?_⟩, ?_, hunscripted⟩
    · rw [hrxq]
      exact State.popRx_takes hq
    · refine hover.imp id fun hwritten => ?_
      obtain ⟨hset, hv, hb, hown⟩ | ⟨hclear, hv, ht⟩ := hwritten
      · have hr : r = 0x17 := by
          rw [show s.variant = .pps from hv] at hb
          exact hb
        exact .short hset hp hv hown (by rw [hq, hr]; rfl)
      · exact .capture hclear hp hv ht

theorem afterAppend_keeps {s t : State} (h : afterAppend s = .next t) : KeepsResults s t := by
  obtain ⟨-, rfl⟩ | ⟨-, -, rfl⟩ | ⟨-, -, _, -, ⟨-, rfl⟩ | ⟨-, rfl⟩⟩ := afterAppend_cases h
  · exact ⟨.inl rfl, rfl, rfl, rfl, rfl⟩
  · exact s.raiseErr_keeps _
  · exact ⟨.inl rfl, rfl, rfl, rfl, rfl⟩
  · exact ⟨.inl rfl, rfl, rfl, rfl, rfl⟩

theorem rxByteStep_writes {s t : State} (hp : s.phase = .rxByte) (h : rxByteStep s = .next t) : EngineWrites s t := by
  obtain ⟨-, rfl⟩ | ⟨-, -, rfl⟩ | ⟨_, _, -, hq, -, rfl⟩ | ⟨r, _, -, hq, hi, happ⟩ := rxByteStep_cases h
  · exact ⟨.inl rfl, .inl rfl, fun _ => .inl rfl, .inl rfl, rfl⟩
  · exact ⟨.inl rfl, .inl rfl, fun _ => .inl rfl, .inl rfl, rfl⟩
  · exact ⟨State.raiseErr_rxlenWritten s.popRx _, .inl rfl, fun _ => .inr ⟨.inr hp, State.popRx_takes hq⟩, .inl rfl, rfl⟩
  · have hkeep := afterAppend_keeps happ
    have hrxlen : RxlenWritten s t := by simpa [RxlenWritten] using hkeep.rxlen
    refine ⟨hrxlen, .inl hkeep.cksum, fun _ => .inr ⟨.inr hp, ?_⟩, .inl hkeep.override, hkeep.unscripted⟩
    rw [hkeep.queue]
    exact State.popRx_takes hq

theorem rxCheckStep_writes {s t : State} (hwriter : s.computesCksum) (h : rxCheckStep s = .next t) :
    EngineWrites s t := by
  obtain ⟨-, rfl⟩ | ⟨-, -, _, _, -, ⟨-, rfl⟩ | ⟨-, rfl⟩⟩ := rxCheckStep_cases h
  · exact (s.raiseErr_keeps _).writes
  · exact ⟨State.finishOk_rxlenWritten (s.setCksum _), .inr hwriter, fun _ => .inl rfl, .inl rfl, rfl⟩
  · exact ⟨State.raiseErr_rxlenWritten (s.setCksum _) _, .inr hwriter, fun _ => .inl rfl, .inl rfl, rfl⟩

/-- A prepared frame: `TX_PREP` has written `N`, `TXBUF` and `CKSUM` (43_transmitter.md R161). -/
theorem prepared_eq {s u : State} {len : Nat} (h : embedChecksum (s.setSendLen len).fillHeader len = .ok u) :
    ∃ m c, u = { s with sendLen := len, txbuf := m, cksum := c } := by
  obtain ⟨m, hm⟩ := fillHeader_eq (s.setSendLen len)
  rw [hm] at h
  obtain ⟨-, c, rfl⟩ | ⟨-, _, c, rfl⟩ := embedChecksum_cases h
  · exact ⟨_, c, rfl⟩
  · exact ⟨_, c, rfl⟩

theorem txPrepStep_writes {s t : State} (hwriter : s.computesCksum) (h : txPrepStep s = .next t) :
    EngineWrites s t := by
  obtain ⟨-, rfl⟩ | ⟨-, len, -, ⟨_, -, -, rfl⟩ | ⟨-, _, hembed, rfl⟩⟩ := txPrepStep_cases h
  · exact (s.raiseErr_keeps _).writes
  · exact ⟨(s.setSendLen len).raiseErr_rxlenWritten _, .inl rfl, fun _ => .inl rfl, .inl rfl, rfl⟩
  · obtain ⟨_, _, rfl⟩ := prepared_eq hembed
    exact ⟨.inl rfl, .inr hwriter, fun _ => .inl rfl, .inl rfl, rfl⟩

theorem txAcqStep_keeps {s t : State} (h : txAcqStep s = .next t) : KeepsResults s t := by
  obtain ⟨-, rfl⟩ | ⟨-, -, rfl⟩ | ⟨-, -, _, _, _, -, rfl⟩ := txAcqStep_cases h
  · exact s.raiseErr_keeps _
  · exact ⟨.inl rfl, rfl, rfl, rfl, rfl⟩
  · exact ⟨.inl rfl, rfl, rfl, rfl, rfl⟩

theorem txWaitStep_keeps {s t : State} (h : txWaitStep s = .next t) : KeepsResults s t := by
  obtain ⟨_, rfl | ⟨-, rfl⟩ | rfl⟩ := txWaitStep_cases h
  · exact ⟨.inl rfl, rfl, rfl, rfl, rfl⟩
  · exact ⟨.inl rfl, rfl, rfl, rfl, rfl⟩
  · exact ⟨.inl rfl, rfl, rfl, rfl, rfl⟩

theorem txChkStep_keeps {s t : State} (h : txChkStep s = .next t) : KeepsResults s t := by
  obtain ⟨-, rfl⟩ | ⟨-, rfl⟩ := txChkStep_cases h
  · exact s.raiseErr_keeps _
  · exact ⟨.inl rfl, rfl, rfl, rfl, rfl⟩

theorem afterOffer_keeps {acc : Nat} {s t : State} (h : afterOffer acc s = .next t) : KeepsResults s t := by
  obtain ⟨-, rfl⟩ | ⟨-, -, rfl⟩ | ⟨-, -, rfl⟩ := afterOffer_cases h
  · exact ⟨.inl rfl, rfl, rfl, rfl, rfl⟩
  · exact ⟨(s.setIndex _).finishOk_rxlenWritten, rfl, rfl, rfl, rfl⟩
  · exact ⟨.inl rfl, rfl, rfl, rfl, rfl⟩

/-- An offer keeps the queue where no byte was held back (10_state.md R42). -/
theorem txByteStep_writes {s t : State} (h : txByteStep s = .next t) : EngineWrites s t := by
  obtain ⟨_, _, _, _, -, -, hoffer⟩ := txByteStep_cases h
  have hkeep := afterOffer_keeps hoffer
  refine ⟨hkeep.rxlen, .inl hkeep.cksum, fun hheld => .inl ?_, .inl hkeep.override, hkeep.unscripted⟩
  rw [hkeep.queue]
  simp [hheld]

/-- The inversion of the Engine's step, read for who writes what. -/
theorem EngineRuns.writes {s t : State} {r : Result} (hruns : EngineRuns s r) (h : r = .next t) :
    EngineWrites s t := by
  cases hruns with
  | hold => cases h; exact KeepsResults.writes ⟨.inl rfl, rfl, rfl, rfl, rfl⟩
  | badOp => cases h; exact (s.raiseErr_keeps _).writes
  | nop => cases h; exact s.finishOk_keeps.writes
  | configure hp hcmd => cases h; exact configure_writes hp hcmd
  | cksum i _ _ _ hp hcmd hphase hnop hconf =>
    exact cksumStep_writes (.inl ⟨hp, hcmd ▸ encode_mem_of_cksum hphase hnop hconf⟩) h
  | hunt hp => exact rxHuntStep_writes hp h
  | settle => cases h; exact KeepsResults.writes ⟨.inl rfl, rfl, rfl, rfl, rfl⟩
  | byte hp => exact rxByteStep_writes hp h
  | check hp hcmd => exact rxCheckStep_writes (.inr (.inr ⟨hp, hcmd⟩)) h
  | prep hp hcmd => exact txPrepStep_writes (.inr (.inl ⟨hp, hcmd⟩)) h
  | acq => exact (txAcqStep_keeps h).writes
  | wait => exact (txWaitStep_keeps h).writes
  | chk => exact (txChkStep_keeps h).writes
  | offer => exact txByteStep_writes h

/-! ### The other agents -/

/-- No other agent but reset writes `RXLEN`, `CKSUM` or the pending override (10_state.md R26, R29, R30). -/
theorem AgentTurn.keeps_results {s t : State} {u : Turn} (hturn : AgentTurn s u t) (hu : u ≠ .reset) :
    t.rxlen = s.rxlen ∧ t.cksum = s.cksum ∧ t.ppsOvrPend = s.ppsOvrPend := by
  cases hturn with
  | reset => exact absurd rfl hu
  | arrive b =>
    obtain ⟨_, _, harrive⟩ := s.rxArrive_eq b
    rw [harrive]
    exact ⟨rfl, rfl, rfl⟩
  | _ => exact ⟨rfl, rfl, rfl⟩

/-- What answers the free inputs is a line of the script alone (30_encoding.md R86). -/
theorem AgentTurn.keeps_unscripted {s t : State} {u : Turn} (hturn : AgentTurn s u t) (hu : ∀ x, u ≠ .unscripted x) :
    t.unscripted = s.unscripted := by
  cases hturn with
  | unscripted x => exact absurd rfl (hu x)
  | arrive b =>
    obtain ⟨_, _, harrive⟩ := s.rxArrive_eq b
    rw [harrive]
  | _ => rfl

theorem State.nextTurn_unique {s : State} {u v : Turn} (hu : s.nextTurn u) (hv : s.nextTurn v) : u = v :=
  Option.some.inj (hu.symm.trans hv)

@[simp] theorem State.turned_ppsOvrPend (s : State) : s.turned.ppsOvrPend = s.ppsOvrPend := rfl

/-! ### The statements -/

/-- Settles O53 (10_state.md R29, R30). -/
theorem resultRegisterWriters : Obligations.ResultRegisterWriters := by
  intro s t hstep hreset
  obtain ⟨hnext, hruns⟩ | ⟨u, hu, hturn⟩ := step_next_cases hstep
  · have hw := hruns.writes rfl
    refine ⟨fun hne => ?_, fun hne => ⟨hnext, hw.cksum.resolve_left hne⟩⟩
    exact ⟨hnext, hw.rxlen.resolve_left hne⟩
  · obtain ⟨hrxlen, hcksum, -⟩ := hturn.keeps_results (by rintro rfl; exact hreset hu)
    exact ⟨fun hne => absurd hrxlen hne, fun hne => absurd hcksum hne⟩

/-- Settles O55 (10_state.md R38): an Engine step that changes the queue has popped its oldest byte. -/
theorem onlyReceivePopsQueue : Obligations.OnlyReceivePopsQueue := by
  intro s t hheld hnext hstep hne
  rw [step_of_engineNext hnext] at hstep
  exact (((engineStep_runs s.turned).writes hstep).queue hheld).resolve_left hne

/-- Settles O56 (10_state.md R26): the writes of the override are told apart by the value they leave. -/
theorem ppsOverridePersists : Obligations.PpsOverridePersists := by
  intro s t hstep
  obtain ⟨hnext, hruns⟩ | ⟨u, hu, hturn⟩ := step_next_cases hstep
  · obtain hkeep | ⟨hset, hp, hv, hown, hq⟩ | ⟨hclear, hp, hcmd⟩ | ⟨hclear, hp, hv, ht⟩ := (hruns.writes rfl).override
    · simp +contextual [hkeep]
    · exact ⟨fun _ _ => ⟨hnext, hp, hv, hown, hq⟩, fun _ h0 => by simp [hset] at h0⟩
    · exact ⟨fun _ h1 => by simp [hclear] at h1, fun _ _ => .inr (.inl ⟨hnext, hp, hcmd⟩)⟩
    · exact ⟨fun _ h1 => by simp [hclear] at h1, fun _ _ => .inr (.inr ⟨hnext, hp, hv, ht⟩)⟩
  · by_cases hreset : u = .reset
    · subst hreset
      cases hturn
      exact ⟨fun _ h1 => by simp [State.rst] at h1, fun _ _ => .inl hu⟩
    · obtain ⟨-, -, hkeep⟩ := hturn.keeps_results hreset
      simp +contextual [hkeep]

end Sys2Proof.Machine
end

section
/-! What a frame in progress has in its buffer: the bytes a capture has stored (41_parser.md R117 to R120) and the frame a
SEND has prepared (43_transmitter.md R161 to R169). Every read of RECEIVE and of the later phases of SEND is of a written
byte, so an Engine step faults only over the operands of a CKSUM operation or of `TX_PREP` (60_exceptions.md R208). -/

namespace Sys2Proof.Machine

/-- An 8-bit register below its last value counts up (10_state.md R35). -/
theorem toNat_succ {b : Byte} (h : b.toNat < 255) : (b + 1).toNat = b.toNat + 1 := by
  rw [BitVec.toNat_add]
  exact Nat.mod_eq_of_lt (show b.toNat + 1 < 256 by omega)

/-! ### The capture -/

/-- What a capture has stored, whether or not its length is known yet (41_parser.md R114, R117, R124). -/
structure State.Stored (s : State) : Prop where
  configured : s.receiveConfigured = true
  pos : 1 ≤ s.i.toNat
  count : s.i.toNat ≤ 33
  filled : s.rxbuf.filled s.i.toNat
  li_frame : s.variant ≠ .pps → s.li = lenIdxOf s.variant
  li_pps : s.variant = .pps → s.li = Config.ppsAfterShortLenIdx ∨ s.li = Config.ppsLongLenIdx

theorem State.Inv.stored {s : State} (h : s.Inv) (hc : s.phase.capturing = true) : s.Stored := by
  obtain ⟨hconf, hpos, hcount, hfilled, hframe, hpps, -⟩ := h.capture hc
  exact ⟨hconf, hpos, hcount, hfilled, hframe, hpps⟩

/-- The length field index is 1, 3, 8 or 9 (00_scope.md R6). -/
theorem State.Stored.li_bounds {s : State} (h : s.Stored) : 1 ≤ s.li.toNat ∧ s.li.toNat ≤ 9 := by
  by_cases hv : s.variant = .pps
  · obtain hli | hli := h.li_pps hv
    · rw [hli]; decide
    · rw [hli]; decide
  · rw [h.li_frame hv]
    cases hvar : s.variant with
    | bsb => decide
    | lpb => decide
    | pps => exact absurd hvar hv

/-- Once the length field is in, it can be read: the declared length is known, and is at most 33 where the sanity check
passes (41_parser.md R118, R119). -/
theorem State.Stored.length_field {s : State} (h : s.Stored) (hli : s.li.toNat < s.i.toNat) :
    ∃ e insane, s.declaredLength = .ok e ∧ lenFieldInsane s = .ok insane ∧ (insane = false → e ≤ 33) := by
  obtain ⟨v, hread⟩ := State.readByte_of_filled (s := s) (b := .rx) h.filled hli
  unfold State.declaredLength lenFieldInsane
  by_cases hv : s.variant = .pps
  · have hbound := h.li_bounds
    exact ⟨s.li.toNat + 1, false, by rw [hv], by rw [if_pos hv], fun _ => by omega⟩
  · rw [if_neg hv, hread]
    rw [h.li_frame hv] at hread
    cases hvar : s.variant with
    | bsb =>
      rw [hvar, lenIdxOf] at hread
      rw [hread]
      exact ⟨_, _, rfl, rfl, fun hsane => (not_lt.mp (of_decide_eq_false hsane)).trans (by decide)⟩
    | lpb =>
      rw [hvar, lenIdxOf] at hread
      rw [hread]
      exact ⟨_, _, rfl, rfl, fun hsane => Nat.succ_le_succ (not_lt.mp (of_decide_eq_false hsane))⟩
    | pps => exact absurd hvar hv

theorem State.popRx_queueOk {s : State} (h : s.QueueOk) : s.popRx.QueueOk := by
  have htail : s.rxq.tail.length ≤ s.rxq.length := by simp
  exact htail.trans h

/-- A pop leaves a state of the invariant. -/
theorem State.Inv.popRx {s : State} (h : s.Inv) : s.popRx.Inv where
  params := h.params
  buffers := h.buffers
  queue := State.popRx_queueOk h.queue
  outputs := ⟨h.outputs.1, rfl, h.outputs.2.2⟩
  status := h.status
  config := h.config
  command := h.command
  capture := h.capture
  send := h.send

/-- The state in which `RX_BYTE` has stored the byte `r` (41_parser.md R117). -/
theorem State.Inv.stored_append {s : State} (h : s.Inv) (hp : s.phase = .rxByte) (r : Byte) :
    ((s.setRx s.i.toNat r).setCount (s.i + 1)).Stored := by
  have hs := h.stored (by rw [hp]; rfl)
  obtain ⟨-, -, -, -, -, -, -, hdecl, hlt⟩ := h.capture (by rw [hp]; rfl)
  have hbound := hs.li_bounds
  have hle : s.i.toNat ≤ 32 := by
    by_cases hli : s.li.toNat < s.i.toNat
    · have hmax := (hdecl hli).2
      have hnext := hlt hp hli
      omega
    · omega
  have hi : (s.i + 1).toNat = s.i.toNat + 1 := toNat_succ (by omega)
  refine ⟨hs.configured, ?_, ?_, ?_, hs.li_frame, hs.li_pps⟩
  · rw [State.setCount_i, hi]
    omega
  · rw [State.setCount_i, hi]
    omega
  · rw [State.setCount_i, hi]
    exact Memory.filled_write_succ hs.filled

theorem afterAppend_ne_fault {s : State} (h : s.Stored) {f : Fault} : afterAppend s ≠ .fault f := by
  intro hf
  unfold afterAppend at hf
  split at hf
  · cases hf
  · rename_i hli
    obtain ⟨e, insane, he, hsane, -⟩ := h.length_field (not_le.mp hli)
    rw [hsane, he] at hf
    cases insane with
    | true => cases hf
    | false =>
      dsimp only at hf
      split at hf
      · cases hf
      · cases hf

theorem rxByteStep_ne_fault {s : State} (h : s.Inv) (hp : s.phase = .rxByte) {f : Fault} :
    rxByteStep s ≠ .fault f := by
  intro hf
  unfold rxByteStep at hf
  split at hf
  · cases hf
  split at hf
  · cases hf
  unfold appendByte at hf
  dsimp only at hf
  split at hf
  · cases hf
  exact afterAppend_ne_fault (h.popRx.stored_append hp _) hf

/-- A frame of its declared length can be checked (41_parser.md R123). -/
theorem State.Stored.frameChecksum {s : State} (h : s.Stored) (hli : s.li.toNat < s.i.toNat)
    (hlen : s.i.toNat = s.declLen) : ∃ p, frameChecksum s = .ok p := by
  have hbound := h.li_bounds
  have hbytes : ∀ n ≤ s.i.toNat, ∃ bs, s.readBytes .rx n = .ok bs := fun n hn =>
    State.readBytes_of_filled (Memory.filled_mono h.filled hn)
  have hbyte : ∀ a < s.i.toNat, ∃ v, s.readByte .rx a = .ok v := fun a ha => State.readByte_of_filled h.filled ha
  unfold Machine.frameChecksum
  cases s.variant with
  | bsb =>
    obtain ⟨bs, hbs⟩ := hbytes s.declLen (by omega)
    dsimp only
    rw [hbs]
    exact ⟨_, rfl⟩
  | lpb =>
    obtain ⟨bs, hbs⟩ := hbytes (lpbReadCount (s.declLen - 1)) (by unfold lpbReadCount; omega)
    obtain ⟨hi, hhi⟩ := hbyte (s.declLen - 1 - 1) (by omega)
    obtain ⟨lo, hlo⟩ := hbyte (s.declLen - 1) (by omega)
    dsimp only
    rw [hbs, hhi, hlo]
    exact ⟨_, rfl⟩
  | pps =>
    obtain ⟨bs, hbs⟩ := hbytes s.li.toNat (by omega)
    obtain ⟨last, hlast⟩ := hbyte s.li.toNat hli
    dsimp only
    rw [hbs, hlast]
    exact ⟨_, rfl⟩

theorem rxCheckStep_ne_fault {s : State} (h : s.Stored) {f : Fault} : rxCheckStep s ≠ .fault f := by
  intro hf
  unfold rxCheckStep at hf
  split at hf
  · cases hf
  · rename_i hli
    split at hf
    · cases hf
    · rename_i hlen
      obtain ⟨⟨c, good⟩, hc⟩ := h.frameChecksum (not_le.mp hli) (not_not.mp hlen)
      unfold checksumCheck at hf
      rw [hc] at hf
      dsimp only at hf
      split at hf
      · cases hf
      · cases hf

/-! ### The prepared frame -/

/-- What `TX_PREP` has prepared, for all the later phases of the send (43_transmitter.md R161 to R169, R180). -/
structure State.Prepared (s : State) : Prop where
  configured : s.sendConfigured = true
  min : Config.minSendLen ≤ s.sendLen
  cap : s.sendLen ≤ s.params.bufCap
  filled : s.txbuf.filled s.sendLen
  length : s.frameLength = .ok s.sendLen

theorem State.Inv.prepared {s : State} (h : s.Inv) (hs : s.phase.sending = true) : s.Prepared := by
  obtain ⟨hconf, hmin, hcap, hfilled, hlength, -⟩ := h.send hs
  exact ⟨hconf, hmin, hcap, hfilled, hlength⟩

theorem State.Inv.index_lt {s : State} (h : s.Inv) (hp : s.phase = .txByte) : s.k.toNat < s.sendLen := by
  obtain ⟨-, -, -, -, -, hk, -⟩ := h.send (by rw [hp]; rfl)
  exact hk hp

theorem txByteStep_ne_fault {s : State} (h : s.Inv) (hp : s.phase = .txByte) {f : Fault} :
    txByteStep s ≠ .fault f := by
  intro hf
  have hfilled := (h.prepared (by rw [hp]; rfl)).filled
  obtain ⟨b, hb⟩ := State.readByte_of_filled (s := s.csEnter) (b := .tx) hfilled (h.index_lt hp)
  unfold txByteStep at hf
  dsimp only at hf
  rw [State.csEnter_k, hb] at hf
  dsimp only at hf
  split at hf
  · cases hf
  · unfold afterOffer at hf
    split at hf
    · cases hf
    · dsimp only at hf
      split at hf
      · cases hf
      · cases hf

/-! ### Where the Engine can stop -/

/-- The inversion of the Engine's step, read for faults. -/
theorem EngineRuns.fault {s : State} {r : Result} {f : Fault} (hruns : EngineRuns s r) (hs : s.Inv)
    (h : r = .fault f) :
    (∃ b j, f = .unwrittenByte b j ∧ (s.buf b).read j = none) ∧
    (s.phase = .exec ∧ s.cmd ∈ [0x02, 0x12, 0x03, 0x13, 0x04, 0x14] ∨ s.phase = .txPrep ∧ s.cmd = 0x06) := by
  cases hruns with
  | hold => cases h
  | badOp => cases h
  | nop => cases h
  | configure => cases h
  | cksum i b _ _ hp hcmd hphase hnop hconf =>
    obtain ⟨j, hf, hj⟩ := cksumStep_fault h
    exact ⟨⟨b, j, hf, hj⟩, .inl ⟨hp, hcmd ▸ encode_mem_of_cksum hphase hnop hconf⟩⟩
  | hunt => exact absurd h rxHuntStep_ne_fault
  | settle => cases h
  | byte hp => exact absurd h (rxByteStep_ne_fault hs hp)
  | check hp => exact absurd h (rxCheckStep_ne_fault (hs.stored (by rw [hp]; rfl)))
  | prep hp hcmd =>
    obtain ⟨j, hf, hj⟩ := txPrepStep_fault h
    exact ⟨⟨.tx, j, hf, hj⟩, .inr ⟨hp, hcmd⟩⟩
  | acq => exact absurd h txAcqStep_ne_fault
  | wait => exact absurd h txWaitStep_ne_fault
  | chk => exact absurd h txChkStep_ne_fault
  | offer hp => exact absurd h (txByteStep_ne_fault hs hp)

/-- The invariant does not look at the agenda. -/
theorem State.Inv.turned {s : State} (h : s.Inv) : s.turned.Inv :=
  ⟨h.params, h.buffers, h.queue, h.outputs, h.status, h.config, h.command, h.capture, h.send⟩

/-- Settles O51 (10_state.md R27, 60_exceptions.md R208). -/
theorem engineFaultsOnlyOverUnwrittenOperands : Obligations.EngineFaultsOnlyOverUnwrittenOperands := by
  intro s f hs hnext hstep
  rw [step_of_engineNext hnext] at hstep
  exact (engineStep_runs s.turned).fault hs.turned hstep

end Sys2Proof.Machine
end

section
/-! The invariant of the machine, step by step. The parameters and the buffers are kept whatever else holds
(`parametersNeverChange`, `stepKeepsBuffersCanonical`); the other parts of `State.Inv` are `State.Orderly`, and each operation
of the Engine and each other agent's turn leads from the invariant to it. -/

namespace Sys2Proof.Machine

/-! ### Shapes of a next state -/

/-- The invariant but for the parameters and the buffers. -/
structure State.Orderly (s : State) : Prop where
  queue : s.QueueOk
  outputs : s.OutputsQuiet
  status : s.StatusOk
  config : s.ConfigOk
  command : s.CommandOk
  capture : s.CaptureOk
  send : s.SendOk

theorem State.Inv.orderly {s : State} (h : s.Inv) : s.Orderly :=
  ⟨h.queue, h.outputs, h.status, h.config, h.command, h.capture, h.send⟩

theorem State.Orderly.inv {s : State} (h : s.Orderly) (hp : s.params.wellFormed = true) (hb : s.BuffersOk) : s.Inv :=
  ⟨hp, hb, h.queue, h.outputs, h.status, h.config, h.command, h.capture, h.send⟩

theorem State.captureOk_of_not_capturing {s : State} (h : s.phase.capturing = false) : s.CaptureOk := by
  intro hc
  simp [h] at hc

theorem State.sendOk_of_not_sending {s : State} (h : s.phase.sending = false) : s.SendOk := by
  intro hs
  simp [h] at hs

/-- An idle block makes no promise of a command, a capture or a send. -/
theorem State.orderly_of_idle {s : State} (hp : s.phase = .idle) (hq : s.QueueOk) (ho : s.OutputsQuiet)
    (hs : s.StatusOk) (hc : s.ConfigOk) : s.Orderly where
  queue := hq
  outputs := ho
  status := hs
  config := hc
  command := by
    intro p hstart
    rw [hp] at hstart
    cases hstart
  capture := State.captureOk_of_not_capturing (by rw [hp]; rfl)
  send := State.sendOk_of_not_sending (by rw [hp]; rfl)

/-- A successful finish (60_exceptions.md R200). -/
theorem State.finishOk_orderly {s : State} (hq : s.QueueOk) (ho : s.OutputsQuiet) (hc : s.ConfigOk) :
    s.finishOk.Orderly :=
  State.orderly_of_idle rfl hq ho ⟨fun h => absurd rfl h, nofun, fun _ => ⟨fun _ => rfl, fun _ => rfl⟩⟩ hc

/-- A finish with an error (60_exceptions.md R202). -/
theorem State.raiseErr_orderly {s : State} {e : ErrCode} (he : e ≠ .none) (hq : s.QueueOk) (ho : s.OutputsQuiet)
    (hc : s.ConfigOk) : (s.raiseErr e).Orderly :=
  State.orderly_of_idle rfl hq ho
    ⟨fun h => absurd rfl h, nofun, fun _ => ⟨nofun, fun h => absurd h he⟩⟩ hc

/-- A step inside an operation: the command's phases go on, and its status is still clear (10_state.md R28, R33). -/
theorem State.Inv.continues {s t : State} (h : s.Inv) {p : Phase} (hs : s.phase.start = some p)
    (ht : t.phase.start = some p) (hcmd : t.cmd = s.cmd) (hstatus : t.done = s.done ∧ t.ok = s.ok ∧ t.err = s.err)
    (hq : t.QueueOk) (ho : t.OutputsQuiet) (hc : t.ConfigOk) (hcapture : t.CaptureOk) (hsend : t.SendOk) :
    t.Orderly where
  queue := hq
  outputs := ho
  config := hc
  capture := hcapture
  send := hsend
  command := by
    intro q hq
    rw [hcmd, h.command p hs]
    exact Option.some.inj (ht.symm.trans hq)
  status := by
    obtain ⟨hdone, hok, herr⟩ := hstatus
    obtain ⟨hbusy, hclear, hagree⟩ := h.status
    have hd : s.done = false := hbusy (by intro hidle; rw [hidle] at hs; cases hs)
    unfold State.StatusOk
    rw [hdone, hok, herr]
    exact ⟨fun _ => hd, hclear, hagree⟩

/-! ### CONFIGURE -/

/-- Storing the variant stores its `LEN_IDX` and clears the override (40_config.md R102). -/
theorem State.configureVariant_configOk {s : State} (h : s.ConfigOk) : s.configureVariant.ConfigOk := by
  unfold State.configureVariant
  split
  · obtain ⟨-, hown, hdest, ho, hd, -⟩ := h
    exact ⟨fun _ => rfl, hown, hdest, ho, hd, nofun⟩
  · exact h

/-- The address sentinel is never stored (40_config.md R101). -/
theorem State.configureOwn_configOk {s : State} (h : s.ConfigOk) : s.configureOwn.ConfigOk := by
  unfold State.configureOwn
  split
  · exact h
  · rename_i hne
    obtain ⟨hlen, -, hdest, -, hd, hover⟩ := h
    exact ⟨hlen, hne, hdest, nofun, hd, hover⟩

theorem State.configureDest_configOk {s : State} (h : s.ConfigOk) : s.configureDest.ConfigOk := by
  unfold State.configureDest
  split
  · exact h
  · rename_i hne
    obtain ⟨hlen, hown, -, ho, -, hover⟩ := h
    exact ⟨hlen, hown, hne, ho, nofun, hover⟩

theorem configure_orderly {s : State} (h : s.Inv) :
    s.configureVariant.configureOwn.configureDest.finishOk.Orderly := by
  have hconfig := State.configureDest_configOk (State.configureOwn_configOk (State.configureVariant_configOk h.config))
  obtain ⟨_, _, _, _, _, _, _, _, hc⟩ := configure_eq s
  rw [hc] at hconfig ⊢
  exact State.finishOk_orderly h.queue h.outputs hconfig

/-! ### RECEIVE -/

/-- The promise of a capture, from what it has stored (41_parser.md R117 to R120). -/
theorem State.Stored.captureOk {s : State} (h : s.Stored) (hsettle : s.phase = .rxSettle → s.i = 1)
    (hdecl : s.li.toNat < s.i.toNat → s.declaredLength = .ok s.declLen ∧ s.declLen ≤ 33)
    (hbyte : s.phase = .rxByte → s.li.toNat < s.i.toNat → s.i.toNat < s.declLen) : s.CaptureOk :=
  fun _ => ⟨h.configured, h.pos, h.count, h.filled, h.li_frame, h.li_pps, hsettle, hdecl, hbyte⟩

theorem State.Stored.goto {s : State} (h : s.Stored) (p : Phase) : (s.goto p).Stored :=
  ⟨h.configured, h.pos, h.count, h.filled, h.li_frame, h.li_pps⟩

theorem State.Stored.setDeclLen {s : State} (h : s.Stored) (e : Nat) : (s.setDeclLen e).Stored :=
  ⟨h.configured, h.pos, h.count, h.filled, h.li_frame, h.li_pps⟩

/-- A length field that passes the sanity check declares at most 33 bytes (41_parser.md R118, R119). -/
theorem State.Stored.declaredLength_le {s : State} {e : Nat} (h : s.Stored) (hli : s.li.toNat < s.i.toNat)
    (he : s.declaredLength = .ok e) (hsane : lenFieldInsane s = .ok false) : e ≤ 33 := by
  obtain ⟨e', insane, he', hinsane, hle⟩ := h.length_field hli
  cases he.symm.trans he'
  cases hsane.symm.trans hinsane
  exact hle rfl

/-- After one byte the length field is still to come (00_scope.md R6: no `LEN_IDX` is 0). -/
theorem State.Stored.captureOk_of_one {s : State} (h : s.Stored) (hi : s.i = 1) : s.CaptureOk := by
  have hbefore : ¬ s.li.toNat < s.i.toNat := by
    have hli := h.li_bounds
    rw [hi]
    simp
    omega
  exact h.captureOk (fun _ => hi) (fun hli => absurd hli hbefore) (fun _ hli => absurd hli hbefore)

/-- A configured receiver has a valid variant (41_parser.md R111). -/
theorem State.validV_of_receiveConfigured {s : State} (h : s.receiveConfigured = true) : s.validV = true := by
  simp only [State.receiveConfigured, Bool.and_eq_true] at h
  exact h.1

/-- The hunt may clear the count: no capture is in progress. -/
theorem State.Inv.setCount {s : State} (h : s.Inv) (hp : s.phase = .rxHunt) (c : Byte) : (s.setCount c).Inv :=
  ⟨h.params, h.buffers, h.queue, h.outputs, h.status, h.config, h.command,
    State.captureOk_of_not_capturing (by rw [State.setCount_phase, hp]; rfl), h.send⟩

theorem sofFound_orderly {b : Byte} {s t : State} (h : s.Inv) (hp : s.phase = .rxHunt)
    (hconf : s.receiveConfigured = true) (hstep : sofFound b s = .next t) : t.Orderly := by
  have hvalid := State.validV_of_receiveConfigured hconf
  obtain ⟨hlen, hown, hdest, ho, hd, -⟩ := h.config
  have hone : (1 : Byte).toNat ≤ 33 := by decide
  have hfilled : (s.rxbuf.write 0 b).filled 1 := Memory.filled_write_succ (fun j hj => absurd hj (Nat.not_lt_zero j))
  obtain ⟨hv, -, -, rfl⟩ | ⟨-, -, rfl⟩ | ⟨-, hv, -, li, _, _, hli, rfl⟩ := sofFound_cases hstep
  · exact State.finishOk_orderly h.queue h.outputs ⟨hlen, hown, hdest, ho, hd, fun _ => ⟨hvalid, hv⟩⟩
  · refine h.continues (by rw [hp]; rfl) rfl rfl ⟨rfl, rfl, rfl⟩ h.queue h.outputs h.config ?_
      (State.sendOk_of_not_sending rfl)
    refine State.Stored.captureOk_of_one ⟨hconf, le_refl 1, hone, hfilled, fun _ => hlen hvalid, fun hv => ?_⟩ rfl
    right
    exact (hlen hvalid).trans (congrArg lenIdxOf hv)
  · refine h.continues (by rw [hp]; rfl) rfl rfl ⟨rfl, rfl, rfl⟩ h.queue h.outputs
      ⟨hlen, hown, hdest, ho, hd, nofun⟩ ?_ (State.sendOk_of_not_sending rfl)
    exact State.Stored.captureOk_of_one ⟨hconf, le_refl 1, hone, hfilled, fun hn => absurd hv hn, fun _ => hli⟩ rfl

theorem rxHuntStep_orderly {s t : State} (h : s.Inv) (hp : s.phase = .rxHunt) (hstep : rxHuntStep s = .next t) :
    t.Orderly := by
  obtain ⟨-, rfl⟩ | ⟨-, -, rfl⟩ | ⟨_, _, -, -, -, rfl⟩ | ⟨_, _, _, hconf, -, -, hsof⟩ := rxHuntStep_cases hstep
  · exact State.raiseErr_orderly (s := s.setCount 0) (by decide) h.queue h.outputs h.config
  · exact State.raiseErr_orderly (s := s.setCount 0) (by decide) h.queue h.outputs h.config
  · exact (h.setCount hp 0).popRx.orderly
  · exact sofFound_orderly (h.setCount hp 0).popRx hp hconf hsof

theorem rxSettleStep_orderly {s t : State} (h : s.Inv) (hp : s.phase = .rxSettle) (hstep : rxSettleStep s = .next t) :
    t.Orderly := by
  cases hstep
  have hcap : s.phase.capturing = true := by rw [hp]; rfl
  have hone : s.i = 1 := by
    obtain ⟨-, -, -, -, -, -, hone, -⟩ := h.capture hcap
    exact hone hp
  obtain ⟨hconf, hpos, hcount, hfilled, hframe, hpps⟩ := h.stored hcap
  exact h.continues (by rw [hp]; rfl) rfl rfl ⟨rfl, rfl, rfl⟩ h.queue h.outputs h.config
    (State.Stored.captureOk_of_one ⟨hconf, hpos, hcount, hfilled, hframe, hpps⟩ hone) (State.sendOk_of_not_sending rfl)

/-- `after_append()` on the state `u` in which `RX_BYTE` has stored its byte (41_parser.md R118 to R120). -/
theorem afterAppend_orderly {s u t : State} (h : s.Inv) (hp : s.phase = .rxByte) (hstored : u.Stored)
    (hstep : afterAppend u = .next t) (hcmd : u.cmd = s.cmd) (hstatus : u.done = s.done ∧ u.ok = s.ok ∧ u.err = s.err)
    (hq : u.QueueOk) (ho : u.OutputsQuiet) (hc : u.ConfigOk) : t.Orderly := by
  have hstart : s.phase.start = some .rxHunt := by rw [hp]; rfl
  obtain ⟨hli, rfl⟩ | ⟨-, -, rfl⟩ | ⟨hli, hsane, e, he, hnext⟩ := afterAppend_cases hstep
  · refine h.continues hstart rfl hcmd hstatus hq ho hc ?_ (State.sendOk_of_not_sending rfl)
    exact (hstored.goto .rxByte).captureOk nofun (fun hlt => absurd hlt (not_lt.mpr hli))
      (fun _ hlt => absurd hlt (not_lt.mpr hli))
  · exact State.raiseErr_orderly (by decide) hq ho hc
  · have hdecl := And.intro he (hstored.declaredLength_le hli he hsane)
    obtain ⟨-, rfl⟩ | ⟨hlt, rfl⟩ := hnext
    · refine h.continues hstart rfl hcmd hstatus hq ho hc ?_ (State.sendOk_of_not_sending rfl)
      exact ((hstored.setDeclLen e).goto .rxCheck).captureOk nofun (fun _ => hdecl) nofun
    · refine h.continues hstart rfl hcmd hstatus hq ho hc ?_ (State.sendOk_of_not_sending rfl)
      exact ((hstored.setDeclLen e).goto .rxByte).captureOk nofun (fun _ => hdecl) (fun _ _ => hlt)

theorem rxByteStep_orderly {s t : State} (h : s.Inv) (hp : s.phase = .rxByte) (hstep : rxByteStep s = .next t) :
    t.Orderly := by
  have hcap : s.phase.capturing = true := by rw [hp]; rfl
  have hstart : s.phase.start = some .rxHunt := by rw [hp]; rfl
  have hpop := h.popRx
  obtain ⟨-, rfl⟩ | ⟨-, -, rfl⟩ | ⟨_, _, -, -, -, rfl⟩ | ⟨r, _, -, -, -, happ⟩ := rxByteStep_cases hstep
  · obtain ⟨hconf, hpos, hcount, hfilled, hframe, hpps, -, hdecl, -⟩ := h.capture hcap
    refine h.continues hstart rfl rfl ⟨rfl, rfl, rfl⟩ h.queue h.outputs h.config ?_ (State.sendOk_of_not_sending rfl)
    exact fun _ => ⟨hconf, hpos, hcount, hfilled, hframe, hpps, nofun, hdecl, nofun⟩
  · exact h.orderly
  · exact State.raiseErr_orderly (by decide) hpop.queue hpop.outputs hpop.config
  · exact afterAppend_orderly hpop hp (hpop.stored_append hp _) happ rfl ⟨rfl, rfl, rfl⟩ hpop.queue hpop.outputs hpop.config

theorem rxCheckStep_orderly {s t : State} (h : s.Inv) (hstep : rxCheckStep s = .next t) : t.Orderly := by
  obtain ⟨-, rfl⟩ | ⟨-, -, c, _, -, ⟨-, rfl⟩ | ⟨-, rfl⟩⟩ := rxCheckStep_cases hstep
  · exact State.raiseErr_orderly (by decide) h.queue h.outputs h.config
  · exact State.finishOk_orderly (s := s.setCksum c) h.queue h.outputs h.config
  · exact State.raiseErr_orderly (s := s.setCksum c) (by decide) h.queue h.outputs h.config

/-! ### SEND -/

/-- A range that could be read is written. -/
theorem State.filled_of_readBytes {s : State} {b : Buffer} {n : Nat} {bs : List Byte} (h : s.readBytes b n = .ok bs) :
    (s.buf b).filled n := by
  obtain ⟨hlen, hholds⟩ := State.readBytes_eq_ok.mp h
  intro j hj
  rw [hholds j (hlen ▸ hj)]
  simp [hlen, hj]

/-- The trailer completes the frame (43_transmitter.md R167, R168). -/
theorem setTrailer_filled {s : State} {len : Nat} (h : s.txbuf.filled (len - 2)) (hlen : 2 ≤ len) (c : Half) :
    (s.setTrailer len c).txbuf.filled len := by
  have hhi := Memory.filled_write_succ (v := hiByte c) h
  have hlo := Memory.filled_write_succ (v := loByte c) hhi
  rw [show len - 2 + 1 = len - 1 by omega, show len - 1 + 1 = len by omega] at hlo
  exact hlo

/-- The checksum was computed over written bytes, and its bytes complete the frame (43_transmitter.md R167 to R169). -/
theorem embedChecksum_filled {s u : State} {len : Nat} (hframe : s.variant ≠ .pps → 6 ≤ len)
    (hpps : s.variant = .pps → len = s.lenIdx.toNat + 1) (h : embedChecksum s len = .ok u) : u.txbuf.filled len := by
  unfold embedChecksum at h
  split at h
  · rename_i hv
    have hmin := hframe (by simp [hv])
    split at h
    · cases h
    · rename_i hread
      cases h
      exact setTrailer_filled (State.filled_of_readBytes hread) (by omega) _
  · rename_i hv
    have hmin := hframe (by simp [hv])
    split at h
    · cases h
    · rename_i hread
      cases h
      exact setTrailer_filled (State.filled_of_readBytes hread) (by omega) _
  · rename_i hv
    split at h
    · cases h
    · rename_i hread
      cases h
      rw [hpps hv]
      exact Memory.filled_write_succ (State.filled_of_readBytes hread)

/-- `frame_length()` reads the length field alone (43_transmitter.md R162). -/
theorem State.frameLength_congr {s u : State} (hv : u.variant = s.variant) (hl : u.lenIdx = s.lenIdx)
    (hread : s.variant ≠ .pps →
      u.txbuf.read (lenIdxOf s.variant).toNat = s.txbuf.read (lenIdxOf s.variant).toNat) :
    u.frameLength = s.frameLength := by
  unfold State.frameLength State.readByte
  rw [hv, hl]
  cases hvar : s.variant with
  | bsb =>
    rw [hvar] at hread
    simp only [State.buf_tx]
    rw [show u.txbuf.read Config.lenIdxBsb.toNat = _ from hread (by decide)]
    rfl
  | lpb =>
    rw [hvar] at hread
    simp only [State.buf_tx]
    rw [show u.txbuf.read Config.lenIdxLpb.toNat = _ from hread (by decide)]
    rfl
  | pps => rfl

/-- The header leaves the length field alone (43_transmitter.md R164, R165). -/
theorem State.fillHeader_frameLength (s : State) : s.fillHeader.frameLength = s.frameLength := by
  refine State.frameLength_congr (by simp) (by simp) fun hv => ?_
  unfold State.fillHeader
  split
  · rename_i hvar
    simp [hvar, lenIdxOf, Config.lenIdxBsb, Memory.read_write]
  · rename_i hvar
    split
    · simp [hvar, lenIdxOf, Config.lenIdxLpb, Memory.read_write]
    · simp [hvar, lenIdxOf, Config.lenIdxLpb, Memory.read_write]
  · rfl

/-- The trailer lies behind the length field (43_transmitter.md R167 to R169). -/
theorem embedChecksum_frameLength {s u : State} {len : Nat} (hframe : s.variant ≠ .pps → 6 ≤ len)
    (h : embedChecksum s len = .ok u) : u.frameLength = s.frameLength := by
  obtain ⟨hv, c, rfl⟩ | ⟨hv, v, c, rfl⟩ := embedChecksum_cases h
  · have hmin := hframe hv
    have hidx : (lenIdxOf s.variant).toNat ≤ 3 := by
      cases hvar : s.variant with
      | bsb => decide
      | lpb => decide
      | pps => exact absurd hvar hv
    refine State.frameLength_congr rfl rfl fun _ => ?_
    unfold State.setTrailer
    simp only [State.setCksum_txbuf, State.setTx_txbuf]
    rw [Memory.read_write_other _ _ (by omega), Memory.read_write_other _ _ (by omega)]
  · exact State.frameLength_congr rfl rfl fun hn => absurd hv hn

theorem State.Prepared.sendOk {s : State} (h : s.Prepared) (hbyte : s.phase = .txByte → s.k.toNat < s.sendLen)
    (hwait : s.phase = .txWait → s.variant ≠ .pps ∧
      s.params.backoffMin.toNat ≤ s.d.toNat ∧ s.d.toNat ≤ s.params.backoffMax.toNat) : s.SendOk :=
  fun _ => ⟨h.configured, h.min, h.cap, h.filled, h.length, hbyte, hwait⟩

theorem State.validV_of_sendConfigured {s : State} (h : s.sendConfigured = true) : s.validV = true := by
  simp only [State.sendConfigured, Bool.and_eq_true] at h
  exact h.1

/-- A PPS frame is 10 bytes long (43_transmitter.md R162). -/
theorem State.Inv.lenIdx_pps {s : State} (h : s.Inv) (hconf : s.sendConfigured = true) (hv : s.variant = .pps) :
    s.lenIdx.toNat = 9 := by
  obtain ⟨hlen, -⟩ := h.config
  rw [hlen (State.validV_of_sendConfigured hconf), hv]
  rfl

theorem txPrepStep_orderly {s t : State} (h : s.Inv) (hp : s.phase = .txPrep) (hstep : txPrepStep s = .next t) :
    t.Orderly := by
  obtain ⟨-, rfl⟩ | ⟨hconf, len, hlen, ⟨e, he, -, rfl⟩ | ⟨hcheck, u, hembed, rfl⟩⟩ := txPrepStep_cases hstep
  · exact State.raiseErr_orderly (by decide) h.queue h.outputs h.config
  · exact State.raiseErr_orderly (s := s.setSendLen len) (by rintro rfl; simp at he) h.queue h.outputs h.config
  · obtain ⟨hmax, hmin⟩ := checkLength_ok_none hcheck
    have hframe : (s.setSendLen len).fillHeader.variant ≠ .pps → 6 ≤ len := fun hv => (hmin (by simpa using hv)).1
    have hpps : s.variant = .pps → len = s.lenIdx.toNat + 1 := by
      intro hv
      rw [State.frameLength_pps hv] at hlen
      exact (Except.ok.inj hlen).symm
    have hfilled := embedChecksum_filled hframe (fun hv => by simpa using hpps (by simpa using hv)) hembed
    have hlength : u.frameLength = .ok len := by
      rw [embedChecksum_frameLength hframe hembed, State.fillHeader_frameLength]
      exact hlen
    have hsix : 6 ≤ len := by
      by_cases hv : s.variant = .pps
      · have hidx := h.lenIdx_pps hconf hv
        have hten := hpps hv
        omega
      · exact hframe (by simpa using hv)
    obtain ⟨m, c, rfl⟩ := prepared_eq hembed
    refine h.continues (by rw [hp]; rfl) rfl rfl ⟨rfl, rfl, rfl⟩ h.queue h.outputs h.config
      (State.captureOk_of_not_capturing rfl) ?_
    exact State.Prepared.sendOk ⟨hconf, hsix, hmax, hfilled, hlength⟩ nofun nofun

theorem txAcqStep_orderly {s t : State} (h : s.Inv) (hp : s.phase = .txAcq) (hstep : txAcqStep s = .next t) :
    t.Orderly := by
  have hstart : s.phase.start = some .txPrep := by rw [hp]; rfl
  obtain ⟨hconf, hmin, hcap, hfilled, hlength⟩ := h.prepared (by rw [hp]; rfl)
  obtain ⟨-, rfl⟩ | ⟨-, -, rfl⟩ | ⟨-, hv, _, _, _, hd, rfl⟩ := txAcqStep_cases hstep
  · exact State.raiseErr_orderly (by decide) h.queue h.outputs h.config
  · exact h.continues hstart rfl rfl ⟨rfl, rfl, rfl⟩ h.queue h.outputs h.config
      (State.captureOk_of_not_capturing rfl) (State.Prepared.sendOk ⟨hconf, hmin, hcap, hfilled, hlength⟩ nofun nofun)
  · exact h.continues hstart rfl rfl ⟨rfl, rfl, rfl⟩ h.queue h.outputs h.config
      (State.captureOk_of_not_capturing rfl)
      (State.Prepared.sendOk ⟨hconf, hmin, hcap, hfilled, hlength⟩ nofun (fun _ => ⟨hv, hd h.params⟩))

theorem txWaitStep_orderly {s t : State} (h : s.Inv) (hp : s.phase = .txWait) (hstep : txWaitStep s = .next t) :
    t.Orderly := by
  have hstart : s.phase.start = some .txPrep := by rw [hp]; rfl
  obtain ⟨hconf, hmin, hcap, hfilled, hlength, -, hwait⟩ := h.send (by rw [hp]; rfl)
  obtain ⟨_, rfl | ⟨-, rfl⟩ | rfl⟩ := txWaitStep_cases hstep
  · exact h.continues hstart rfl rfl ⟨rfl, rfl, rfl⟩ h.queue h.outputs h.config
      (State.captureOk_of_not_capturing rfl) (State.Prepared.sendOk ⟨hconf, hmin, hcap, hfilled, hlength⟩ nofun nofun)
  · exact h.continues hstart rfl rfl ⟨rfl, rfl, rfl⟩ h.queue h.outputs h.config
      (State.captureOk_of_not_capturing rfl) (State.Prepared.sendOk ⟨hconf, hmin, hcap, hfilled, hlength⟩ nofun nofun)
  · exact h.continues hstart rfl rfl ⟨rfl, rfl, rfl⟩ h.queue h.outputs h.config
      (State.captureOk_of_not_capturing rfl)
      (State.Prepared.sendOk ⟨hconf, hmin, hcap, hfilled, hlength⟩ nofun (fun _ => hwait hp))

theorem txChkStep_orderly {s t : State} (h : s.Inv) (hp : s.phase = .txChk) (hstep : txChkStep s = .next t) :
    t.Orderly := by
  have hzero : (0 : Byte).toNat < Config.minSendLen := by decide
  obtain ⟨hconf, hmin, hcap, hfilled, hlength⟩ := h.prepared (by rw [hp]; rfl)
  obtain ⟨-, rfl⟩ | ⟨-, rfl⟩ := txChkStep_cases hstep
  · exact State.raiseErr_orderly (by decide) h.queue h.outputs h.config
  · exact h.continues (by rw [hp]; rfl) rfl rfl ⟨rfl, rfl, rfl⟩ h.queue h.outputs h.config
      (State.captureOk_of_not_capturing rfl)
      (State.Prepared.sendOk ⟨hconf, hmin, hcap, hfilled, hlength⟩ (fun _ => lt_of_lt_of_le hzero hmin) nofun)

/-- The critical section of an offer, where no byte was held back (10_state.md R42, 43_transmitter.md R173). -/
theorem State.offer_csExit_eq {s : State} (hheld : s.csHeld = []) (ds : List Nat) (c : Nat) (w : Byte) (acc : Nat) :
    ({ s with acceptDraws := ds, drawCount := c, csActive := true }.offer w acc).csExit =
      { s with
        acceptDraws := ds, drawCount := c, csActive := false, txData := w, txStrobe := false
        offered := s.offered ++ [{ data := w, accepted := acc }] } := by
  simp [State.offer, State.csExit, hheld]

theorem afterOffer_orderly {acc : Nat} {s t : State} (h : s.Inv) (hp : s.phase = .txByte)
    (hstep : afterOffer acc s = .next t) : t.Orderly := by
  have hstart : s.phase.start = some .txPrep := by rw [hp]; rfl
  obtain ⟨hconf, hmin, hcap, hfilled, hlength⟩ := h.prepared (by rw [hp]; rfl)
  obtain ⟨-, rfl⟩ | ⟨-, -, rfl⟩ | ⟨-, hk, rfl⟩ := afterOffer_cases hstep
  · exact h.continues hstart rfl rfl ⟨rfl, rfl, rfl⟩ h.queue h.outputs h.config
      (State.captureOk_of_not_capturing rfl) (State.Prepared.sendOk ⟨hconf, hmin, hcap, hfilled, hlength⟩ nofun nofun)
  · exact State.finishOk_orderly (s := s.setIndex (s.k + 1)) h.queue h.outputs h.config
  · have hnext : (s.k + 1).toNat < s.sendLen := by
      have hlt := h.index_lt hp
      have hcap64 := Params.bufCap_le h.params
      rw [toNat_succ (by omega)] at hk ⊢
      omega
    exact h.continues hstart rfl rfl ⟨rfl, rfl, rfl⟩ h.queue h.outputs h.config
      (State.captureOk_of_not_capturing rfl)
      (State.Prepared.sendOk ⟨hconf, hmin, hcap, hfilled, hlength⟩ (fun _ => hnext) nofun)

theorem txByteStep_orderly {s t : State} (h : s.Inv) (hp : s.phase = .txByte) (hstep : txByteStep s = .next t) :
    t.Orderly := by
  obtain ⟨_, _, _, _, -, -, hoffer⟩ := txByteStep_cases hstep
  obtain ⟨-, hpop, -, hheld⟩ := h.outputs
  rw [State.offer_csExit_eq hheld] at hoffer
  refine afterOffer_orderly ?_ ?_ hoffer
  · exact ⟨h.params, h.buffers, h.queue, ⟨rfl, hpop, rfl, hheld⟩, h.status, h.config, h.command, h.capture, h.send⟩
  · exact hp

/-! ### Every step -/

theorem cksumStep_orderly {b : Buffer} {count : Nat → Nat} {engine : List Byte → Nat → Half} {s t : State}
    (h : s.Inv) (hstep : cksumStep b count engine s = .next t) : t.Orderly := by
  obtain ⟨-, rfl⟩ | ⟨-, _, -, -, rfl⟩ := cksumStep_cases hstep
  · exact State.raiseErr_orderly (by decide) h.queue h.outputs h.config
  · exact State.finishOk_orderly (s := s.setCksum _) h.queue h.outputs h.config

theorem EngineRuns.orderly {s t : State} {r : Result} (hruns : EngineRuns s r) (h : s.Inv) (hr : r = .next t) :
    t.Orderly := by
  cases hruns with
  | hold => cases hr; exact h.orderly
  | badOp => cases hr; exact State.raiseErr_orderly (by decide) h.queue h.outputs h.config
  | nop => cases hr; exact State.finishOk_orderly h.queue h.outputs h.config
  | configure => cases hr; exact configure_orderly h
  | cksum => exact cksumStep_orderly h hr
  | hunt hp => exact rxHuntStep_orderly h hp hr
  | settle hp => exact rxSettleStep_orderly h hp hr
  | byte hp => exact rxByteStep_orderly h hp hr
  | check => exact rxCheckStep_orderly h hr
  | prep hp => exact txPrepStep_orderly h hp hr
  | acq hp => exact txAcqStep_orderly h hp hr
  | wait hp => exact txWaitStep_orderly h hp hr
  | chk hp => exact txChkStep_orderly h hp hr
  | offer hp => exact txByteStep_orderly h hp hr

/-- An accepted command starts with clear results in the first phase of its operation (20_memory.md R54). -/
theorem State.accept_orderly {s : State} (h : s.Inv) (v : Byte) : (s.accept v).Orderly where
  queue := h.queue
  outputs := h.outputs
  status := ⟨fun _ => rfl, fun _ => ⟨rfl, rfl⟩, nofun⟩
  config := h.config
  command := by
    intro p hstart
    obtain hv | hv | hv := firstPhase_cases v
    all_goals
      simp only [State.accept, hv, Phase.start, Option.some.injEq] at hstart ⊢
      exact hstart
  capture := State.captureOk_of_not_capturing (by
    obtain hv | hv | hv := firstPhase_cases v
    all_goals simp [State.accept, hv, Phase.capturing])
  send := State.sendOk_of_not_sending (by
    obtain hv | hv | hv := firstPhase_cases v
    all_goals simp [State.accept, hv, Phase.sending])

/-- An arriving byte finds the receive path open, and the queue keeps its depth (10_state.md R38). -/
theorem State.rxArrive_orderly {s : State} (h : s.Inv) (b : Byte) : (s.rxArrive b).Orderly := by
  obtain ⟨hopen, -⟩ := h.outputs
  have hdepth : 1 ≤ s.params.rxFifoDepth := by
    have hp := h.params
    simp only [Params.wellFormed, Params.fifoOk, Bool.and_eq_true, decide_eq_true_eq] at hp
    exact hp.2
  rw [State.rxArrive_of_open hopen]
  exact ⟨enqueue_length b hdepth h.queue, h.outputs, h.status, h.config, h.command, h.capture, h.send⟩

/-- The reset values (70_reset_and_hazards.md R231); the queue is not the block's. -/
theorem State.rst_orderly {s : State} (h : s.Inv) : s.rst.Orderly :=
  have hzero : (0 : Byte) ≠ Config.addrSentinel := by decide
  State.orderly_of_idle rfl h.queue ⟨rfl, rfl, rfl, h.outputs.2.2.2⟩ ⟨nofun, fun _ => ⟨rfl, rfl⟩, nofun⟩
    ⟨nofun, hzero, hzero, fun _ => rfl, fun _ => rfl, nofun⟩

theorem AgentTurn.orderly {s t : State} {u : Turn} (hturn : AgentTurn s u t) (h : s.Inv) : t.Orderly := by
  cases hturn with
  | accept _ v => exact State.accept_orderly h v
  | storeTx _ _ _ hidle => exact State.orderly_of_idle hidle h.queue h.outputs h.status h.config
  | storeRx _ _ _ hidle => exact State.orderly_of_idle hidle h.queue h.outputs h.status h.config
  | arrive b => exact State.rxArrive_orderly h b
  | reset => exact State.rst_orderly h
  | _ => exact ⟨h.queue, h.outputs, h.status, h.config, h.command, h.capture, h.send⟩

/-- Settles O49 (10_state.md, 20_memory.md R54, 41_parser.md, 43_transmitter.md): the inductive step of the machine's
invariant. -/
theorem stepKeepsInvariant : Obligations.StepKeepsInvariant := by
  intro s t h hstep
  have horderly : t.Orderly := by
    obtain ⟨-, hruns⟩ | ⟨u, -, hturn⟩ := step_next_cases hstep
    · exact hruns.orderly h.turned rfl
    · exact hturn.orderly h.turned
  refine horderly.inv ?_ (stepKeepsBuffersCanonical s t h.params h.buffers hstep)
  rw [parametersNeverChange s t hstep]
  exact h.params

end Sys2Proof.Machine
end

section
/-! Programs (30_encoding.md R86, R87, 10_state.md R43): the turns of a script, and the three free inputs under the
simulator's defaults. -/

namespace Sys2Proof.Machine

/-! ### The turns of a script -/

theorem step_unscripted {s : State} {u : Unscripted} (h : s.nextTurn (.unscripted u)) :
    step s = .next { s.turned with unscripted := u } :=
  step_of_nextTurn h

/-- What answers the free inputs is kept by every step but the script's own (30_encoding.md R86). -/
theorem step_keeps_unscripted {s t : State} (h : step s = .next t) (hu : ∀ u, ¬ s.nextTurn (.unscripted u)) :
    t.unscripted = s.unscripted := by
  obtain ⟨-, hruns⟩ | ⟨u, hnext, hturn⟩ := step_next_cases h
  · exact (hruns.writes rfl).unscripted
  · refine hturn.keeps_unscripted fun x hx => ?_
    subst hx
    exact hu x hnext

/-- One poll of `WAITDONE` ends the loop or puts it back behind the other agents' turns (30_encoding.md R87). -/
theorem step_waitDone {s : State} {between : List OtherTurn} (h : s.nextTurn (.waitDone between)) :
    step s = .next { s.turned with
      hostData := s.status
      agenda := if s.done = true then s.agenda.tail
        else between.map OtherTurn.turn ++ .waitDone between :: s.agenda.tail } :=
  (step_of_nextTurn h).trans (waitDoneStep_eq between s.turned)

/-! ### The defaults -/

/-- An unscripted acquisition waits `BACKOFF_MIN_MS` (10_state.md R43, 43_transmitter.md R170). -/
theorem txAcqStep_simulator {s : State} (hu : s.unscripted = .simulator) (hd : s.backoffDraws = [])
    (helapsed : s.elapsed s.t0 ≤ 1000) (hv : s.variant ≠ .pps) :
    txAcqStep s = .next { s with d := s.params.backoffMin, wstart := s.ms, phase := .txWait } := by
  have hin : ¬ s.deadlinePassed := not_lt.mpr helapsed
  unfold txAcqStep
  rw [if_neg hin, if_neg hv, State.drawBackoff_simulator hu hd]

/-- The last byte accepted finishes (43_transmitter.md R176). -/
theorem afterOffer_last {s : State} (hk : (s.k + 1).toNat = s.sendLen) :
    afterOffer 1 s = .next (s.setIndex (s.k + 1)).finishOk := by
  unfold afterOffer
  rw [if_neg (by decide)]
  exact if_pos hk

theorem afterOffer_more {s : State} (hk : (s.k + 1).toNat ≠ s.sendLen) :
    afterOffer 1 s = .next ((s.setIndex (s.k + 1)).goto .txByte) := by
  unfold afterOffer
  rw [if_neg (by decide)]
  exact if_neg hk

/-- The state after an accepted offer, as `State.offeredByte` writes it out (43_transmitter.md R173, R176). -/
theorem afterOffer_offeredByte {s : State} {b : Byte} (hcmd : s.cmd = encode .send) (hheld : s.csHeld = [])
    (hk : s.k.toNat < 255) :
    afterOffer 1 (s.csEnter.offer (polarity s.variant b) 1).csExit = .next (s.offeredByte b 1) := by
  have hne : s.cmd ≠ encode .receive := by rw [hcmd]; decide
  have hindex : ∀ w, (s.csEnter.offer w 1).csExit.k = s.k := fun w => by simp
  have hlength : ∀ w, (s.csEnter.offer w 1).csExit.sendLen = s.sendLen := fun w => by simp
  rw [polarity_eq]
  by_cases hlast : s.k.toNat + 1 = s.sendLen
  · rw [afterOffer_last (by simp only [hindex, hlength, toNat_succ hk, hlast]), State.finishOk_of_ne (by simpa using hne)]
    simp [State.offeredByte, State.setIndex, State.csExit, State.offer, State.csEnter, hlast, hheld]
  · rw [afterOffer_more (by simpa only [hindex, hlength, toNat_succ hk] using hlast)]
    simp [State.offeredByte, State.goto, State.setIndex, State.csExit, State.offer, State.csEnter, hlast, hheld]

/-- An unscripted offer is accepted (10_state.md R39, R43). -/
theorem txByteStep_simulator {s : State} {b : Byte} (hu : s.unscripted = .simulator) (hd : s.acceptDraws = [])
    (hcmd : s.cmd = encode .send) (hheld : s.csHeld = []) (hb : s.txbuf.read s.k.toNat = some b)
    (hk : s.k.toNat < 255) : txByteStep s = .next (s.offeredByte b 1) := by
  have hread : s.csEnter.readByte .tx s.k.toNat = .ok b := State.readByte_eq_ok.mpr hb
  unfold txByteStep
  dsimp only
  rw [State.csEnter_k, hread]
  dsimp only
  rw [State.drawAccept_simulator (s := s.csEnter) hu hd]
  exact afterOffer_offeredByte hcmd hheld hk

/-- The start-of-frame bytes of PPS (30_encoding.md R78). -/
theorem sofInstr_encode_pps {i : Instr} (h : i.space = .wire .pps) : sofInstr .pps (encode i) = some i := by
  cases i <;> simp only [Instr.space, reduceCtorEq, Space.wire.injEq] at h
  all_goals decide

theorem exec_of_pps_sof {s : State} {i : Instr} (h : i.space = .wire .pps) : exec i s = sofByte (encode i) s := by
  cases i <;> simp only [Instr.space, reduceCtorEq, Space.wire.injEq] at h
  all_goals rfl

/-- Under a pending override the length index is drawn, and without a draw it is 8 (41_parser.md R114, 10_state.md R43). -/
theorem selectLi_simulator {s : State} (hu : s.unscripted = .simulator) (hd : s.ppsLiDraws = [])
    (hv : s.variant = .pps) (hover : s.ppsOvrPend = true) : selectLi s = .ok (8, { s with ppsOvrPend := false }) := by
  unfold selectLi
  rw [if_pos ⟨hv, hover⟩]
  exact State.drawPpsLi_simulator (s := { s with ppsOvrPend := false }) hu hd

theorem sofFound_simulator {s : State} {b : Byte} (hu : s.unscripted = .simulator) (hd : s.ppsLiDraws = [])
    (hv : s.variant = .pps) (hover : s.ppsOvrPend = true) (hlong : b = 0x17 → s.own ≠ 1) :
    sofFound b s = .next { s with
      rxbuf := s.rxbuf.write 0 b, i := 1, ppsOvrPend := false, li := 8, phase := .rxSettle } := by
  have hselect := selectLi_simulator (s := (s.setRx 0 b).setCount 1) hu hd hv hover
  unfold sofFound
  dsimp only
  rw [if_neg (fun ⟨_, hb, hown⟩ => hlong hb hown), hselect]
  rfl

theorem rxHuntStep_of_sof {s : State} {r : Byte} {rest : List Byte} {i : Instr} (hconf : s.receiveConfigured = true)
    (hq : s.rxq = r :: rest) (hsof : sofInstr s.variant (polarity s.variant r) = some i) :
    rxHuntStep s = sofFound (polarity s.variant r) (s.setCount 0).popRx := by
  unfold rxHuntStep huntByte
  dsimp only
  rw [State.setCount_receiveConfigured, if_neg (by simp [hconf]), State.setCount_rxq, hq]
  dsimp only
  rw [State.popRx_variant, State.setCount_variant, hsof]

/-- The start-of-frame instructions of PPS under the defaults (41_parser.md R112, R114). -/
theorem exec_sof_simulator {s : State} {i : Instr} {rest : List Byte} (hu : s.unscripted = .simulator)
    (hv : s.variant = .pps) (hi : i.space = .wire .pps) (hp : s.phase = .rxHunt) (hvalid : s.validV = true)
    (hown : s.validO = true) (hq : s.rxq = encode i :: rest) (hlong : i = .sofPps17 → s.own ≠ 1)
    (hover : s.ppsOvrPend = true) (hd : s.ppsLiDraws = []) :
    exec i s = .next { s with
      rxq := rest, rxPop := false, rxbuf := s.rxbuf.write 0 (encode i), i := 1, ppsOvrPend := false,
      li := 8, phase := .rxSettle } := by
  have hconf : s.receiveConfigured = true := by simp [State.receiveConfigured, hvalid, hown]
  have hwire : polarity s.variant (encode i) = encode i := by rw [hv]; rfl
  have hsof : sofInstr s.variant (polarity s.variant (encode i)) = some i := by
    rw [hwire, hv]
    exact sofInstr_encode_pps hi
  have hnot17 : encode i = 0x17 → s.own ≠ 1 := by
    intro hb
    refine hlong ?_
    have hi17 := sofInstr_encode_pps hi
    rw [hb] at hi17
    exact (Option.some.inj hi17).symm
  rw [exec_of_pps_sof hi, sofByte, if_pos ⟨hp, by rw [hq]; rfl⟩, rxHuntStep_of_sof hconf hq hsof, hwire,
    sofFound_simulator (s := (s.setCount 0).popRx) hu hd hv hover hnot17]
  simp [State.popRx, State.setCount, hq]

/-- Settles O60 (30_encoding.md R86, R87, 10_state.md R43). -/
theorem programTurnsAndDefaults : Obligations.ProgramTurnsAndDefaults := by
  refine ⟨fun _ => rfl, fun s u h => step_unscripted h, fun s t h hu => step_keeps_unscripted h hu,
    fun s => ⟨fun _ h => step_of_nextTurn h, fun _ h => step_of_nextTurn h, fun _ h => step_of_nextTurn h,
      fun _ h => step_of_nextTurn h⟩,
    fun s between h => ⟨fun hdone => ?_, fun hdone => ?_⟩,
    fun s hu => ⟨fun hp helapsed hv hd => ?_, fun b hp hcmd hheld hb hk hd => ?_,
      fun i rest hv hi hp hvalid hown hq hlong hover hd => ?_⟩⟩
  · rw [step_waitDone h, if_pos hdone]
    rfl
  · rw [step_waitDone h, if_neg (by simp [hdone])]
  · rw [exec, execSend, hp]
    exact txAcqStep_simulator hu hd helapsed hv
  · rw [exec, execSend, hp]
    exact txByteStep_simulator hu hd hcmd hheld hb hk
  · exact exec_sof_simulator hu hv hi hp hvalid hown hq hlong hover hd

end Sys2Proof.Machine
end

section
/-! The trailer of a BSB frame (42_checksum.md R141, 20_memory.md R58): the two bytes of the register's own value, high
byte first, shift it to zero, and a byte step of the CRC is injective in the register. -/

namespace Sys2Proof.Machine

/-- The high byte of a register cancels itself, and eight shifts move the low byte up (42_checksum.md R140). -/
theorem crcByte_append_high (hi lo : Byte) : crcByte (hi ++ lo) hi = lo.setWidth 16 <<< 8 := by
  have hcancel : (hi ++ lo : Half) ^^^ hi.setWidth 16 <<< 8 = lo.setWidth 16 := by
    rw [append_eq_xor, BitVec.xor_comm, ← BitVec.xor_assoc, BitVec.xor_self, BitVec.zero_xor]
  rw [crcByte, hcancel, crcShift8_low]

/-- A byte that stands in the high half alone leaves the zero register. -/
theorem crcByte_high_self (b : Byte) : crcByte (b.setWidth 16 <<< 8) b = 0 := by
  rw [crcByte, BitVec.xor_self]
  rfl

/-- The register's own two bytes, high byte first, leave no residue. -/
theorem crcByte_trailer (hi lo : Byte) : crcByte (crcByte (hi ++ lo) hi) lo = 0 := by
  rw [crcByte_append_high, crcByte_high_self]

/-- Settles O18 (42_checksum.md R141, 20_memory.md R58): `hi ++ lo` is one register that the trailer takes to zero, and
by injectivity the only one. -/
theorem crcTrailerGivesZeroResidue : Obligations.CrcTrailerGivesZeroResidue := by
  intro F hi lo
  have hrun : crcBsb (F ++ [hi, lo]) = crcByte (crcByte (crcBsb F) hi) lo := crcBsb_append F [hi, lo]
  rw [hrun]
  constructor
  · intro hzero
    have hsame : crcByte (crcByte (hi ++ lo) hi) lo = crcByte (crcByte (crcBsb F) hi) lo := by
      rw [crcByte_trailer, hzero]
    exact crcByte_inj_left (crcByte_inj_left hsame)
  · intro htrailer
    rw [← htrailer, crcByte_trailer]

end Sys2Proof.Machine
end

section
/-! Who offers bytes to the bus (20_memory.md R50, 43_transmitter.md R173, R179): `TX_BYTE`, one byte a step. Every other
operation of the Engine and every other agent keeps the record of the offers. -/

namespace Sys2Proof.Machine

/-! ### The operations that offer nothing -/

theorem cksumStep_offered {b : Buffer} {count : Nat → Nat} {engine : List Byte → Nat → Half} {s t : State}
    (h : cksumStep b count engine s = .next t) : t.offered = s.offered := by
  obtain ⟨-, rfl⟩ | ⟨-, _, -, -, rfl⟩ := cksumStep_cases h
  · rfl
  · rfl

@[simp] theorem State.configure_offered (s : State) :
    s.configureVariant.configureOwn.configureDest.offered = s.offered := by
  obtain ⟨_, _, _, _, _, _, _, _, hc⟩ := configure_eq s
  rw [hc]

theorem sofFound_offered {b : Byte} {s t : State} (h : sofFound b s = .next t) : t.offered = s.offered := by
  obtain ⟨-, -, -, rfl⟩ | ⟨-, -, rfl⟩ | ⟨-, -, -, _, _, _, -, rfl⟩ := sofFound_cases h
  · rfl
  · rfl
  · rfl

theorem rxHuntStep_offered {s t : State} (h : rxHuntStep s = .next t) : t.offered = s.offered := by
  obtain ⟨-, rfl⟩ | ⟨-, -, rfl⟩ | ⟨_, _, -, -, -, rfl⟩ | ⟨_, _, _, -, -, -, hsof⟩ := rxHuntStep_cases h
  · rfl
  · rfl
  · rfl
  · simpa using sofFound_offered hsof

theorem afterAppend_offered {s t : State} (h : afterAppend s = .next t) : t.offered = s.offered := by
  obtain ⟨-, rfl⟩ | ⟨-, -, rfl⟩ | ⟨-, -, _, -, ⟨-, rfl⟩ | ⟨-, rfl⟩⟩ := afterAppend_cases h
  · rfl
  · rfl
  · rfl
  · rfl

theorem rxByteStep_offered {s t : State} (h : rxByteStep s = .next t) : t.offered = s.offered := by
  obtain ⟨-, rfl⟩ | ⟨-, -, rfl⟩ | ⟨_, _, -, -, -, rfl⟩ | ⟨_, _, -, -, -, happ⟩ := rxByteStep_cases h
  · rfl
  · rfl
  · rfl
  · simpa using afterAppend_offered happ

theorem rxCheckStep_offered {s t : State} (h : rxCheckStep s = .next t) : t.offered = s.offered := by
  obtain ⟨-, rfl⟩ | ⟨-, -, _, _, -, ⟨-, rfl⟩ | ⟨-, rfl⟩⟩ := rxCheckStep_cases h
  · rfl
  · rfl
  · rfl

theorem txPrepStep_offered {s t : State} (h : txPrepStep s = .next t) : t.offered = s.offered := by
  obtain ⟨-, rfl⟩ | ⟨-, _, -, ⟨_, -, -, rfl⟩ | ⟨-, _, hembed, rfl⟩⟩ := txPrepStep_cases h
  · rfl
  · rfl
  · obtain ⟨_, _, rfl⟩ := prepared_eq hembed
    rfl

theorem txAcqStep_offered {s t : State} (h : txAcqStep s = .next t) : t.offered = s.offered := by
  obtain ⟨-, rfl⟩ | ⟨-, -, rfl⟩ | ⟨-, -, _, _, _, -, rfl⟩ := txAcqStep_cases h
  · rfl
  · rfl
  · rfl

theorem txWaitStep_offered {s t : State} (h : txWaitStep s = .next t) : t.offered = s.offered := by
  obtain ⟨_, rfl | ⟨-, rfl⟩ | rfl⟩ := txWaitStep_cases h
  · rfl
  · rfl
  · rfl

theorem txChkStep_offered {s t : State} (h : txChkStep s = .next t) : t.offered = s.offered := by
  obtain ⟨-, rfl⟩ | ⟨-, rfl⟩ := txChkStep_cases h
  · rfl
  · rfl

theorem afterOffer_offered {acc : Nat} {s t : State} (h : afterOffer acc s = .next t) : t.offered = s.offered := by
  obtain ⟨-, rfl⟩ | ⟨-, -, rfl⟩ | ⟨-, -, rfl⟩ := afterOffer_cases h
  · rfl
  · rfl
  · rfl

/-! ### The offer -/

/-- The step from `s` to `t` has offered the wire form of `TXBUF[k]`, and nothing else (43_transmitter.md R173). -/
def OffersByte (s t : State) : Prop :=
  ∃ b acc, s.txbuf.read s.k.toNat = some b ∧ acc ≤ 1 ∧
    t.offered = s.offered ++ [{ data := logicalByte s.variant b, accepted := acc }]

theorem txByteStep_offers {s t : State} (h : txByteStep s = .next t) : OffersByte s t := by
  obtain ⟨b, acc, _, _, hread, hacc, hoffer⟩ := txByteStep_cases h
  refine ⟨b, acc, hread, hacc, ?_⟩
  rw [afterOffer_offered hoffer, ← polarity_eq]
  rfl

/-- The inversion of the Engine's step, read for the offers. -/
theorem EngineRuns.offered {s t : State} {r : Result} (hruns : EngineRuns s r) (h : r = .next t) :
    t.offered = s.offered ∨ s.phase = .txByte ∧ OffersByte s t := by
  cases hruns with
  | hold => cases h; exact .inl rfl
  | badOp => cases h; exact .inl rfl
  | nop => cases h; exact .inl rfl
  | configure => cases h; exact .inl (State.configure_offered s)
  | cksum => exact .inl (cksumStep_offered h)
  | hunt => exact .inl (rxHuntStep_offered h)
  | settle => cases h; exact .inl rfl
  | byte => exact .inl (rxByteStep_offered h)
  | check => exact .inl (rxCheckStep_offered h)
  | prep => exact .inl (txPrepStep_offered h)
  | acq => exact .inl (txAcqStep_offered h)
  | wait => exact .inl (txWaitStep_offered h)
  | chk => exact .inl (txChkStep_offered h)
  | offer hp => exact .inr ⟨hp, txByteStep_offers h⟩

/-- No other agent offers a byte, the reset input included. -/
theorem AgentTurn.offered {s t : State} {u : Turn} (hturn : AgentTurn s u t) : t.offered = s.offered := by
  cases hturn with
  | arrive b =>
    obtain ⟨_, _, harrive⟩ := s.rxArrive_eq b
    rw [harrive]
  | _ => rfl

/-- Settles O54 (20_memory.md R50, 43_transmitter.md R173, R179). -/
theorem onlyByteStepsOffer : Obligations.OnlyByteStepsOffer := by
  intro s t hstep hne
  obtain ⟨hnext, hruns⟩ | ⟨_, -, hturn⟩ := step_next_cases hstep
  · obtain ⟨hp, hoffers⟩ := (hruns.offered rfl).resolve_left hne
    exact ⟨hnext, hp, hoffers⟩
  · exact absurd hturn.offered hne

end Sys2Proof.Machine
end

section
/-! The host register space (20_memory.md R50 to R56, R61): which register an address names, what a read answers and
changes, what a write to an idle block does, and how long the results of an operation stay. -/

namespace Sys2Proof.Machine

/-! ### Which register an address names -/

/-- In the windows' part of the map an address names a buffer byte or nothing (20_memory.md R53, R55). -/
theorem windowReg_cases (p : Params) (a : Nat) : (∃ b j, windowReg p a = .byte b j) ∨ windowReg p a = .reserved := by
  unfold windowReg
  split
  · exact .inl ⟨_, _, rfl⟩
  · split
    · exact .inl ⟨_, _, rfl⟩
    · exact .inr rfl

theorem hostReg_eq_reserved {p : Params} {a : Byte} (hge : 0x0E ≤ a.toNat) (hbyte : ∀ b j, hostReg p a ≠ .byte b j) :
    hostReg p a = .reserved := by
  rw [hostReg_of_ge hge] at hbyte ⊢
  obtain ⟨b, j, h⟩ | h := windowReg_cases p a.toNat
  · exact absurd h (hbyte b j)
  · exact h

/-- Two addresses of one buffer byte are the same address. -/
theorem hostReg_byte_injective {p : Params} {a a' : Byte} {b : Buffer} {j : Nat} (h : hostReg p a = .byte b j)
    (h' : hostReg p a' = .byte b j) : a = a' := by
  obtain ⟨-, -, haddr⟩ := hostReg_eq_byte.mp h
  obtain ⟨-, -, haddr'⟩ := hostReg_eq_byte.mp h'
  refine BitVec.eq_of_toNat_eq ?_
  obtain ⟨rfl, haddr⟩ | ⟨rfl, haddr⟩ := haddr
  · simp only [true_and, reduceCtorEq, false_and, or_false] at haddr'
    rw [haddr, haddr']
  · simp only [true_and, reduceCtorEq, false_and, false_or] at haddr'
    rw [haddr, haddr']

/-- `CMD` has the address 0x00 and no other (30_encoding.md R74). -/
theorem hostReg_eq_cmd {p : Params} {a : Byte} (h : hostReg p a = .cmd) : a = 0x00 := by
  by_contra hne
  by_cases hge : 0x0E ≤ a.toNat
  · rw [hostReg_of_ge hge] at h
    obtain ⟨_, _, hw⟩ | hw := windowReg_cases p a.toNat
    · simp [hw] at h
    · simp [hw] at h
  · have hpos : a.toNat ≠ 0 := fun h0 => hne (BitVec.eq_of_toNat_eq h0)
    have ha : a = BitVec.ofNat 8 a.toNat := by simp
    generalize a.toNat = k at *
    subst ha
    interval_cases k
    · exact hpos rfl
    all_goals cases h

/-! ### Reads -/

/-- A register read fails only at an unwritten buffer byte (10_state.md R27). -/
theorem State.readReg_eq_error {s : State} {r : HostReg} {f : Fault} (h : s.readReg r = .error f) :
    ∃ b j, r = .byte b j ∧ f = .unwrittenByte b j ∧ (s.buf b).read j = none := by
  cases r with
  | byte b j =>
    obtain ⟨hnone, hf⟩ := State.readByte_eq_error.mp h
    exact ⟨b, j, rfl, hf, hnone⟩
  | _ => cases h

/-- Neither a read nor the registers it reads depend on whose turn comes next. -/
@[simp] theorem State.turned_hostRead (s : State) (a : Byte) : s.turned.hostRead a = s.hostRead a := rfl

theorem hostStep_read_of_ok {s : State} {a v : Byte} (h : s.hostRead a = .ok v) :
    hostStep (.read a 1) s = .next { s with hostData := v } := by
  simp [hostStep, h]

theorem hostStep_read_of_error {s : State} {a : Byte} {f : Fault} (h : s.hostRead a = .error f) :
    hostStep (.read a 1) s = .fault f := by
  simp [hostStep, h]

theorem hostStep_read_of_width {s : State} {a : Byte} {width : Nat} (h : width ≠ 1) :
    hostStep (.read a width) s = .refused (.accessWidth width) := if_pos h

theorem hostStep_write_of_width {s : State} {a v : Byte} {width : Nat} (h : width ≠ 1) :
    hostStep (.write a width v) s = .refused (.accessWidth width) := if_pos h

/-- Settles O43 (20_memory.md R51, R54, 10_state.md R27): the access by its width, and a read by its answer. -/
theorem hostReadHasNoSideEffect : Obligations.HostReadHasNoSideEffect := by
  intro s a width
  refine ⟨fun hnext => ⟨fun hwidth => ?_, ?_, ?_⟩, fun v hwidth hnext => ?_⟩
  · exact (step_of_nextTurn hnext).trans (hostStep_read_of_width hwidth)
  · rintro rfl v hread
    exact (step_of_nextTurn hnext).trans (hostStep_read_of_ok (s := s.turned) hread)
  · rintro rfl f hread
    refine ⟨(step_of_nextTurn hnext).trans (hostStep_read_of_error (s := s.turned) hread), ?_⟩
    obtain ⟨b, j, hreg, hf, hnone⟩ := State.readReg_eq_error hread
    obtain ⟨hj, -, haddr⟩ := hostReg_eq_byte.mp hreg
    exact ⟨b, j, hf, hnone, hj, haddr⟩
  · exact (step_of_nextTurn hnext).trans (hostStep_write_of_width hwidth)

/-! ### Writes to an idle block -/

/-- An idle block takes a one-byte write to the register that the address names (20_memory.md R51, R54). -/
theorem step_write_of_idle {s : State} {a v : Byte} (hidle : s.phase = .idle)
    (hnext : s.nextTurn (.host (.write a 1 v))) :
    step s = .next (s.turned.writeIdle v (hostReg s.params a)) := by
  have hwrite : s.turned.hostWrite a v = s.turned.writeIdle v (hostReg s.params a) := by
    obtain ⟨hbusy, -⟩ | ⟨-, hw⟩ := s.turned.hostWrite_cases a v
    · exact absurd hidle hbusy
    · exact hw
  rw [step_of_nextTurn hnext, takeTurn, hostStep, if_neg (by decide), hwrite]

/-- The read-only registers take no write (30_encoding.md R74). -/
theorem State.writeIdle_readOnly {s : State} {a v : Byte}
    (h : 2 ≤ a.toNat ∧ a.toNat ≤ 5 ∨ 9 ≤ a.toNat ∧ a.toNat < 0x0E) : s.writeIdle v (hostReg s.params a) = s := by
  have ha : a = BitVec.ofNat 8 a.toNat := by simp
  generalize a.toNat = k at *
  subst ha
  obtain ⟨hlo, hhi⟩ | ⟨hlo, hhi⟩ := h
  · interval_cases k
    all_goals rfl
  · interval_cases k
    all_goals rfl

/-- A reserved address takes no write (20_memory.md R53). -/
theorem State.writeIdle_reserved {s : State} {a v : Byte} (hge : 0x0E ≤ a.toNat)
    (hbyte : ∀ b j, hostReg s.params a ≠ .byte b j) : s.writeIdle v (hostReg s.params a) = s := by
  rw [hostReg_eq_reserved hge hbyte]
  rfl

/-- Settles O46 (30_encoding.md R74, 20_memory.md R53, R55, 10_state.md R32): one part per range of the map. -/
theorem idleWriteReachesItsRegister : Obligations.IdleWriteReachesItsRegister := by
  intro s a v hidle hnext
  have hstep := step_write_of_idle hidle hnext
  have hignored : s.turned.writeIdle v (hostReg s.params a) = s.turned → step s = .next s.turned := fun h => by
    rw [hstep, h]
  refine ⟨?_, ?_, ?_, ?_, fun hrange => hignored ?_, fun j hj hj64 haddr => ?_, fun j hj hj64 haddr => ?_,
    fun j hcap hj64 haddr => hignored ?_⟩
  · rintro rfl
    exact hstep
  · rintro rfl
    have hcode : v.extractLsb' 0 2 = BitVec.ofNat 2 v.toNat := by simp [BitVec.extractLsb']
    rw [← hcode]
    exact hstep
  · rintro rfl
    exact hstep
  · rintro rfl
    exact hstep
  · by_cases hge : 0x0E ≤ a.toNat
    · refine State.writeIdle_reserved (s := s.turned) hge fun b j hbyte => ?_
      have haddr := hostReg_eq_byte.mp hbyte
      omega
    · exact State.writeIdle_readOnly (s := s.turned) (by omega)
  · rw [hstep, hostReg_eq_byte.mpr ⟨hj, hj64, .inl ⟨rfl, haddr⟩⟩]
    rfl
  · rw [hstep, hostReg_eq_byte.mpr ⟨hj, hj64, .inr ⟨rfl, haddr⟩⟩]
    rfl
  · refine State.writeIdle_reserved (s := s.turned) (by omega) fun b i hbyte => ?_
    have hwindow := hostReg_eq_byte.mp hbyte
    simp only [State.turned_params] at hwindow
    omega

/-! ### A buffer byte written through its window -/

@[simp] theorem State.writeIdle_byte_buf (s : State) (v : Byte) (b : Buffer) (j : Nat) :
    (s.writeIdle v (.byte b j)).buf b = (s.buf b).write j v := by
  cases b with
  | tx => rfl
  | rx => rfl

theorem State.writeIdle_byte_buf_of_ne {s : State} {v : Byte} {b c : Buffer} {j : Nat} (h : c ≠ b) :
    (s.writeIdle v (.byte b j)).buf c = s.buf c := by
  cases b with
  | tx => cases c with
    | tx => exact absurd rfl h
    | rx => rfl
  | rx => cases c with
    | tx => rfl
    | rx => exact absurd rfl h

/-- The stored byte reads back (20_memory.md R55). -/
theorem State.readReg_writeIdle_byte_same (s : State) (v : Byte) (b : Buffer) (j : Nat) :
    (s.writeIdle v (.byte b j)).readReg (.byte b j) = .ok v := by
  refine State.readByte_eq_ok.mpr ?_
  rw [State.writeIdle_byte_buf, Memory.read_write_same]

/-- Every other register reads as before the store (20_memory.md R61). -/
theorem State.readReg_writeIdle_byte_other {s : State} {v : Byte} {b : Buffer} {j : Nat} {r : HostReg}
    (h : r ≠ .byte b j) : (s.writeIdle v (.byte b j)).readReg r = s.readReg r := by
  cases r with
  | byte c i =>
    have hread : ((s.writeIdle v (.byte b j)).buf c).read i = (s.buf c).read i := by
      by_cases hc : c = b
      · subst hc
        have hi : i ≠ j := fun hi => h (by rw [hi])
        rw [State.writeIdle_byte_buf, Memory.read_write_other _ _ hi]
      · rw [State.writeIdle_byte_buf_of_ne hc]
    simp only [State.readReg, State.readByte, hread]
  | _ => cases b with
    | tx => rfl
    | rx => rfl

/-- Settles O47 (20_memory.md R55, R61). -/
theorem windowWriteReadsBack : Obligations.WindowWriteReadsBack := by
  intro s a v j hidle hj hj64 haddr hnext
  obtain ⟨b, hreg⟩ : ∃ b, hostReg s.params a = .byte b j := by
    obtain htx | hrx := haddr
    · exact ⟨.tx, hostReg_eq_byte.mpr ⟨hj, hj64, .inl ⟨rfl, htx⟩⟩⟩
    · exact ⟨.rx, hostReg_eq_byte.mpr ⟨hj, hj64, .inr ⟨rfl, hrx⟩⟩⟩
  have hread : ∀ c, (s.turned.writeIdle v (.byte b j)).hostRead c =
      (s.turned.writeIdle v (.byte b j)).readReg (hostReg s.params c) := fun c => by
    rw [State.hostRead, State.writeIdle_params, State.turned_params]
  refine ⟨s.turned.writeIdle v (.byte b j), ?_, ?_, fun c hc => ?_⟩
  · rw [step_write_of_idle hidle hnext, hreg]
  · rw [hread, hreg, State.readReg_writeIdle_byte_same]
  · rw [hread, State.readReg_writeIdle_byte_other fun hc' => hc (hostReg_byte_injective hc' hreg)]
    rfl

/-! ### The acceptance of a command -/

/-- Every command but RECEIVE and SEND, and every illegal byte, starts in `EXEC` (30_encoding.md R72, R84). -/
theorem firstPhase_eq_exec {v : Byte} (hreceive : v ≠ 0x05) (hsend : v ≠ 0x06) : firstPhase v = .exec := by
  unfold firstPhase
  cases hdecode : decodeCommand v with
  | error e => rfl
  | ok i =>
    obtain ⟨hv, hspace⟩ := decodeCommand_eq_ok hdecode
    cases i with
    | receive => exact absurd hv hreceive
    | send => exact absurd hv hsend
    | nop | configure | cksumBsbTx | cksumBsbRx | cksumLpbTx | cksumLpbRx | cksumPpsTx | cksumPpsRx => rfl
    | sofBsbDc | sofBsbDe | sofLpb | sofPps17 | sofPps1D | sofPps1E => cases hspace

theorem firstPhase_receive : firstPhase 0x05 = .rxHunt := by decide

theorem firstPhase_send : firstPhase 0x06 = .txPrep := by decide

/-- An accepted command is busy with clear results: `STATUS` reads 0x01 (20_memory.md R54). -/
theorem State.accept_status (s : State) (v : Byte) : (s.accept v).status = 0x01 := by
  have hbusy : (s.accept v).busy = true := by
    obtain h | h | h := firstPhase_cases v
    all_goals simp [State.busy, State.accept, h]
  rw [State.status, hbusy]
  change ErrCode.none.code ++ (BitVec.ofBool false ++ (BitVec.ofBool false ++
    (BitVec.ofBool false ++ BitVec.ofBool true))) = 0x01
  decide

/-- Only SEND takes the deadline base (43_transmitter.md R160). -/
theorem State.accept_t0_of_ne {s : State} {v : Byte} (h : firstPhase v ≠ .txPrep) : (s.accept v).t0 = s.t0 := if_neg h

theorem State.accept_t0_send (s : State) : (s.accept 0x06).t0 = s.ms := by
  change (if firstPhase 0x06 = .txPrep then s.ms else s.t0) = s.ms
  exact if_pos firstPhase_send

/-- Settles O45 (20_memory.md R54, 43_transmitter.md R160). -/
theorem commandWriteIsAccepted : Obligations.CommandWriteIsAccepted := by
  intro s v hidle hnext
  refine ⟨s.turned.accept v, step_write_of_idle hidle hnext, s.turned.accept_status v, rfl, rfl, rfl, ?_, ?_, ?_, rfl⟩
  · rintro rfl
    exact ⟨firstPhase_receive, State.accept_t0_of_ne (s := s.turned) (by rw [firstPhase_receive]; decide)⟩
  · rintro rfl
    exact ⟨firstPhase_send, s.turned.accept_t0_send⟩
  · intro hreceive hsend
    have hexec := firstPhase_eq_exec hreceive hsend
    exact ⟨hexec, State.accept_t0_of_ne (s := s.turned) (by rw [hexec]; decide)⟩

/-! ### How long the results stay -/

/-- The results of the last operation and the phase are the same in both states. -/
structure KeepsStatus (s t : State) : Prop where
  done : t.done = s.done
  ok : t.ok = s.ok
  err : t.err = s.err
  phase : t.phase = s.phase

theorem KeepsStatus.refl (s : State) : KeepsStatus s s := ⟨rfl, rfl, rfl, rfl⟩

/-- Of the registers only `CMD` clears the results (20_memory.md R54). -/
theorem State.writeIdle_keepsStatus {s : State} {v : Byte} {r : HostReg} (h : r ≠ .cmd) :
    KeepsStatus s (s.writeIdle v r) := by
  cases r with
  | cmd => exact absurd rfl h
  | byte b j => cases b with
    | tx => exact ⟨rfl, rfl, rfl, rfl⟩
    | rx => exact ⟨rfl, rfl, rfl, rfl⟩
  | _ => exact ⟨rfl, rfl, rfl, rfl⟩

theorem hostStep_keepsStatus {a : HostAccess} {s t : State} (hcmd : ∀ v, a ≠ .write 0x00 1 v)
    (h : hostStep a s = .next t) : KeepsStatus s t := by
  cases a with
  | read addr width =>
    simp only [hostStep] at h
    split_ifs at h
    split at h
    · cases h
    · cases h
      exact ⟨rfl, rfl, rfl, rfl⟩
  | write addr width v =>
    simp only [hostStep] at h
    split_ifs at h with hwidth
    cases h
    obtain ⟨-, hw⟩ | ⟨-, hw⟩ := s.hostWrite_cases addr v
    · rw [hw]
      exact .refl s
    · rw [hw]
      refine State.writeIdle_keepsStatus fun hreg => hcmd v ?_
      rw [hostReg_eq_cmd hreg, not_not.mp hwidth]

/-- No agent but the Engine, the reset input and a host that writes `CMD` touches the results (20_memory.md R54). -/
theorem takeTurn_keepsStatus {u : Turn} {s t : State} (hengine : u ≠ .engine) (hreset : u ≠ .reset)
    (hcmd : ∀ v, u ≠ .host (.write 0x00 1 v)) (h : takeTurn u s = .next t) : KeepsStatus s t := by
  cases takeTurn_agentTurn hengine h with
  | reset => exact absurd rfl hreset
  | arrive b =>
    obtain ⟨_, _, harrive⟩ := s.rxArrive_eq b
    rw [harrive]
    exact ⟨rfl, rfl, rfl, rfl⟩
  | read | ignored | accept | argument | storeTx | storeRx =>
    exact hostStep_keepsStatus (fun v ha => hcmd v (by rw [ha])) h
  | _ => exact ⟨rfl, rfl, rfl, rfl⟩

/-- An idle Engine has no step to take (10_state.md R33). -/
theorem engineStep_of_idle {s : State} (h : s.phase = .idle) : engineStep s = .next s := by
  simp [engineStep, State.fetch, h, hold]

/-- With `DONE` set no operation is in progress (20_memory.md R54). -/
theorem State.StatusOk.idle_of_done {s : State} (h : s.StatusOk) (hdone : s.done = true) : s.phase = .idle := by
  obtain ⟨hbusy, -⟩ := h
  by_contra hne
  simp [hbusy hne] at hdone

/-- Settles O57 (20_memory.md R54): `DONE` means idle, so the Engine holds, and no other agent touches the results. -/
theorem resultsStayUntilNextCommand : Obligations.ResultsStayUntilNextCommand := by
  intro s t hinv hdone hstep hreset hcmd
  have hidle := State.StatusOk.idle_of_done hinv.status hdone
  have hkeep : KeepsStatus s.turned t := by
    obtain ⟨-, hturn⟩ | ⟨u, hu, hne, -, hturn⟩ := step_cases s
    · rw [hturn, engineStep_of_idle (s := s.turned) hidle] at hstep
      cases hstep
      exact .refl _
    · rw [hturn] at hstep
      refine takeTurn_keepsStatus hne ?_ ?_ hstep
      · rintro rfl
        exact hreset hu
      · rintro v rfl
        exact hcmd v hu
  exact ⟨hkeep.done.trans hdone, hkeep.ok, hkeep.err, hkeep.phase.trans hidle⟩

end Sys2Proof.Machine
end

section
/-! What the Engine fetches (20_memory.md R64, 41_parser.md R111): the accepted command, and in the hunt of a configured
block the start of frame at the head of the queue. -/

namespace Sys2Proof.Machine

/-! ### The decoders on the bytes of the table -/

theorem decodeCommand_encode {i : Instr} (h : i.space = .command) : decodeCommand (encode i) = .ok i := by
  cases i with
  | nop | configure | cksumBsbTx | cksumBsbRx | cksumLpbTx | cksumLpbRx | cksumPpsTx | cksumPpsRx => rfl
  | receive | send => rfl
  | sofBsbDc | sofBsbDe | sofLpb | sofPps17 | sofPps1D | sofPps1E => cases h

theorem decodeWire_encode {i : Instr} {v : Variant} (h : i.space = .wire v) : decodeWire v (encode i) = .ok i := by
  cases i with
  | nop | configure | cksumBsbTx | cksumBsbRx | cksumLpbTx | cksumLpbRx | cksumPpsTx | cksumPpsRx => cases h
  | receive | send => cases h
  | sofBsbDc | sofBsbDe | sofLpb | sofPps17 | sofPps1D | sofPps1E => cases h; rfl

/-- A byte that is no start of frame of the variant is no instruction on the wire (30_encoding.md R78, R84). -/
theorem decodeWire_of_not_sof {v : Variant} {w : Byte} (h : logicalByte v w ∉ sofValues v) :
    decodeWire v w = .error .notSof := by
  rw [← polarity_eq] at h
  rw [decodeWire, sofInstr_eq_none.mpr h]

/-! ### The fetch, phase by phase -/

theorem State.fetch_of_idle {s : State} (h : s.phase = .idle) : s.fetch = none := by
  rw [State.fetch, h]

theorem State.fetch_of_sof {s : State} {r : Byte} {rest : List Byte} {i : Instr} (hp : s.phase = .rxHunt)
    (hconf : s.receiveConfigured = true) (hq : s.rxq = r :: rest) (hsof : decodeWire s.variant r = .ok i) :
    s.fetch = some (.ok i) := by
  simp [State.fetch, hp, hconf, hq, hsof]

/-- Outside the hunt the accepted command runs (20_memory.md R64). -/
theorem State.fetch_of_not_hunt {s : State} (hidle : s.phase ≠ .idle) (hhunt : s.phase ≠ .rxHunt) :
    s.fetch = some (decodeCommand s.cmd) := by
  obtain ⟨hp, -⟩ | ⟨-, hf⟩ | ⟨_, _, _, hp, -⟩ := fetch_cases s
  · exact absurd hp hidle
  · exact hf
  · exact absurd hp hhunt

/-- The hunt of a block that is not configured, with an empty queue or at a byte that is no start of frame, is the
accepted command's (41_parser.md R111). -/
theorem State.fetch_of_hunt_without_sof {s : State} (hp : s.phase = .rxHunt)
    (h : s.receiveConfigured = true → ∀ r rest, s.rxq = r :: rest → ∃ e, decodeWire s.variant r = .error e) :
    s.fetch = some (decodeCommand s.cmd) := by
  obtain ⟨hidle, -⟩ | ⟨-, hf⟩ | ⟨r, rest, i, -, hconf, hq, hsof, -⟩ := fetch_cases s
  · simp [hp] at hidle
  · exact hf
  · obtain ⟨e, he⟩ := h hconf r rest hq
    simp [he] at hsof

/-- The two ways in which a block is not configured to receive (41_parser.md R111). -/
theorem State.receiveConfigured_eq_false {s : State} (h : s.validV = false ∨ s.variant = .pps ∧ s.validO = false) :
    s.receiveConfigured = false := by
  obtain hv | ⟨hpps, ho⟩ := h
  · simp [State.receiveConfigured, hv]
  · simp [State.receiveConfigured, hpps, ho]

/-- Settles O5 (20_memory.md R64, 41_parser.md R111). -/
theorem fetchReadsCommandOrStartOfFrame : Obligations.FetchReadsCommandOrStartOfFrame := by
  have hreceive : ∀ s : State, s.cmd = encode .receive → some (decodeCommand s.cmd) = some (.ok .receive) :=
    fun s hcmd => by rw [hcmd, decodeCommand_encode rfl]
  refine ⟨fun s => State.fetch_of_idle, fun s i rest hp hconf hspace hq => ?_, fun s i hidle hhunt hspace hcmd => ?_,
    fun s r rest hp hcmd hq hnot => ?_, fun s hp hcmd hblocked => ?_⟩
  · exact State.fetch_of_sof hp hconf hq (decodeWire_encode hspace)
  · rw [State.fetch_of_not_hunt hidle hhunt, hcmd, decodeCommand_encode hspace]
  · rw [← hreceive s hcmd]
    refine State.fetch_of_hunt_without_sof hp fun _ r' rest' hq' => ⟨.notSof, ?_⟩
    cases hq.symm.trans hq'
    exact decodeWire_of_not_sof hnot
  · rw [← hreceive s hcmd]
    refine State.fetch_of_hunt_without_sof hp fun hconf r rest hq => ?_
    obtain hempty | hunconf := hblocked
    · simp [hempty] at hq
    · simp [State.receiveConfigured_eq_false hunconf] at hconf

end Sys2Proof.Machine
end

section
/-! The encodings of 30_encoding.md: the fields of a command byte and the two decoders (R71, R72, R78, R84), the packed
registers and the codes in them (R75, R76), and the register map as a read sees it (R74). -/

namespace Sys2Proof.Machine

/-! ### Decode and encode -/

theorem decode_encode (i : Instr) : decode i.space (encode i) = .ok i := by
  cases hspace : i.space with
  | command => exact decodeCommand_encode hspace
  | wire v => exact decodeWire_encode hspace

/-- The start-of-frame table lists the logical bytes, the encoder gives the wire bytes (30_encoding.md R77, R78). -/
theorem encode_of_sofInstr {v : Variant} {b : Byte} {i : Instr} (h : sofInstr v b = some i) :
    encode i = polarity v b := by
  cases v with
  | bsb | lpb | pps =>
    simp only [sofInstr] at h
    split_ifs at h with hb
    all_goals
      cases h
      subst b
      decide

/-- Whatever a decoder accepts is the byte of the instruction it answers, in that instruction's place. -/
theorem decode_eq_ok {sp : Space} {b : Byte} {i : Instr} (h : decode sp b = .ok i) : sp = i.space ∧ b = encode i := by
  cases sp with
  | command =>
    obtain ⟨hbyte, hspace⟩ := decodeCommand_eq_ok h
    exact ⟨hspace.symm, hbyte⟩
  | wire v =>
    obtain ⟨hsof, hspace⟩ := decodeWire_eq_ok h
    refine ⟨hspace.symm, ?_⟩
    rw [encode_of_sofInstr hsof, polarity_polarity]

/-- Settles O6 (30_encoding.md R71, R72, R78): each of these bit patterns is the encoder's byte. -/
theorem tableBytesDecode : Obligations.TableBytesDecode :=
  ⟨decodeCommand_encode (i := .nop) rfl, decodeCommand_encode (i := .configure) rfl,
    decodeCommand_encode (i := .cksumBsbRx) rfl, decodeCommand_encode (i := .cksumLpbTx) rfl,
    decodeCommand_encode (i := .cksumPpsRx) rfl, decodeCommand_encode (i := .receive) rfl,
    decodeCommand_encode (i := .send) rfl, decodeWire_encode (i := .sofBsbDc) rfl,
    decodeWire_encode (i := .sofLpb) rfl, decodeWire_encode (i := .sofPps17) rfl⟩

/-- Settles O7 (30_encoding.md R72, R77, R78). -/
theorem decodeInvertsEncode : Obligations.DecodeInvertsEncode :=
  ⟨fun i _ => decode_encode i, fun _ _ _ => decode_eq_ok⟩

/-! ### The fields of a command byte -/

theorem cmdFields_op_toNat (b : Byte) : (cmdFields b).op.toNat = b.toNat % 16 := by
  simp [cmdFields]

theorem cmdFields_bufsel (b : Byte) : (cmdFields b).bufsel = decide (b.toNat / 16 % 2 = 1) := by
  simp [cmdFields, BitVec.getLsbD, Nat.testBit_eq_decide_div_mod_eq]

theorem cmdFields_rsv_toNat (b : Byte) : (cmdFields b).rsv.toNat = b.toNat / 32 := by
  have hb := b.isLt
  simp only [cmdFields, BitVec.extractLsb'_toNat, Nat.shiftRight_eq_div_pow]
  omega

theorem cmdFields_rsvOk {b : Byte} : (cmdFields b).rsvOk = true ↔ b.toNat / 32 = 0 := by
  rw [CmdFields.rsvOk, beq_iff_eq, ← cmdFields_rsv_toNat, BitVec.toNat_eq]
  rfl

theorem cmdFields_opOk {b : Byte} : (cmdFields b).opOk = true ↔ b.toNat % 16 ≤ 6 := by
  rw [CmdFields.opOk, decide_eq_true_iff, cmdFields_op_toNat]

theorem cmdFields_isCksum {b : Byte} :
    (cmdFields b).isCksum = true ↔ b.toNat % 16 = 2 ∨ b.toNat % 16 = 3 ∨ b.toNat % 16 = 4 := by
  simp [CmdFields.isCksum, BitVec.toNat_eq, cmdFields_op_toNat, or_assoc]

theorem cmdFields_bufselOk {b : Byte} : (cmdFields b).bufselOk = true ↔
    b.toNat / 16 % 2 ≠ 1 ∨ b.toNat % 16 = 2 ∨ b.toNat % 16 = 3 ∨ b.toNat % 16 = 4 := by
  rw [CmdFields.bufselOk, Bool.or_eq_true, cmdFields_isCksum, cmdFields_bufsel]
  simp

/-! ### Illegal commands -/

/-- The operation map has a row for every legal pair of `OP` and `BUFSEL` (30_encoding.md R72). -/
theorem opInstr_of_fieldsOk {f : CmdFields} (hop : f.opOk = true) (hbufsel : f.bufselOk = true) :
    ∃ i, opInstr f = some i := by
  have hall : ∀ (op : BitVec 4) (bufsel : Bool), CmdFields.opOk ⟨op, bufsel, 0⟩ = true →
      CmdFields.bufselOk ⟨op, bufsel, 0⟩ = true → (opInstr ⟨op, bufsel, 0⟩).isSome = true := by decide
  exact Option.isSome_iff_exists.mp (hall f.op f.bufsel hop hbufsel)

/-- The command decoder accepts exactly the well-formed words (30_encoding.md R71, R84). -/
theorem decodeCommand_eq_error_iff {b : Byte} :
    (∃ e, decodeCommand b = .error e) ↔
      ¬ ((cmdFields b).rsvOk = true ∧ (cmdFields b).opOk = true ∧ (cmdFields b).bufselOk = true) := by
  unfold decodeCommand
  by_cases hrsv : (cmdFields b).rsvOk = true
  · by_cases hop : (cmdFields b).opOk = true
    · by_cases hbufsel : (cmdFields b).bufselOk = true
      · obtain ⟨i, hi⟩ := opInstr_of_fieldsOk hop hbufsel
        simp [hrsv, hop, hbufsel, hi]
      · simp [hrsv, hop, hbufsel]
    · simp [hrsv, hop]
  · simp [hrsv]

/-- Settles O8 (30_encoding.md R71, R72, R84): the three field checks, read as arithmetic on the byte. -/
theorem illegalCommandBytes : Obligations.IllegalCommandBytes := by
  intro b
  rw [decodeCommand_eq_error_iff, cmdFields_rsvOk, cmdFields_opOk, cmdFields_bufselOk]
  omega

/-- An illegal command is not RECEIVE, so raising its error leaves `RXLEN` alone (30_encoding.md R84, 60_exceptions.md
R200). -/
theorem badOpStep_of_illegal {s : State} {e : Reject} (hp : s.phase = .exec) (he : decodeCommand s.cmd = .error e) :
    badOpStep s = .next { s with ok := false, err := .badOp, done := true, phase := .idle } := by
  have hne : s.cmd ≠ encode .receive := by
    intro hcmd
    rw [hcmd, decodeCommand_encode rfl] at he
    cases he
  rw [badOpStep, inExec_of_exec hp, State.raiseErr_of_ne hne]

/-- Settles O9 (30_encoding.md R84, 60_exceptions.md R200, R202). -/
theorem illegalCommandFinishesBadOp : Obligations.IllegalCommandFinishesBadOp := by
  intro s e hnext hp he
  have hfetch : s.turned.fetch = some (.error e) := by
    rw [State.turned_fetch, State.fetch_of_not_hunt (by simp [hp]) (by simp [hp]), he]
  calc step s = engineStep s.turned := step_of_engineNext hnext
    _ = badOpStep s.turned := by rw [engineStep, hfetch]
    _ = _ := badOpStep_of_illegal (s := s.turned) hp he

/-! ### The packed registers -/

/-- Bit 0 of `STATUS` is `BUSY` (10_state.md R28, R33). -/
theorem State.status_busy (s : State) : s.status.getLsbD 0 = decide (s.phase ≠ .idle) := by
  simp only [State.status, BitVec.getLsbD_append]
  simp [State.busy, bne, beq_eq_decide]

/-- Bit 2 of `STATUS` is `OK` (10_state.md R28). -/
theorem State.status_ok (s : State) : s.status.getLsbD 2 = s.ok := by
  simp only [State.status, BitVec.getLsbD_append]
  simp

/-- Bit 3 of `STATUS` reads 0 (10_state.md R28). -/
theorem State.status_reserved (s : State) : s.status.getLsbD 3 = false := by
  simp only [State.status, BitVec.getLsbD_append]
  simp

/-- Bits 7:4 of `STATUS` are the error code (10_state.md R28). -/
theorem State.status_err (s : State) : s.status.extractLsb' 4 4 = s.err.code :=
  BitVec.extractLsb'_append_eq_left

theorem State.cfgValid_v (s : State) : s.cfgValid.getLsbD 0 = s.validV := by
  simp only [State.cfgValid, BitVec.getLsbD_append]
  simp

theorem State.cfgValid_o (s : State) : s.cfgValid.getLsbD 1 = s.validO := by
  simp only [State.cfgValid, BitVec.getLsbD_append]
  simp

theorem State.cfgValid_d (s : State) : s.cfgValid.getLsbD 2 = s.validD := by
  simp only [State.cfgValid, BitVec.getLsbD_append]
  simp

/-- Bits 7:3 of `CFG_VALID` read 0 (10_state.md R24). -/
theorem State.cfgValid_reserved (s : State) : s.cfgValid.extractLsb' 3 5 = 0 :=
  BitVec.extractLsb'_append_eq_left

/-- Settles O42 (30_encoding.md R76): the nine codes, and no constructor beyond them. -/
theorem errorCodesMatchTable : Obligations.ErrorCodesMatchTable := by
  refine ⟨rfl, rfl, rfl, rfl, rfl, rfl, rfl, rfl, rfl, fun e => ?_⟩
  cases e with
  | none | noSof | lenInsane | lenMismatch | checksum | busTimeout | overflow | notConfigured | badOp => decide

/-! ### What a read of an address returns -/

/-- A read of the variant's address answers its code (30_encoding.md R74, R75). -/
theorem State.hostRead_variant (s : State) : s.hostRead 0x02 = .ok ((variantCode s.variant).setWidth 8) := rfl

/-- An address from 0x0E on that lies in no window, or beyond the capacity inside one, reads 0 (20_memory.md R53). -/
theorem State.hostRead_reserved {s : State} {a : Byte} (hge : 0x0E ≤ a.toNat)
    (hbyte : ∀ j, j < s.params.bufCap → j < 64 → a.toNat ≠ 0x40 + j ∧ a.toNat ≠ 0x80 + j) : s.hostRead a = .ok 0 := by
  have hreg : hostReg s.params a = .reserved := by
    refine hostReg_eq_reserved hge fun b j hb => ?_
    obtain ⟨hj, hj64, haddr⟩ := hostReg_eq_byte.mp hb
    have hnot := hbyte j hj hj64
    omega
  rw [State.hostRead, hreg]
  rfl

/-- A window address below the capacity reads its buffer byte (20_memory.md R55). -/
theorem State.hostRead_byte {s : State} {a : Byte} {b : Buffer} {j : Nat} (hj : j < s.params.bufCap) (hj64 : j < 64)
    (haddr : b = .tx ∧ a.toNat = 0x40 + j ∨ b = .rx ∧ a.toNat = 0x80 + j) : s.hostRead a = s.readByte b j := by
  rw [State.hostRead, hostReg_eq_byte.mpr ⟨hj, hj64, haddr⟩]
  rfl

/-- Settles O41 (30_encoding.md R74, 20_memory.md R53, R59): the named registers by the map's rows, the rest of the
space by which addresses lie in a window. -/
theorem hostReadsRegisterMap : Obligations.HostReadsRegisterMap := by
  intro s
  refine ⟨⟨rfl, rfl, ?_, rfl, rfl, rfl⟩, ⟨rfl, rfl, rfl, rfl⟩,
    ⟨s.status, rfl, s.status_busy, s.status_done, s.status_ok, s.status_reserved, s.status_err⟩, ⟨rfl, rfl⟩,
    ⟨s.cfgValid, rfl, s.cfgValid_v, s.cfgValid_o, s.cfgValid_d, s.cfgValid_reserved⟩,
    fun a ha => ?_, fun a j hcap hj64 ha => ?_, fun a j v hcap hj64 => ?_⟩
  · rw [s.hostRead_variant]
    cases s.variant with
    | bsb | lpb | pps => rfl
  · exact State.hostRead_reserved (by omega) (by omega)
  · exact State.hostRead_reserved (by omega) (by omega)
  · have htx := fun ha => State.hostRead_byte (s := s) (a := a) (b := .tx) hcap hj64 (.inl ⟨rfl, ha⟩)
    have hrx := fun ha => State.hostRead_byte (s := s) (a := a) (b := .rx) hcap hj64 (.inr ⟨rfl, ha⟩)
    refine ⟨fun ha hv => ?_, fun ha hv => ?_, fun ha hnone => ?_, fun ha hnone => ?_⟩
    · exact (htx ha).trans (State.readByte_eq_ok.mpr hv)
    · exact (hrx ha).trans (State.readByte_eq_ok.mpr hv)
    · exact (htx ha).trans (State.readByte_eq_error.mpr ⟨hnone, rfl⟩)
    · exact (hrx ha).trans (State.readByte_eq_error.mpr ⟨hnone, rfl⟩)

end Sys2Proof.Machine
end

section
/-! NOP and CONFIGURE (40_config.md): what the two write, and that no other step but reset writes a configuration register
(R105). -/

namespace Sys2Proof.Machine

/-! ### NOP and CONFIGURE in EXEC -/

/-- Settles O10 (40_config.md R104): NOP is not RECEIVE, so its finish leaves `RXLEN` alone. -/
theorem nopFinishesOk : Obligations.NopFinishesOk := by
  intro s hp hcmd
  have hne : s.cmd ≠ encode .receive := by
    rw [hcmd]
    decide
  show execNop s = _
  rw [execNop, inExec_of_exec hp, State.finishOk_of_ne hne]

theorem exec_configure_of_exec {s : State} (hp : s.phase = .exec) :
    exec .configure s = .next s.configureVariant.configureOwn.configureDest.finishOk := by
  show execConfigure s = _
  rw [execConfigure, inExec_of_exec hp]

theorem State.configureVariant_of_some {s : State} {v : Variant} (h : variantOfCode s.newVariant = some v) :
    s.configureVariant = s.writeVariant v := by
  rw [State.configureVariant, h]

theorem State.configureVariant_of_none {s : State} (h : variantOfCode s.newVariant = none) : s.configureVariant = s := by
  rw [State.configureVariant, h]

/-- The variant argument by its code (30_encoding.md R75): every code but 3 stores its variant, and with it the variant's
`LEN_IDX`, and clears the pending override (40_config.md R102). -/
theorem State.configureVariant_eq (s : State) : s.configureVariant = { s with
    variant := if s.newVariant = 0 then .bsb else if s.newVariant = 1 then .lpb
      else if s.newVariant = 2 then .pps else s.variant
    validV := if s.newVariant = 3 then s.validV else true
    lenIdx := if s.newVariant = 0 then 3 else if s.newVariant = 1 then 1
      else if s.newVariant = 2 then 9 else s.lenIdx
    ppsOvrPend := if s.newVariant = 3 then s.ppsOvrPend else false } := by
  have hcodes : ∀ c : BitVec 2, c = 0 ∨ c = 1 ∨ c = 2 ∨ c = 3 := by decide
  obtain hc | hc | hc | hc := hcodes s.newVariant
  · rw [State.configureVariant_of_some (v := .bsb) (by rw [hc]; rfl)]
    simp [hc, State.writeVariant, lenIdxOf, Config.lenIdxBsb]
  · rw [State.configureVariant_of_some (v := .lpb) (by rw [hc]; rfl)]
    simp [hc, State.writeVariant, lenIdxOf, Config.lenIdxLpb]
  · rw [State.configureVariant_of_some (v := .pps) (by rw [hc]; rfl)]
    simp [hc, State.writeVariant, lenIdxOf, Config.ppsLongLenIdx]
  · rw [State.configureVariant_of_none (by rw [hc]; rfl)]
    cases s
    cases hc
    rfl

theorem State.configureOwn_eq (s : State) : s.configureOwn = { s with
    own := if s.newOwn = 0xFF then s.own else s.newOwn
    validO := if s.newOwn = 0xFF then s.validO else true } := by
  unfold State.configureOwn Config.addrSentinel
  split
  · rfl
  · rfl

theorem State.configureDest_eq (s : State) : s.configureDest = { s with
    dest := if s.newDest = 0xFF then s.dest else s.newDest
    validD := if s.newDest = 0xFF then s.validD else true } := by
  unfold State.configureDest Config.addrSentinel
  split
  · rfl
  · rfl

/-- Settles O11 (40_config.md R100 to R102): the three arguments one after the other, then the finish, which leaves `RXLEN`
alone. -/
theorem configureStoresArguments : Obligations.ConfigureStoresArguments := by
  intro s hp hcmd
  have hne : s.configureVariant.configureOwn.configureDest.cmd ≠ encode .receive := by
    obtain ⟨_, _, _, _, _, _, _, _, hc⟩ := configure_eq s
    rw [hc]
    simp [hcmd, encode]
  rw [exec_configure_of_exec hp, State.finishOk_of_ne hne]
  simp only [State.configureVariant_eq, State.configureOwn_eq, State.configureDest_eq]

/-! ### Two CONFIGUREs with one variant code -/

/-- After CONFIGURE with a variant code other than 3, `LEN_IDX` is a function of the code (40_config.md R102). -/
theorem configure_lenIdx {s t : State} (hp : s.phase = .exec) (hcode : s.newVariant ≠ 3)
    (h : exec .configure s = .next t) :
    t.lenIdx = if s.newVariant = 0 then 3 else if s.newVariant = 1 then 1 else 9 := by
  have hcodes : ∀ c : BitVec 2, c ≠ 3 → c ≠ 0 → c ≠ 1 → c = 2 := by decide
  rw [exec_configure_of_exec hp, State.configureDest_eq, State.configureOwn_eq, State.configureVariant_eq] at h
  cases h
  simp only [State.finishOk_lenIdx]
  split_ifs with h0 h1 h2
  · rfl
  · rfl
  · rfl
  · exact absurd (hcodes _ hcode h0 h1) h2

/-- Settles O12 (40_config.md R103). -/
theorem configureTwiceSameLenIdx : Obligations.ConfigureTwiceSameLenIdx := by
  intro s s' t t' hp hp' hsame hcode hstep hstep'
  rw [configure_lenIdx hp hcode hstep, configure_lenIdx hp' (hsame ▸ hcode) hstep', hsame]

/-! ### The configuration registers under the Engine's other operations -/

/-- The configuration registers (10_state.md R21 to R25). The pending override of R26 is not one of them: the parser writes
it too (`ppsOverridePersists`). -/
structure Configuration where
  variant : Variant
  own : Byte
  dest : Byte
  lenIdx : Byte
  validV : Bool
  validO : Bool
  validD : Bool

def State.configuration (s : State) : Configuration :=
  ⟨s.variant, s.own, s.dest, s.lenIdx, s.validV, s.validO, s.validD⟩

theorem State.configuration_eq_iff {s t : State} : t.configuration = s.configuration ↔
    t.variant = s.variant ∧ t.own = s.own ∧ t.dest = s.dest ∧ t.lenIdx = s.lenIdx ∧ t.validV = s.validV ∧
      t.validO = s.validO ∧ t.validD = s.validD := by
  simp [State.configuration]

theorem cksumStep_configuration {b : Buffer} {count : Nat → Nat} {engine : List Byte → Nat → Half} {s t : State}
    (h : cksumStep b count engine s = .next t) : t.configuration = s.configuration := by
  obtain ⟨-, rfl⟩ | ⟨-, _, -, -, rfl⟩ := cksumStep_cases h
  · rfl
  · rfl

theorem sofFound_configuration {b : Byte} {s t : State} (h : sofFound b s = .next t) :
    t.configuration = s.configuration := by
  obtain ⟨-, -, -, rfl⟩ | ⟨-, -, rfl⟩ | ⟨-, -, -, _, _, _, -, rfl⟩ := sofFound_cases h
  · rfl
  · rfl
  · rfl

theorem rxHuntStep_configuration {s t : State} (h : rxHuntStep s = .next t) : t.configuration = s.configuration := by
  obtain ⟨-, rfl⟩ | ⟨-, -, rfl⟩ | ⟨_, _, -, -, -, rfl⟩ | ⟨_, _, _, -, -, -, hsof⟩ := rxHuntStep_cases h
  · rfl
  · rfl
  · rfl
  · rw [sofFound_configuration hsof]
    simp [State.configuration]

theorem afterAppend_configuration {s t : State} (h : afterAppend s = .next t) : t.configuration = s.configuration := by
  obtain ⟨-, rfl⟩ | ⟨-, -, rfl⟩ | ⟨-, -, _, -, ⟨-, rfl⟩ | ⟨-, rfl⟩⟩ := afterAppend_cases h
  · rfl
  · rfl
  · rfl
  · rfl

theorem rxByteStep_configuration {s t : State} (h : rxByteStep s = .next t) : t.configuration = s.configuration := by
  obtain ⟨-, rfl⟩ | ⟨-, -, rfl⟩ | ⟨_, _, -, -, -, rfl⟩ | ⟨_, _, -, -, -, happ⟩ := rxByteStep_cases h
  · rfl
  · rfl
  · rfl
  · rw [afterAppend_configuration happ]
    simp [State.configuration]

theorem rxCheckStep_configuration {s t : State} (h : rxCheckStep s = .next t) : t.configuration = s.configuration := by
  obtain ⟨-, rfl⟩ | ⟨-, -, _, _, -, ⟨-, rfl⟩ | ⟨-, rfl⟩⟩ := rxCheckStep_cases h
  · rfl
  · rfl
  · rfl

theorem txPrepStep_configuration {s t : State} (h : txPrepStep s = .next t) : t.configuration = s.configuration := by
  obtain ⟨-, rfl⟩ | ⟨-, _, -, ⟨_, -, -, rfl⟩ | ⟨-, _, hembed, rfl⟩⟩ := txPrepStep_cases h
  · rfl
  · rfl
  · obtain ⟨_, _, rfl⟩ := prepared_eq hembed
    rfl

theorem txAcqStep_configuration {s t : State} (h : txAcqStep s = .next t) : t.configuration = s.configuration := by
  obtain ⟨-, rfl⟩ | ⟨-, -, rfl⟩ | ⟨-, -, _, _, _, -, rfl⟩ := txAcqStep_cases h
  · rfl
  · rfl
  · rfl

theorem txWaitStep_configuration {s t : State} (h : txWaitStep s = .next t) : t.configuration = s.configuration := by
  obtain ⟨_, rfl | ⟨-, rfl⟩ | rfl⟩ := txWaitStep_cases h
  · rfl
  · rfl
  · rfl

theorem txChkStep_configuration {s t : State} (h : txChkStep s = .next t) : t.configuration = s.configuration := by
  obtain ⟨-, rfl⟩ | ⟨-, rfl⟩ := txChkStep_cases h
  · rfl
  · rfl

theorem afterOffer_configuration {acc : Nat} {s t : State} (h : afterOffer acc s = .next t) :
    t.configuration = s.configuration := by
  obtain ⟨-, rfl⟩ | ⟨-, -, rfl⟩ | ⟨-, -, rfl⟩ := afterOffer_cases h
  · rfl
  · rfl
  · rfl

theorem txByteStep_configuration {s t : State} (h : txByteStep s = .next t) : t.configuration = s.configuration := by
  obtain ⟨_, _, _, _, -, -, hoffer⟩ := txByteStep_cases h
  rw [afterOffer_configuration hoffer]
  simp [State.configuration]

/-- The inversion of the Engine's step, read for the configuration registers. -/
theorem EngineRuns.configuration {s t : State} {r : Result} (hruns : EngineRuns s r) (h : r = .next t) :
    t.configuration = s.configuration ∨ s.phase = .exec ∧ s.cmd = encode .configure := by
  cases hruns with
  | hold => cases h; exact .inl rfl
  | badOp => cases h; exact .inl rfl
  | nop => cases h; exact .inl rfl
  | configure hp hcmd => exact .inr ⟨hp, hcmd⟩
  | cksum => exact .inl (cksumStep_configuration h)
  | hunt => exact .inl (rxHuntStep_configuration h)
  | settle => cases h; exact .inl rfl
  | byte => exact .inl (rxByteStep_configuration h)
  | check => exact .inl (rxCheckStep_configuration h)
  | prep => exact .inl (txPrepStep_configuration h)
  | acq => exact .inl (txAcqStep_configuration h)
  | wait => exact .inl (txWaitStep_configuration h)
  | chk => exact .inl (txChkStep_configuration h)
  | offer => exact .inl (txByteStep_configuration h)

/-! ### The configuration registers under the other agents -/

/-- Of the other agents only the reset input writes a configuration register: the host's addresses of them take no write,
and what it stores for a later CONFIGURE is in the argument registers (20_memory.md R53, 10_state.md R32). -/
theorem AgentTurn.configuration {s t : State} {u : Turn} (hturn : AgentTurn s u t) (hu : u ≠ .reset) :
    t.configuration = s.configuration := by
  cases hturn with
  | reset => exact absurd rfl hu
  | arrive b =>
    obtain ⟨_, _, harrive⟩ := s.rxArrive_eq b
    rw [harrive]
    rfl
  | _ => rfl

/-- Settles O52 (40_config.md R105): whoever's turn it is, all but CONFIGURE and reset keep the registers. -/
theorem onlyConfigureAndResetChangeConfiguration : Obligations.OnlyConfigureAndResetChangeConfiguration := by
  intro s t hstep hreset hconfigure
  refine State.configuration_eq_iff.mp ?_
  obtain ⟨hnext, hruns⟩ | ⟨u, hu, hturn⟩ := step_next_cases hstep
  · exact (hruns.configuration rfl).resolve_right fun hconf => hconfigure ⟨hnext, hconf⟩
  · exact hturn.configuration (by rintro rfl; exact hreset hu)

end Sys2Proof.Machine
end

section
/-! RECEIVE's hunt (41_parser.md R111): the phase rules of RECEIVE, and the three ways a hunt ends without a start of
frame. -/

namespace Sys2Proof.Machine

/-! ### RECEIVE by its phase (R110) -/

theorem exec_receive_of_hunt {s : State} (h : s.phase = .rxHunt) : exec .receive s = rxHuntStep s := by
  show execReceive s = _
  rw [execReceive, h]

theorem exec_receive_of_settle {s : State} (h : s.phase = .rxSettle) : exec .receive s = rxSettleStep s := by
  show execReceive s = _
  rw [execReceive, h]

theorem exec_receive_of_byte {s : State} (h : s.phase = .rxByte) : exec .receive s = rxByteStep s := by
  show execReceive s = _
  rw [execReceive, h]

theorem exec_receive_of_check {s : State} (h : s.phase = .rxCheck) : exec .receive s = rxCheckStep s := by
  show execReceive s = _
  rw [execReceive, h]

/-! ### The hunt -/

/-- The first test of the hunt passes (R111): the own address counts under PPS alone. -/
theorem State.receiveConfigured_eq_true {s : State} (hv : s.validV = true) (ho : s.variant = .pps → s.validO = true) :
    s.receiveConfigured = true := by
  by_cases hpps : s.variant = .pps
  · simp [State.receiveConfigured, hv, ho hpps]
  · simp [State.receiveConfigured, hv, hpps]

theorem State.popRx_of_cons {s : State} {r : Byte} {rest : List Byte} (h : s.rxq = r :: rest) :
    s.popRx = { s with rxq := rest, rxPop := false } := by
  simp [State.popRx, h]

theorem rxHuntStep_of_unconfigured {s : State} (h : s.receiveConfigured = false) :
    rxHuntStep s = .next ((s.setCount 0).raiseErr .notConfigured) :=
  if_pos h

theorem rxHuntStep_of_empty {s : State} (hconf : s.receiveConfigured = true) (hq : s.rxq = []) :
    rxHuntStep s = .next ((s.setCount 0).raiseErr .noSof) := by
  unfold rxHuntStep
  dsimp only
  rw [State.setCount_receiveConfigured, if_neg (by simp [hconf]), State.setCount_rxq, hq]

theorem rxHuntStep_of_not_sof {s : State} {r : Byte} {rest : List Byte} (hconf : s.receiveConfigured = true)
    (hq : s.rxq = r :: rest) (hsof : sofInstr s.variant (polarity s.variant r) = none) :
    rxHuntStep s = .next (s.setCount 0).popRx := by
  unfold rxHuntStep huntByte
  dsimp only
  rw [State.setCount_receiveConfigured, if_neg (by simp [hconf]), State.setCount_rxq, hq]
  dsimp only
  rw [State.popRx_variant, State.setCount_variant, hsof]

/-- Settles O20 (41_parser.md R111, R124): the configuration is tested first, then the queue, then the byte at its head; the
finish writes the count 0 the hunt began with into `RXLEN`. -/
theorem huntWithoutStartOfFrame : Obligations.HuntWithoutStartOfFrame := by
  intro s hp hcmd
  have hraise := State.raiseErr_of_receive (s := s.setCount 0) hcmd
  rw [exec_receive_of_hunt hp]
  refine ⟨fun hblocked => ?_, fun hv ho hq => ?_, fun hv ho r rest hq hnot => ?_⟩
  · rw [rxHuntStep_of_unconfigured (State.receiveConfigured_eq_false hblocked), hraise]
    rfl
  · rw [rxHuntStep_of_empty (State.receiveConfigured_eq_true hv ho) hq, hraise]
    rfl
  · rw [← polarity_eq] at hnot
    rw [rxHuntStep_of_not_sof (State.receiveConfigured_eq_true hv ho) hq (sofInstr_eq_none.mpr hnot),
      State.popRx_of_cons (s := s.setCount 0) hq]
    rfl

end Sys2Proof.Machine
end

section
/-! A start of frame at the head of the queue (41_parser.md R111 to R114): the capture it starts, the PPS short frame, and
the length field index that a pending PPS override draws. -/

namespace Sys2Proof.Machine

/-! ### The start-of-frame instructions (30_encoding.md R78) -/

theorem exec_of_wire {s : State} {i : Instr} {v : Variant} (h : i.space = .wire v) : exec i s = sofByte (encode i) s := by
  cases i with
  | nop | configure | cksumBsbTx | cksumBsbRx | cksumLpbTx | cksumLpbRx | cksumPpsTx | cksumPpsRx => cases h
  | receive | send => cases h
  | sofBsbDc | sofBsbDe | sofLpb | sofPps17 | sofPps1D | sofPps1E => rfl

theorem sofInstr_logicalByte_encode {i : Instr} {v : Variant} (h : i.space = .wire v) :
    sofInstr v (logicalByte v (encode i)) = some i := by
  rw [← polarity_eq]
  exact (decodeWire_eq_ok (decodeWire_encode h)).1

/-- The state in which the hunt has popped a byte and left `rest` in the queue (R111, 10_state.md R38). -/
def State.hunted (s : State) (rest : List Byte) : State := { s with rxq := rest, rxPop := false, i := 0 }

theorem State.setCount_popRx_of_cons {s : State} {r : Byte} {rest : List Byte} (h : s.rxq = r :: rest) :
    (s.setCount 0).popRx = s.hunted rest :=
  State.popRx_of_cons h

/-- The start-of-frame instruction and RECEIVE take the same step: the hunt pops the byte and starts a capture with it
(R111, R112). -/
theorem exec_sof_of_head {s : State} {i : Instr} {rest : List Byte} (hi : i.space = .wire s.variant)
    (hp : s.phase = .rxHunt) (hconf : s.receiveConfigured = true) (hq : s.rxq = encode i :: rest) :
    exec i s = sofFound (logicalByte s.variant (encode i)) (s.hunted rest) ∧
      exec .receive s = exec i s := by
  have hhunt : exec i s = rxHuntStep s := by
    rw [exec_of_wire hi, sofByte, if_pos ⟨hp, by rw [hq]; rfl⟩]
  have hsof : sofInstr s.variant (polarity s.variant (encode i)) = some i := by
    rw [polarity_eq, sofInstr_logicalByte_encode hi]
  refine ⟨?_, (exec_receive_of_hunt hp).trans hhunt.symm⟩
  rw [hhunt, rxHuntStep_of_sof hconf hq hsof, polarity_eq, State.setCount_popRx_of_cons hq]

/-! ### `sof_found()` (R112) -/

/-- Only 0x17 met with own address 1 is a whole frame (R113). -/
theorem not_ppsShort_of_sof {i : Instr} {v : Variant} {own : Byte} (hi : i.space = .wire v)
    (hown : i = .sofPps17 → own ≠ 1) :
    ¬(v = .pps ∧ logicalByte v (encode i) = Config.sofPps17 ∧ own = Config.ppsShortOwn) := by
  rintro ⟨rfl, hb, ho⟩
  have hsof := sofInstr_logicalByte_encode hi
  rw [hb] at hsof
  exact hown (Option.some.inj hsof).symm ho

theorem sofFound_of_short {s : State} (hv : s.variant = .pps) (hown : s.own = 1) (hcmd : s.cmd = encode .receive) :
    sofFound 0x17 s = .next { s with
      rxbuf := s.rxbuf.write 0 0x17, i := 1, ppsOvrPend := true, rxlen := 1, ok := true, err := .none, done := true,
      phase := .idle } := by
  unfold sofFound ppsShort
  dsimp only
  rw [if_pos (by exact ⟨hv, rfl, hown⟩), State.finishOk_of_receive (by exact hcmd)]
  rfl

theorem sofFound_of_selectLi {s u : State} {b li : Byte}
    (hlong : ¬(s.variant = .pps ∧ b = Config.sofPps17 ∧ s.own = Config.ppsShortOwn))
    (hli : selectLi ((s.setRx 0 b).setCount 1) = .ok (li, u)) :
    sofFound b s = .next { u with li := li, phase := .rxSettle } := by
  unfold sofFound
  dsimp only
  rw [if_neg (by exact hlong), hli]

theorem sofFound_of_refused {s : State} {b : Byte} {e : Refusal}
    (hlong : ¬(s.variant = .pps ∧ b = Config.sofPps17 ∧ s.own = Config.ppsShortOwn))
    (hli : selectLi ((s.setRx 0 b).setCount 1) = .error e) : sofFound b s = .refused e := by
  unfold sofFound
  dsimp only
  rw [if_neg (by exact hlong), hli]

/-! ### The length field index (R114) -/

theorem selectLi_of_not_pending {s : State} (h : s.variant = .pps → s.ppsOvrPend = false) :
    selectLi s = .ok (s.lenIdx, s) :=
  if_neg fun ⟨hv, hpend⟩ => by simp [h hv] at hpend

theorem selectLi_of_pending {s : State} (hv : s.variant = .pps) (hpend : s.ppsOvrPend = true) :
    selectLi s = State.drawPpsLi { s with ppsOvrPend := false } :=
  if_pos ⟨hv, hpend⟩

theorem State.drawPpsLi_of_scripted {s : State} {li : Byte} {draws : List Byte} (hd : s.ppsLiDraws = li :: draws)
    (hli : li = 8 ∨ li = 9) : s.drawPpsLi = .ok (li, { s with ppsLiDraws := draws }) := by
  unfold State.drawPpsLi
  rw [hd]
  exact if_pos hli

theorem State.drawPpsLi_of_out_of_range {s : State} {li : Byte} {draws : List Byte} (hd : s.ppsLiDraws = li :: draws)
    (h8 : li ≠ 8) (h9 : li ≠ 9) : s.drawPpsLi = .error (.ppsLiRange li) := by
  unfold State.drawPpsLi
  rw [hd]
  exact if_neg (not_or.mpr ⟨h8, h9⟩)

/-- With no draw pending the free input answers, or the simulator's default: 8 or 9 either way (10_state.md R43). -/
theorem State.drawPpsLi_of_unscripted {s : State} (hd : s.ppsLiDraws = []) :
    ∃ li c, (li = 8 ∨ li = 9) ∧ s.drawPpsLi = .ok (li, { s with drawCount := c }) := by
  cases hu : s.unscripted with
  | simulator => exact ⟨8, s.drawCount, .inl rfl, by rw [State.drawPpsLi_simulator hu hd, ← hu]⟩
  | anyValue =>
    refine ⟨if Config.freePpsShort s.drawCount then 8 else 9, s.drawCount + 1, ?_, ?_⟩
    · split
      · exact .inl rfl
      · exact .inr rfl
    · unfold State.drawPpsLi
      rw [hd, hu]
      rfl

/-! ### The three statements -/

/-- Settles O21 (41_parser.md R111, R112, R114): without a pending override the index is the variant's `LEN_IDX`. -/
theorem startOfFrameStartsCapture : Obligations.StartOfFrameStartsCapture := by
  intro s i rest hi hp hv ho hq hown hpend
  obtain ⟨hstep, hsame⟩ := exec_sof_of_head hi hp (State.receiveConfigured_eq_true hv ho) hq
  have hlong := not_ppsShort_of_sof hi hown
  refine ⟨?_, hsame⟩
  rw [hstep, sofFound_of_selectLi (s := s.hunted rest) hlong (selectLi_of_not_pending hpend)]
  rfl

/-- Settles O22 (41_parser.md R113): the hunt's own step finishes, with the one byte counted. -/
theorem ppsShortFrameSucceeds : Obligations.PpsShortFrameSucceeds := by
  intro s rest hp hcmd hpps hv ho hown hq
  have hi : Instr.sofPps17.space = .wire s.variant := by rw [hpps]; rfl
  obtain ⟨hstep, hsame⟩ := exec_sof_of_head hi hp (State.receiveConfigured_eq_true hv fun _ => ho) hq
  have hbyte : logicalByte s.variant (encode .sofPps17) = 0x17 := by rw [hpps]; rfl
  refine ⟨?_, hsame⟩
  rw [hstep, hbyte]
  exact sofFound_of_short (s := s.hunted rest) hpps hown hcmd

/-- Settles O23 (41_parser.md R114): the override is cleared, and the draw is the index or is refused. -/
theorem ppsOverrideDrawsLengthIndex : Obligations.PpsOverrideDrawsLengthIndex := by
  intro s i rest hpps hi hp hv ho hq hown hpend
  have hwire : i.space = .wire s.variant := hpps ▸ hi
  have hbyte : logicalByte s.variant (encode i) = encode i := if_pos hpps
  have hlong := not_ppsShort_of_sof hwire hown
  have hselect := selectLi_of_pending (s := ((s.hunted rest).setRx 0 (encode i)).setCount 1) hpps hpend
  obtain ⟨hstep, -⟩ := exec_sof_of_head hwire hp (State.receiveConfigured_eq_true hv fun _ => ho) hq
  rw [hbyte] at hstep hlong
  rw [hstep]
  refine ⟨fun li draws hd hli => ?_, fun li draws hd h8 h9 => ?_, fun hd => ?_⟩
  · rw [State.drawPpsLi_of_scripted (by exact hd) hli] at hselect
    rw [sofFound_of_selectLi (s := s.hunted rest) hlong hselect]
    rfl
  · rw [State.drawPpsLi_of_out_of_range (by exact hd) h8 h9] at hselect
    exact sofFound_of_refused hlong hselect
  · obtain ⟨li, c, hli, hdraw⟩ := State.drawPpsLi_of_unscripted
      (s := { ((s.hunted rest).setRx 0 (encode i)).setCount 1 with ppsOvrPend := false }) hd
    refine ⟨li, c, hli, ?_⟩
    rw [sofFound_of_selectLi (s := s.hunted rest) hlong (hselect.trans hdraw)]
    rfl

end Sys2Proof.Machine
end

section
/-! A capture (41_parser.md R115 to R120): the pause, a latched timeout, and one byte appended with its capacity, sanity and
completion checks. -/

namespace Sys2Proof.Machine

/-! ### The pause, the timeout and the empty queue -/

theorem rxByteStep_of_timeout {s : State} (h : s.timeout = true) :
    rxByteStep s = .next { s with timeout := false, phase := .rxCheck } :=
  if_pos h

theorem rxByteStep_of_empty {s : State} (ht : s.timeout = false) (hq : s.rxq = []) : rxByteStep s = .next s := by
  unfold rxByteStep
  rw [if_neg (by simp [ht]), hq]
  rfl

/-- Settles O24 (41_parser.md R115, R116). -/
theorem settleTimeoutAndHold : Obligations.SettleTimeoutAndHold := by
  refine fun s => ⟨fun hp => ?_, fun hp ht => ?_, fun hp ht hq => ?_⟩
  · exact exec_receive_of_settle hp
  · rw [exec_receive_of_byte hp, rxByteStep_of_timeout ht]
  · rw [exec_receive_of_byte hp, rxByteStep_of_empty ht hq]

/-! ### One byte (R116, R117) -/

/-- The state in which `RX_BYTE` has popped `r` and stored it, with `rest` left in the queue (R117). -/
def State.appended (s : State) (r : Byte) (rest : List Byte) : State :=
  { s with
    rxq := rest, rxPop := false, rxbuf := s.rxbuf.write s.i.toNat (logicalByte s.variant r), i := s.i + 1 }

theorem rxByteStep_of_full {s : State} {r : Byte} {rest : List Byte} (ht : s.timeout = false) (hq : s.rxq = r :: rest)
    (hfull : s.params.bufCap ≤ s.i.toNat) : rxByteStep s = .next (s.popRx.raiseErr .overflow) := by
  unfold rxByteStep appendByte
  rw [if_neg (by simp [ht]), hq]
  exact if_pos hfull

theorem rxByteStep_of_room {s : State} {r : Byte} {rest : List Byte} (ht : s.timeout = false) (hq : s.rxq = r :: rest)
    (hroom : s.i.toNat < s.params.bufCap) : rxByteStep s = afterAppend (s.appended r rest) := by
  unfold rxByteStep appendByte
  rw [if_neg (by simp [ht]), hq]
  dsimp only
  rw [if_neg (by exact not_le.mpr hroom), State.popRx_of_cons hq, polarity_eq]
  rfl

/-! ### The checks after it (R118 to R120) -/

theorem lenFieldInsane_of_pps {s : State} (h : s.variant = .pps) : lenFieldInsane s = .ok false :=
  if_pos h

theorem lenFieldInsane_of_read {s : State} {v : Byte} (hv : s.variant ≠ .pps) (hread : s.rxbuf.read s.li.toNat = some v) :
    lenFieldInsane s = .ok (decide (32 < v.toNat)) := by
  unfold lenFieldInsane
  have hbyte : s.readByte .rx s.li.toNat = .ok v := State.readByte_eq_ok.mpr hread
  rw [if_neg hv, hbyte]
  rfl

theorem State.goto_self {s : State} {p : Phase} (h : s.phase = p) : s.goto p = s := by
  subst h
  rfl

theorem afterAppend_of_before_field {s : State} (h : s.i.toNat ≤ s.li.toNat) : afterAppend s = .next (s.goto .rxByte) :=
  if_pos h

theorem afterAppend_of_insane {s : State} (hli : s.li.toNat < s.i.toNat) (h : lenFieldInsane s = .ok true) :
    afterAppend s = .next (s.raiseErr .lenInsane) := by
  unfold afterAppend
  rw [if_neg (not_le.mpr hli), h]

/-- With a sane length field in, `E` is the declared length, and the capture ends when the count reaches it. -/
theorem afterAppend_of_sane {s : State} {e : Nat} (hli : s.li.toNat < s.i.toNat) (h : lenFieldInsane s = .ok false)
    (he : s.declares e) :
    afterAppend s = .next { s with declLen := e, phase := if e ≤ s.i.toNat then .rxCheck else .rxByte } := by
  unfold afterAppend
  rw [if_neg (not_le.mpr hli), h, State.declaredLength_eq_ok.mpr he]
  dsimp only
  by_cases hle : e ≤ s.i.toNat
  · rw [if_pos (by exact hle), if_pos hle]
    rfl
  · rw [if_neg (by exact hle), if_neg hle]
    rfl

/-- Settles O25 (41_parser.md R116 to R120, R124). -/
theorem byteStepAppends : Obligations.ByteStepAppends := by
  intro s r rest hparams hp hcmd ht hq
  rw [exec_receive_of_byte hp]
  refine ⟨fun hfull => ?_, fun hroom t hdef => ?_⟩
  · rw [rxByteStep_of_full ht hq hfull, State.popRx_of_cons hq, State.raiseErr_of_receive (by exact hcmd)]
  have hcap := Params.bufCap_le hparams
  have hstep : rxByteStep s = afterAppend t := by rw [hdef]; exact rxByteStep_of_room ht hq hroom
  obtain ⟨hphase, hcmd', hvariant, hli, hi⟩ :
      t.phase = .rxByte ∧ t.cmd = encode .receive ∧ t.variant = s.variant ∧ t.li = s.li ∧ t.i = s.i + 1 := by
    rw [hdef]
    exact ⟨hp, hcmd, rfl, rfl, rfl⟩
  have hcount : t.i.toNat = s.i.toNat + 1 := by rw [hi, toNat_succ (by omega)]
  rw [hstep, ← hvariant, ← hli, ← hi, ← hcount]
  refine ⟨fun hbefore => ?_, fun hfield hv f hread hlarge => ?_, fun hfield hsane E hE => ?_⟩
  · rw [afterAppend_of_before_field (by omega), State.goto_self hphase]
  · have hinsane : lenFieldInsane t = .ok true := by
      rw [lenFieldInsane_of_read hv hread, decide_eq_true hlarge]
    rw [afterAppend_of_insane (by omega) hinsane, State.raiseErr_of_receive hcmd']
  · have hfine : lenFieldInsane t = .ok false := by
      by_cases hv : t.variant = .pps
      · exact lenFieldInsane_of_pps hv
      · obtain ⟨f, hread, hle⟩ := hsane hv
        rw [lenFieldInsane_of_read hv hread, decide_eq_false (not_lt.mpr hle)]
    exact afterAppend_of_sane (by omega) hfine hE

/-! ### The capacity (R117) -/

theorem State.Inv.err_none_of_busy {s : State} (h : s.Inv) (hp : s.phase ≠ .idle) : s.err = .none := by
  obtain ⟨hbusy, hclear, -⟩ := h.status
  exact (hclear (hbusy hp)).2

/-- A capture that still takes a byte holds at most 32: the declared length is at most 33 and not yet reached (R118 to
R120). -/
theorem State.Inv.count_le_of_byte {s : State} (h : s.Inv) (hp : s.phase = .rxByte) : s.i.toNat ≤ 32 := by
  have hcap : s.phase.capturing = true := by rw [hp]; rfl
  have hli := (h.stored hcap).li_bounds
  obtain ⟨-, -, -, -, -, -, -, hdecl, hlt⟩ := h.capture hcap
  by_cases hfield : s.li.toNat < s.i.toNat
  · have hmax := (hdecl hfield).2
    have hnext := hlt hp hfield
    omega
  · omega

theorem afterAppend_err_ne_overflow {s t : State} (herr : s.err = .none) (h : afterAppend s = .next t) :
    t.err ≠ .overflow := by
  obtain ⟨-, rfl⟩ | ⟨-, -, rfl⟩ | ⟨-, -, e, -, ⟨-, rfl⟩ | ⟨-, rfl⟩⟩ := afterAppend_cases h
  · simp [herr]
  · simp
  · simp [herr]
  · simp [herr]

theorem rxByteStep_err_ne_overflow {s t : State} (hs : s.Inv) (hp : s.phase = .rxByte) (h : rxByteStep s = .next t) :
    t.err ≠ .overflow := by
  have herr := hs.err_none_of_busy (by simp [hp])
  obtain ⟨-, rfl⟩ | ⟨-, -, rfl⟩ | ⟨_, _, -, -, hfull, -⟩ | ⟨_, _, -, -, -, happ⟩ := rxByteStep_cases h
  · simp [herr]
  · simp [herr]
  · have hcount := hs.count_le_of_byte hp
    have hcap := Params.bufCap_ge hs.params
    omega
  · exact afterAppend_err_ne_overflow (by exact herr) happ

theorem rxCheckStep_err_ne_overflow {s t : State} (h : rxCheckStep s = .next t) : t.err ≠ .overflow := by
  obtain ⟨-, rfl⟩ | ⟨-, -, _, _, -, ⟨-, rfl⟩ | ⟨-, rfl⟩⟩ := rxCheckStep_cases h
  · simp
  · simp
  · simp

theorem EngineRuns.err_ne_overflow_of_capturing {s t : State} {r : Result} (hruns : EngineRuns s r) (hs : s.Inv)
    (hcap : s.phase.capturing = true) (h : r = .next t) : t.err ≠ .overflow := by
  have herr : s.err = .none := hs.err_none_of_busy (by rintro hp; simp [hp, Phase.capturing] at hcap)
  cases hruns with
  | hold => cases h; simp [herr]
  | settle => cases h; simp [herr]
  | byte hp => exact rxByteStep_err_ne_overflow hs hp h
  | check => exact rxCheckStep_err_ne_overflow h
  | badOp _ hp | nop hp | configure hp | cksum _ _ _ _ hp => simp [hp, Phase.capturing] at hcap
  | hunt hp => simp [hp, Phase.capturing] at hcap
  | prep hp | acq hp | wait hp | chk hp | offer hp => simp [hp, Phase.capturing] at hcap

/-- Settles O29 (41_parser.md R117): the buffer holds at least 33 bytes. -/
theorem receiveNeverOverflows : Obligations.ReceiveNeverOverflows := by
  intro s t hs hnext hcap hstep
  rw [step_of_engineNext hnext] at hstep
  exact (engineStep_runs s.turned).err_ne_overflow_of_capturing hs.turned hcap hstep

end Sys2Proof.Machine
end

section
/-! The end of a capture (41_parser.md R121, R123): the length tests, and the recomputed checksum of each variant. -/

namespace Sys2Proof.Machine

theorem rxCheckStep_of_mismatch {s : State} (h : s.i.toNat ≤ s.li.toNat ∨ s.i.toNat ≠ s.declLen) :
    rxCheckStep s = .next (s.raiseErr .lenMismatch) := by
  unfold rxCheckStep
  by_cases hfield : s.i.toNat ≤ s.li.toNat
  · exact if_pos hfield
  · rw [if_neg hfield]
    exact if_pos (h.resolve_left hfield)

/-- Settles O26 (41_parser.md R121, R124). -/
theorem wrongLengthIsMismatch : Obligations.WrongLengthIsMismatch := by
  intro s hp hcmd h
  rw [exec_receive_of_check hp, rxCheckStep_of_mismatch h, State.raiseErr_of_receive hcmd]

/-- On a length match the recomputed checksum goes into `CKSUM`, and whether it verifies decides (R123, R124). -/
theorem rxCheckStep_of_match {s : State} {c : Half} {p : Prop} [Decidable p] (hcmd : s.cmd = encode .receive)
    (hfield : s.li.toNat < s.i.toNat) (hlen : s.i.toNat = s.declLen)
    (h : frameChecksum s = .ok (c, decide p)) :
    rxCheckStep s = .next { s with
      cksum := c, rxlen := s.i, ok := decide p, err := if p then .none else .checksum, done := true, phase := .idle } := by
  unfold rxCheckStep checksumCheck
  rw [if_neg (not_le.mpr hfield), if_neg (not_not.mpr hlen), h]
  dsimp only
  by_cases hp : p
  · rw [if_pos (decide_eq_true hp), State.finishOk_of_receive (by exact hcmd), if_pos hp, decide_eq_true hp]
    rfl
  · rw [if_neg (by simpa using hp), State.raiseErr_of_receive (by exact hcmd), if_neg hp, decide_eq_false hp]
    rfl

/-! ### The recomputed checksum (R123) -/

theorem State.holds_append_left {s : State} {b : Buffer} {F G : List Byte} (h : s.holds b (F ++ G)) : s.holds b F := by
  intro j hj
  rw [h j (by rw [List.length_append]; omega), List.getElem?_append_left hj]

theorem State.readByte_of_holds {s : State} {b : Buffer} {F : List Byte} {a : Nat} {v : Byte} (h : s.holds b F)
    (hv : F[a]? = some v) : s.readByte b a = .ok v := by
  obtain ⟨ha, -⟩ := List.getElem?_eq_some_iff.mp hv
  exact State.readByte_eq_ok.mpr ((h a ha).trans hv)

theorem frameChecksum_bsb {s : State} {F : List Byte} (hv : s.variant = .bsb) (hlen : F.length = s.declLen)
    (hF : s.holds .rx F) : frameChecksum s = .ok (crcBsb F, decide (crcBsb F = 0)) := by
  unfold frameChecksum
  rw [hv]
  dsimp only
  rw [State.readBytes_eq_ok.mpr ⟨hlen, hF⟩]

/-- LPB sums all but the two trailer bytes (42_checksum.md R142, R143). -/
theorem frameChecksum_lpb {s : State} {G : List Byte} {hi lo : Byte} (hv : s.variant = .lpb)
    (hlen : G.length + 2 = s.declLen) (hF : s.holds .rx (G ++ [hi, lo])) :
    frameChecksum s = .ok (crcLpb G (s.declLen - 1),
      decide ((crcLpb G (s.declLen - 1)).toNat = hi.toNat * 256 + lo.toNat)) := by
  have hl : s.declLen - 1 = G.length + 1 := by omega
  have hsum : s.readBytes .rx (lpbReadCount (s.declLen - 1)) = .ok G :=
    State.readBytes_eq_ok.mpr ⟨by rw [hl]; rfl, State.holds_append_left hF⟩
  have hhi : s.readByte .rx (s.declLen - 1 - 1) = .ok hi := State.readByte_of_holds hF (by rw [hl]; simp)
  have hlo : s.readByte .rx (s.declLen - 1) = .ok lo := State.readByte_of_holds hF (by rw [hl]; simp)
  unfold frameChecksum
  rw [hv]
  dsimp only
  rw [hsum, hhi, hlo]
  simp only [← BitVec.toNat_inj, trailerValue_toNat]

/-- PPS sums all but its last byte (42_checksum.md R144, R145). -/
theorem frameChecksum_pps {s : State} {G : List Byte} {last : Byte} (hv : s.variant = .pps)
    (hlen : G.length = s.li.toNat) (hF : s.holds .rx (G ++ [last])) :
    frameChecksum s = .ok ((crcPps G).setWidth 16, decide (crcPps G = last)) := by
  have hsum : s.readBytes .rx s.li.toNat = .ok G := State.readBytes_eq_ok.mpr ⟨hlen, State.holds_append_left hF⟩
  have hlast : s.readByte .rx s.li.toNat = .ok last := State.readByte_of_holds hF (by rw [← hlen]; simp)
  unfold frameChecksum
  rw [hv]
  dsimp only
  rw [hsum, hlast]

/-- Settles O27 (41_parser.md R123, R124). -/
theorem checksumCheckDecides : Obligations.ChecksumCheckDecides := by
  intro s F hp hcmd hfield hcount hlen hF
  rw [exec_receive_of_check hp]
  refine ⟨fun hv => ?_, fun hv G hi lo hsplit => ?_, fun hv hdecl G last hsplit => ?_⟩
  · exact rxCheckStep_of_match hcmd hfield hcount (frameChecksum_bsb hv hlen hF)
  · subst hsplit
    exact rxCheckStep_of_match hcmd hfield hcount (frameChecksum_lpb hv (by simpa using hlen) hF)
  · subst hsplit
    have hsummed : G.length = s.li.toNat := by
      rw [hdecl, List.length_append, List.length_singleton] at hlen
      exact Nat.succ.inj hlen
    exact rxCheckStep_of_match hcmd hfield hcount (frameChecksum_pps hv hsummed hF)

end Sys2Proof.Machine
end

section
/-! The whole run of RECEIVE over a valid BSB frame (41_parser.md R110 to R125, 95_test_vectors.md S4): the hunt and the pause,
one step for each byte behind the start of frame, and the check. The loop invariant `State.Captured` says what has been
captured; each part of the run is one of the step statements above. -/

namespace Sys2Proof.Machine

/-! ### Runs of the machine -/

theorem core_run_succ {s t : State} (h : step s = .next t) (n : Nat) : core.run (n + 1) s = core.run n t := by
  have hcore : core.step s = .next t := h
  simp only [Host.Core.run, hcore]

/-- With an empty agenda the Engine runs RECEIVE in each of its phases behind the hunt (20_memory.md R64). -/
theorem step_receive {s : State} (hagenda : s.agenda = []) (hcmd : s.cmd = encode .receive) (hidle : s.phase ≠ .idle)
    (hhunt : s.phase ≠ .rxHunt) : step s = exec .receive s := by
  have hfetch : s.fetch = some (.ok .receive) := by
    rw [State.fetch_of_not_hunt hidle hhunt, hcmd, decodeCommand_encode rfl]
  exact (stepRunsFetchedInstruction s .receive (.inl hagenda) hfetch rfl).2 hagenda

/-- In the hunt of a configured block it runs the start of frame at the head of the queue (R111). -/
theorem step_sof {s : State} {i : Instr} {rest : List Byte} (hagenda : s.agenda = []) (hp : s.phase = .rxHunt)
    (hconf : s.receiveConfigured = true) (hi : i.space = .wire s.variant) (hq : s.rxq = encode i :: rest) :
    step s = exec i s := by
  have hfetch := State.fetch_of_sof hp hconf hq (decodeWire_encode hi)
  exact (stepRunsFetchedInstruction s i (.inl hagenda) hfetch rfl).2 hagenda

/-- A byte at index 3 is the length a BSB capture declares (R119). -/
theorem State.declares_of_bsb {s : State} {v : Byte} (hv : s.variant = .bsb) (hread : s.rxbuf.read 3 = some v) :
    s.declares v.toNat := by
  unfold State.declares
  rw [hv]
  exact ⟨v, hread, rfl⟩

/-! ### The frame -/

/-- A BSB frame that RECEIVE accepts: its start, its length field, the sanity bound and its trailer (30_encoding.md R78, R79,
41_parser.md R118, 42_checksum.md R141). -/
structure BsbFrame (F : List Byte) : Prop where
  start : F[0]? = some 0xDC ∨ F[0]? = some 0xDE
  field : F[3]? = some (BitVec.ofNat 8 F.length)
  length_le : F.length ≤ 32
  checksum : crcBsb F = 0

theorem BsbFrame.length_gt {F : List Byte} (h : BsbFrame F) : 3 < F.length :=
  (List.getElem?_eq_some_iff.mp h.field).1

theorem BsbFrame.field_toNat {F : List Byte} (h : BsbFrame F) : (BitVec.ofNat 8 F.length).toNat = F.length := by
  have hle := h.length_le
  rw [BitVec.toNat_ofNat]
  omega

theorem xor_ff_xor_ff (b : Byte) : b ^^^ 0xFF ^^^ 0xFF = b := by
  rw [BitVec.xor_assoc, BitVec.xor_self, BitVec.xor_zero]

/-- The frame begins with the logical byte of one of BSB's start-of-frame instructions (30_encoding.md R78). -/
theorem BsbFrame.exists_sof {F : List Byte} (h : BsbFrame F) :
    ∃ i tail, i.space = .wire .bsb ∧ F = (encode i ^^^ 0xFF) :: tail := by
  cases F with
  | nil => simpa using h.start
  | cons b tail =>
    obtain hb | hb := h.start
    · exact ⟨.sofBsbDc, tail, rfl, congrArg (· :: tail) (Option.some.inj hb)⟩
    · exact ⟨.sofBsbDe, tail, rfl, congrArg (· :: tail) (Option.some.inj hb)⟩

/-! ### What has been captured -/

/-- Begun in `s`, the capture has led to `t`: the first `k` bytes of `F` are stored, the others and `rest` are still in the
queue, and everything else of the buffers is as in `s`. -/
structure State.Captured (s : State) (F rest : List Byte) (k : Nat) (t : State) : Prop where
  params : t.params = s.params
  agenda : t.agenda = []
  cmd : t.cmd = encode .receive
  variant : t.variant = .bsb
  timeout : t.timeout = false
  li : t.li = 3
  count : t.i.toNat = k
  phase : t.phase = if F.length ≤ k then .rxCheck else .rxByte
  declared : 3 < k → t.declLen = F.length
  queue : t.rxq = (F.drop k).map (· ^^^ 0xFF) ++ rest
  stored : ∀ j, j < k → t.rxbuf.read j = F[j]?
  beyond : ∀ j, k ≤ j → t.rxbuf.read j = s.rxbuf.read j
  txbuf : t.txbuf = s.txbuf

/-- The hunt and the pause: two steps, and the start of frame is stored (R111, R112, R115). -/
theorem exists_captured_one {s : State} {F rest : List Byte} (hF : BsbFrame F) (hagenda : s.agenda = [])
    (hp : s.phase = .rxHunt) (hcmd : s.cmd = encode .receive) (hv : s.variant = .bsb) (hvalid : s.validV = true)
    (hli : s.lenIdx = 3) (ht : s.timeout = false) (hq : s.rxq = F.map (· ^^^ 0xFF) ++ rest) :
    ∃ t, s.Captured F rest 1 t ∧ ∀ n, core.run (n + 2) s = core.run n t := by
  obtain ⟨i, tail, hi, rfl⟩ := hF.exists_sof
  have hnot : s.variant ≠ .pps := by simp [hv]
  have hwire : i.space = .wire s.variant := hv ▸ hi
  have hlen := hF.length_gt
  have hhead : s.rxq = encode i :: (tail.map (· ^^^ 0xFF) ++ rest) := by
    rw [hq, List.map_cons, xor_ff_xor_ff, List.cons_append]
  have hconf := State.receiveConfigured_eq_true hvalid (fun h => absurd h hnot)
  obtain ⟨hsof, -⟩ := startOfFrameStartsCapture s i _ hwire hp hvalid (fun h => absurd h hnot) hhead
    (by rintro rfl; cases hi) (fun h => absurd h hnot)
  have hhunt := (step_sof hagenda hp hconf hwire hhead).trans hsof
  have hsettle := step_receive (s := { s with
      rxq := tail.map (· ^^^ 0xFF) ++ rest, rxPop := false,
      rxbuf := s.rxbuf.write 0 (logicalByte s.variant (encode i)), i := 1, li := s.lenIdx, phase := .rxSettle })
    hagenda hcmd nofun nofun
  rw [(settleTimeoutAndHold _).1 rfl] at hsettle
  refine ⟨_, ?_, fun n => (core_run_succ hhunt (n + 1)).trans (core_run_succ hsettle n)⟩
  have hlogical : logicalByte s.variant (encode i) = encode i ^^^ 0xFF := if_neg hnot
  refine ⟨rfl, hagenda, hcmd, hv, ht, hli, rfl, (if_neg (by omega)).symm, by omega, rfl,
    fun j hj => ?_, fun j hj => ?_, rfl⟩
  · obtain rfl : j = 0 := by omega
    rw [hlogical]
    exact Memory.read_write_same _ _ _
  · exact Memory.read_write_other _ _ (by omega)

/-- What the buffer reads after the next byte is stored in it (R117). -/
theorem State.Captured.read_appended {s t : State} {F rest : List Byte} {k : Nat} {r : Byte}
    (h : s.Captured F rest k t) (hr : F[k]? = some (r ^^^ 0xFF)) (queue : List Byte) (j : Nat) :
    (t.appended r queue).rxbuf.read j = if j = k then F[k]? else t.rxbuf.read j := by
  have hlogical : logicalByte t.variant r = r ^^^ 0xFF := if_neg (by simp [h.variant])
  rw [hr, ← hlogical, ← h.count]
  exact Memory.read_write _ _ _ _

theorem State.Captured.stored_appended {s t : State} {F rest : List Byte} {k : Nat} {r : Byte}
    (h : s.Captured F rest k t) (hr : F[k]? = some (r ^^^ 0xFF)) (queue : List Byte) {j : Nat} (hj : j < k + 1) :
    (t.appended r queue).rxbuf.read j = F[j]? := by
  rw [h.read_appended hr]
  split_ifs with hjk
  · rw [hjk]
  · exact h.stored j (by omega)

/-- The next byte is stored behind the others; the declared length and the phase are `after_append()`'s (R117 to R120). -/
theorem State.Captured.appended {s t : State} {F rest queue : List Byte} {k e : Nat} {r : Byte} {p : Phase}
    (h : s.Captured F rest k t) (hk : k < 32) (hr : F[k]? = some (r ^^^ 0xFF))
    (hqueue : queue = (F.drop (k + 1)).map (· ^^^ 0xFF) ++ rest) (he : 3 < k + 1 → e = F.length)
    (hp : p = if F.length ≤ k + 1 then .rxCheck else .rxByte) :
    s.Captured F rest (k + 1) { t.appended r queue with declLen := e, phase := p } := by
  have hcount := h.count
  have hi : (t.i + 1).toNat = k + 1 := by rw [toNat_succ (by omega), hcount]
  refine ⟨h.params, h.agenda, h.cmd, h.variant, h.timeout, h.li, hi, hp, he, hqueue,
    fun j hj => h.stored_appended hr queue hj, fun j hj => (h.read_appended hr queue j).trans ?_, h.txbuf⟩
  rw [if_neg (by omega)]
  exact h.beyond j (by omega)

/-- One byte behind the start of frame is one step (R116 to R120). -/
theorem State.Captured.next_byte {s t : State} {F rest : List Byte} {k : Nat} (h : s.Captured F rest k t) (hF : BsbFrame F)
    (hparams : s.params.wellFormed = true) (hk : k < F.length) :
    ∃ u, step t = .next u ∧ s.Captured F rest (k + 1) u := by
  have hle := hF.length_le
  have hgt := hF.length_gt
  have hcount := h.count
  have hcap := Params.bufCap_ge hparams
  have hli : t.li.toNat = 3 := by rw [h.li]; rfl
  have hp : t.phase = .rxByte := by rw [h.phase, if_neg (by omega)]
  have hr : F[k]? = some (F[k] ^^^ 0xFF ^^^ 0xFF) := by rw [xor_ff_xor_ff, List.getElem?_eq_getElem hk]
  have hq : t.rxq = (F[k] ^^^ 0xFF) :: ((F.drop (k + 1)).map (· ^^^ 0xFF) ++ rest) := by
    rw [h.queue, List.drop_eq_getElem_cons hk]
    rfl
  obtain ⟨-, happend⟩ := byteStepAppends t _ _ (h.params ▸ hparams) hp h.cmd h.timeout hq
  obtain ⟨hbefore, -, hfield⟩ := happend (by rw [h.params]; omega) _ rfl
  rw [step_receive h.agenda h.cmd (by simp [hp]) (by simp [hp])]
  by_cases hk3 : k < 3
  · refine ⟨_, hbefore (by omega), ?_⟩
    exact h.appended (e := t.declLen) (p := t.phase) (by omega) hr rfl (by omega) (by rw [hp, if_neg (by omega)])
  · have hread := (h.stored_appended hr ((F.drop (k + 1)).map (· ^^^ 0xFF) ++ rest) (j := 3) (by omega)).trans hF.field
    have hdeclares := State.declares_of_bsb (s := t.appended _ _) h.variant hread
    rw [hF.field_toNat] at hdeclares
    have hsane : ∃ f, (t.appended _ _).rxbuf.read t.li.toNat = some f ∧ f.toNat ≤ 32 :=
      ⟨_, hli.symm ▸ hread, by rw [hF.field_toNat]; exact hle⟩
    refine ⟨_, hfield (by omega) (fun _ => hsane) F.length hdeclares, ?_⟩
    exact h.appended (by omega) hr rfl (fun _ => rfl) (by rw [hcount])

/-- The bytes that are left, one step each. -/
theorem State.Captured.remaining_bytes {s : State} {F rest : List Byte} (hF : BsbFrame F) (hparams : s.params.wellFormed = true)
    (n : Nat) : ∀ {k : Nat} {t : State}, s.Captured F rest k t → k + n = F.length →
      ∃ u, s.Captured F rest F.length u ∧ ∀ m, core.run (m + n) t = core.run m u := by
  induction n with
  | zero =>
    intro k t h hk
    exact ⟨t, hk ▸ h, fun m => rfl⟩
  | succ n ih =>
    intro k t h hk
    obtain ⟨t', hstep, h'⟩ := h.next_byte hF hparams (by omega)
    obtain ⟨u, hu, hrun⟩ := ih h' (by omega)
    exact ⟨u, hu, fun m => (core_run_succ hstep (m + n)).trans (hrun m)⟩

/-! ### The check -/

theorem State.status_of_success {s : State} (hp : s.phase = .idle) (hdone : s.done = true) (hok : s.ok = true)
    (herr : s.err = .none) : s.status = 0x06 := by
  unfold State.status State.busy
  rw [hp, hdone, hok, herr]
  rfl

/-- The last step: the length matches and the checksum verifies (R121, R123). -/
theorem State.Captured.check {s t : State} {F rest : List Byte} (h : s.Captured F rest F.length t) (hF : BsbFrame F) :
    step t = .next { t with
      cksum := 0, rxlen := t.i, ok := true, err := .none, done := true, phase := .idle } := by
  have hgt := hF.length_gt
  have hp : t.phase = .rxCheck := by rw [h.phase, if_pos le_rfl]
  have hdecl := h.declared hgt
  have hfield : t.li.toNat < t.i.toNat := by rw [h.li, h.count]; exact hgt
  obtain ⟨hbsb, -⟩ := checksumCheckDecides t F hp h.cmd hfield (h.count.trans hdecl.symm) hdecl.symm h.stored
  rw [step_receive h.agenda h.cmd (by simp [hp]) (by simp [hp]), hbsb h.variant, if_pos hF.checksum,
    decide_eq_true hF.checksum, hF.checksum]

/-- Settles O28 (41_parser.md R110 to R125, 95_test_vectors.md S4). -/
theorem receiveReproducesBsbFrame : Obligations.ReceiveReproducesBsbFrame := by
  intro s F rest hparams hagenda hp hcmd hv hvalid hli ht hstart hfield hle hcrc hq
  have hF : BsbFrame F := ⟨hstart, hfield, hle, hcrc⟩
  obtain ⟨t, hone, hbegin⟩ := exists_captured_one hF hagenda hp hcmd hv hvalid hli ht hq
  obtain ⟨n, hn⟩ : ∃ n, F.length = n + 1 := Nat.exists_eq_succ_of_ne_zero (Nat.ne_zero_of_lt hF.length_gt)
  obtain ⟨u, hall, hrun⟩ := hone.remaining_bytes hF hparams n (by omega)
  refine ⟨{ u with cksum := 0, rxlen := u.i, ok := true, err := .none, done := true, phase := .idle }, ?_,
    State.status_of_success rfl rfl rfl rfl, hall.count, rfl, hall.stored, hall.beyond, ?_, hall.txbuf⟩
  · calc core.run (F.length + 2) s
        = core.run (1 + n) t := by rw [hbegin, hn, Nat.add_comm]
      _ = core.run 1 u := hrun 1
      _ = .next _ := core_run_succ (hall.check hF) 0
  · show u.rxq = rest
    rw [hall.queue, List.drop_length]
    rfl

end Sys2Proof.Machine
end

section
/-! The algebra of the three engines (42_checksum.md R140, R142, R144, R151): the CRC register is linear in register and
byte together and loses neither, and the LPB and PPS values are each the byte sum up to a known constant or sign. -/

namespace Sys2Proof.Machine

/-! ### The CRC register over a whole frame -/

theorem crcBsb_concat (F : List Byte) (b : Byte) : crcBsb (F ++ [b]) = crcByte (crcBsb F) b := crcBsb_append F [b]

/-- Settles O16 (42_checksum.md R140): `crcShift8` is the eight shifts written out. -/
theorem crcBsbByteByByte : Obligations.CrcBsbByteByByte := by
  refine ⟨crcBsb_nil, fun F b => ?_, by decide +kernel⟩
  rw [crcBsb_concat]
  rfl

/-- Linear in the two registers and the two frames at once, one byte at a time. -/
theorem foldl_crcByte_xor {F G : List Byte} (h : F.length = G.length) (a b : Half) :
    (List.zipWith (· ^^^ ·) F G).foldl crcByte (a ^^^ b) = F.foldl crcByte a ^^^ G.foldl crcByte b := by
  induction F generalizing G a b with
  | nil =>
    cases G with
    | nil => rfl
    | cons y ys => cases h
  | cons x xs ih =>
    cases G with
    | nil => cases h
    | cons y ys =>
      rw [List.zipWith_cons_cons, List.foldl_cons, crcByte_xor]
      exact ih (Nat.succ.inj h) _ _

/-- Settles O17 (42_checksum.md R140): the initial register 0 is `0 ^^^ 0`. -/
theorem crcBsbIsLinear : Obligations.CrcBsbIsLinear := fun _ _ h => foldl_crcByte_xor h 0 0

/-- Bytes that follow do not hide a difference of the register. -/
theorem foldl_crcByte_injective {F : List Byte} {a b : Half} (h : F.foldl crcByte a = F.foldl crcByte b) : a = b := by
  induction F generalizing a b with
  | nil => exact h
  | cons x xs ih => exact crcByte_inj_left (ih h)

/-- A changed byte changes the register there, and the bytes after it keep the difference (R151 (a)). -/
theorem foldl_crcByte_set_ne {F : List Byte} {j : Nat} {v : Byte} (hj : j < F.length) (hv : F[j]? ≠ some v)
    (c : Half) : (F.set j v).foldl crcByte c ≠ F.foldl crcByte c := by
  induction F generalizing j c with
  | nil => cases hj
  | cons x xs ih =>
    cases j with
    | zero =>
      intro h
      have hsame : v = x := crcByte_inj_right (foldl_crcByte_injective h)
      exact hv (by rw [hsame]; rfl)
    | succ j => exact ih (Nat.lt_of_succ_lt_succ hj) hv _

/-! ### The byte sums -/

/-- `CRC_LPB` is the byte sum, off by what the length contributes (R142). -/
theorem crcLpb_eq_add (F : List Byte) (L : Nat) :
    crcLpb F L = BitVec.ofInt 16 ((257 - (L : Int)) * 256 + ((L : Int) - 2)) + BitVec.ofNat 16 (byteSum F) := by
  rw [← BitVec.ofInt_natCast, ← BitVec.ofInt_add]
  rfl

/-- `CRC_PPS` is the byte sum, negated (R144). -/
theorem crcPps_eq_neg (F : List Byte) : crcPps F = -BitVec.ofNat 8 (byteSum F) := by
  apply BitVec.eq_of_toNat_eq
  rw [crcPps, BitVec.toNat_ofInt, BitVec.toNat_neg, BitVec.toNat_ofNat]
  omega

theorem crcPps_setWidth (F : List Byte) :
    (crcPps F).setWidth 16 = BitVec.ofNat 16 ((256 - byteSum F % 256) % 256) := by
  apply BitVec.eq_of_toNat_eq
  rw [crcPps_eq_neg, BitVec.toNat_setWidth, BitVec.toNat_neg, BitVec.toNat_ofNat, BitVec.toNat_ofNat]

/-- The sum moves by the difference of two bytes, which no width of 8 or more wraps to 0 (R151 (b), (c)). -/
theorem ofNat_byteSum_set_ne {F : List Byte} {j w : Nat} {v : Byte} (hw : 8 ≤ w) (hj : j < F.length)
    (hv : F[j]? ≠ some v) : BitVec.ofNat w (byteSum (F.set j v)) ≠ BitVec.ofNat w (byteSum F) := by
  intro h
  have hbyte : F[j]? = some F[j] := List.getElem?_eq_getElem hj
  have hmoved := congrArg (BitVec.ofNat w) (byteSum_set F j v F[j] hbyte)
  rw [BitVec.ofNat_add, BitVec.ofNat_add, h] at hmoved
  have hsame := congrArg BitVec.toNat (BitVec.add_right_inj _ |>.mp hmoved)
  have hpow : 2 ^ 8 ≤ 2 ^ w := Nat.pow_le_pow_right (by decide) hw
  have hfits : ∀ b : Byte, b.toNat < 2 ^ w := fun b => b.isLt.trans_le hpow
  rw [BitVec.toNat_ofNat, BitVec.toNat_ofNat, Nat.mod_eq_of_lt (hfits _), Nat.mod_eq_of_lt (hfits _)] at hsame
  exact hv (by rw [hbyte, BitVec.eq_of_toNat_eq hsame])

/-- Settles O19 (42_checksum.md R151). -/
theorem checksumsDetectOneByteChange : Obligations.ChecksumsDetectOneByteChange := by
  intro F j v hj hv
  refine ⟨foldl_crcByte_set_ne hj hv 0, fun L h => ?_, fun h => ?_⟩
  · rw [crcLpb_eq_add, crcLpb_eq_add, BitVec.add_right_inj] at h
    exact ofNat_byteSum_set_ne (by decide) hj hv h
  · rw [crcPps_eq_neg, crcPps_eq_neg, BitVec.neg_inj] at h
    exact ofNat_byteSum_set_ne (by decide) hj hv h

end Sys2Proof.Machine
end

section
/-! The CKSUM operations (42_checksum.md R146 to R149): the three outcomes of the operation they share, said once for any
count of bytes and any engine, and the engine of each operation. -/

namespace Sys2Proof.Machine

/-! ### The shared operation -/

section
variable {b : Buffer} {count : Nat → Nat} {engine : List Byte → Nat → Half} {s : State}

theorem cksumStep_of_overflow (hcmd : s.cmd ≠ encode .receive) (hcap : s.params.bufCap < s.n.toNat) :
    cksumStep b count engine s = .next { s with ok := false, err := .overflow, done := true, phase := .idle } := by
  rw [cksumStep, if_pos hcap, State.raiseErr_of_ne hcmd]

theorem cksumStep_of_holds {F : List Byte} (hcmd : s.cmd ≠ encode .receive) (hcap : s.n.toNat ≤ s.params.bufCap)
    (hlen : F.length = count s.n.toNat) (hF : s.holds b F) :
    cksumStep b count engine s = .next { s with
      cksum := engine F s.n.toNat, ok := true, err := .none, done := true, phase := .idle } := by
  rw [cksumStep, if_neg (not_lt.mpr hcap), State.readBytes_eq_ok.mpr ⟨hlen, hF⟩]
  dsimp only
  rw [State.finishOk_of_ne (by exact hcmd)]
  rfl

theorem cksumStep_of_unwritten {j : Nat} (hcap : s.n.toNat ≤ s.params.bufCap) (hj : j < count s.n.toNat)
    (hnone : (s.buf b).read j = none) (hlowest : ∀ l, l < j → (s.buf b).read l ≠ none) :
    cksumStep b count engine s = .fault (.unwrittenByte b j) := by
  have hfault : s.readBytes b (count s.n.toNat) = .error (.unwrittenByte b j) :=
    State.readBytes_eq_error.mpr ⟨j, rfl, hj, hnone, fun l hl => Option.isSome_iff_ne_none.mpr (hlowest l hl)⟩
  rw [cksumStep, if_neg (not_lt.mpr hcap), hfault]

/-- The three outcomes together; one of them applies to every length operand and every buffer (R146 to R149). -/
theorem cksumStep_outcomes (hcmd : s.cmd ≠ encode .receive) :
    (s.params.bufCap < s.n.toNat →
      cksumStep b count engine s = .next { s with ok := false, err := .overflow, done := true, phase := .idle }) ∧
    (s.n.toNat ≤ s.params.bufCap → ∀ F : List Byte, F.length = count s.n.toNat → s.holds b F →
      cksumStep b count engine s = .next { s with
        cksum := engine F s.n.toNat, ok := true, err := .none, done := true, phase := .idle }) ∧
    (s.n.toNat ≤ s.params.bufCap → ∀ j, j < count s.n.toNat → (s.buf b).read j = none →
      (∀ l, l < j → (s.buf b).read l ≠ none) → cksumStep b count engine s = .fault (.unwrittenByte b j)) :=
  ⟨cksumStep_of_overflow hcmd, fun hcap _ hlen hF => cksumStep_of_holds hcmd hcap hlen hF,
    fun hcap _ hj hnone hlowest => cksumStep_of_unwritten hcap hj hnone hlowest⟩

end

/-! ### Each operation (R146 to R148) -/

theorem encode_ne_encode_receive {i : Instr} (h : i ≠ .receive) : encode i ≠ encode .receive := by
  cases i
  case receive => exact absurd rfl h
  all_goals decide

section
variable {s : State} {b : Buffer} {i : Instr}

theorem exec_cksumBsb (hp : s.phase = .exec) (hi : b = .tx ∧ i = .cksumBsbTx ∨ b = .rx ∧ i = .cksumBsbRx) :
    exec i s = cksumStep b (fun n => n) (fun bs _ => crcBsb bs) s := by
  obtain ⟨rfl, rfl⟩ | ⟨rfl, rfl⟩ := hi
  · exact inExec_of_exec hp
  · exact inExec_of_exec hp

theorem exec_cksumLpb (hp : s.phase = .exec) (hi : b = .tx ∧ i = .cksumLpbTx ∨ b = .rx ∧ i = .cksumLpbRx) :
    exec i s = cksumStep b lpbReadCount crcLpb s := by
  obtain ⟨rfl, rfl⟩ | ⟨rfl, rfl⟩ := hi
  · exact inExec_of_exec hp
  · exact inExec_of_exec hp

theorem exec_cksumPps (hp : s.phase = .exec) (hi : b = .tx ∧ i = .cksumPpsTx ∨ b = .rx ∧ i = .cksumPpsRx) :
    exec i s = cksumStep b (fun n => n) (fun bs _ => BitVec.ofNat 16 ((256 - byteSum bs % 256) % 256)) s := by
  simp only [← crcPps_setWidth]
  obtain ⟨rfl, rfl⟩ | ⟨rfl, rfl⟩ := hi
  · exact inExec_of_exec hp
  · exact inExec_of_exec hp

end

/-- Settles O13 (42_checksum.md R146, R140). -/
theorem cksumBsbOperation : Obligations.CksumBsbOperation := by
  intro s b i hp hi hcmd
  have hne : s.cmd ≠ encode .receive := hcmd ▸ encode_ne_encode_receive (by rintro rfl; simp at hi)
  rw [exec_cksumBsb hp hi]
  exact cksumStep_outcomes hne

/-- Settles O14 (42_checksum.md R147, R142): the weighted sum is `CRC_LPB` written out. -/
theorem cksumLpbOperation : Obligations.CksumLpbOperation := by
  intro s b i hp hi hcmd
  have hne : s.cmd ≠ encode .receive := hcmd ▸ encode_ne_encode_receive (by rintro rfl; simp at hi)
  rw [exec_cksumLpb hp hi]
  exact cksumStep_outcomes hne

/-- Settles O15 (42_checksum.md R148, R144): the negated sum is `CRC_PPS` written out. -/
theorem cksumPpsOperation : Obligations.CksumPpsOperation := by
  intro s b i hp hi hcmd
  have hne : s.cmd ≠ encode .receive := hcmd ▸ encode_ne_encode_receive (by rintro rfl; simp at hi)
  rw [exec_cksumPps hp hi]
  exact cksumStep_outcomes hne

end Sys2Proof.Machine
end

section
/-! SEND by its phase (43_transmitter.md R160): the phase rules, how an error finishes a SEND, and the three phases before the
frame goes out, which touch no buffer (R170 to R172). -/

namespace Sys2Proof.Machine

/-! ### SEND by its phase (R160) -/

theorem exec_send_of_prep {s : State} (h : s.phase = .txPrep) : exec .send s = txPrepStep s := by
  show execSend s = _
  rw [execSend, h]

theorem exec_send_of_acq {s : State} (h : s.phase = .txAcq) : exec .send s = txAcqStep s := by
  show execSend s = _
  rw [execSend, h]

theorem exec_send_of_wait {s : State} (h : s.phase = .txWait) : exec .send s = txWaitStep s := by
  show execSend s = _
  rw [execSend, h]

theorem exec_send_of_chk {s : State} (h : s.phase = .txChk) : exec .send s = txChkStep s := by
  show execSend s = _
  rw [execSend, h]

theorem exec_send_of_byte {s : State} (h : s.phase = .txByte) : exec .send s = txByteStep s := by
  show execSend s = _
  rw [execSend, h]

/-- A SEND that fails leaves `RXLEN` alone (60_exceptions.md R202). -/
theorem State.raiseErr_of_send {s : State} (h : s.cmd = encode .send) (e : ErrCode) :
    s.raiseErr e = { s with ok := false, err := e, done := true, phase := .idle } :=
  State.raiseErr_of_ne (by rw [h]; decide) e

/-! ### The check after the wait (R172) -/

theorem txChkStep_of_late {s : State} (h : s.deadlinePassed) : txChkStep s = .next (s.raiseErr .busTimeout) :=
  if_pos h

theorem txChkStep_of_intime {s : State} (h : s.elapsed s.t0 ≤ 1000) :
    txChkStep s = .next { s with k := 0, phase := .txByte } :=
  if_neg (not_lt.mpr h)

/-- Settles O36 (43_transmitter.md R172). -/
theorem checkDeadlineAfterWait : Obligations.CheckDeadlineAfterWait := by
  intro s hp hcmd
  rw [exec_send_of_chk hp]
  refine ⟨fun hlate => ?_, fun hin => txChkStep_of_intime hin⟩
  rw [txChkStep_of_late hlate, State.raiseErr_of_send hcmd]

/-! ### The quiet wait (R171) -/

theorem State.drawBusy_of_scripted {s : State} {busy : Bool} {rest : List Bool} (h : s.busyDraws = busy :: rest) :
    s.drawBusy = (busy, { s with busyDraws := rest }) := by
  rw [State.drawBusy, h]

theorem State.drawBusy_of_unscripted {s : State} (h : s.busyDraws = []) : s.drawBusy = (s.lineBusy, s) := by
  rw [State.drawBusy, h]

/-- A busy sample ends the wait before its duration is tested. -/
theorem txWaitStep_of_busy {s t : State} (h : s.drawBusy = (true, t)) : txWaitStep s = .next (t.goto .txAcq) := by
  rw [txWaitStep, h]

theorem txWaitStep_of_over {s t : State} (h : s.drawBusy = (false, t)) (hd : t.d.toNat ≤ t.elapsed t.wstart) :
    txWaitStep s = .next (t.goto .txChk) := by
  rw [txWaitStep, h]
  exact if_pos hd

theorem txWaitStep_of_pending {s t : State} (h : s.drawBusy = (false, t)) (hd : t.elapsed t.wstart < t.d.toNat) :
    txWaitStep s = .next (t.goto .txWait) := by
  rw [txWaitStep, h]
  exact if_neg (not_le.mpr hd)

/-- A sample changes the queue of draws alone, so the wait is in the same phase with the same duration. -/
theorem State.drawBusy_keeps {s t : State} {busy : Bool} (h : s.drawBusy = (busy, t)) :
    ∃ ds, t = { s with busyDraws := ds } := by
  obtain ⟨ds, hds⟩ := s.drawBusy_cases
  rw [h] at hds
  exact ⟨ds, hds⟩

/-- Settles O35 (43_transmitter.md R171): one sample, and only a quiet one is followed by the duration test. -/
theorem waitSamplesTheLine : Obligations.WaitSamplesTheLine := by
  intro s t busy hp hsample
  have hdraw : s.drawBusy = (busy, t) := by
    obtain ⟨rest, hq, rfl⟩ | ⟨hq, rfl, rfl⟩ := hsample
    · exact State.drawBusy_of_scripted hq
    · exact State.drawBusy_of_unscripted hq
  obtain ⟨ds, rfl⟩ := State.drawBusy_keeps hdraw
  rw [exec_send_of_wait hp]
  refine ⟨?_, ?_, ?_⟩
  · rintro rfl
    exact txWaitStep_of_busy hdraw
  · rintro rfl hover
    exact txWaitStep_of_over hdraw hover
  · rintro rfl hpending
    rw [txWaitStep_of_pending hdraw hpending, ← hp]
    rfl

/-! ### The acquisition (R170) -/

theorem txAcqStep_of_late {s : State} (h : s.deadlinePassed) : txAcqStep s = .next (s.raiseErr .busTimeout) :=
  if_pos h

/-- PPS waits for no quiet line (R170). -/
theorem txAcqStep_of_pps {s : State} (h : s.elapsed s.t0 ≤ 1000) (hv : s.variant = .pps) :
    txAcqStep s = .next (s.goto .txChk) := by
  have hin : ¬ s.deadlinePassed := not_lt.mpr h
  rw [txAcqStep, if_neg hin, if_pos hv]

theorem txAcqStep_of_draw {s t : State} {d : Byte} (h : s.elapsed s.t0 ≤ 1000) (hv : s.variant ≠ .pps)
    (hdraw : s.drawBackoff = .ok (d, t)) :
    txAcqStep s = .next { t with d := d, wstart := t.ms, phase := .txWait } := by
  have hin : ¬ s.deadlinePassed := not_lt.mpr h
  rw [txAcqStep, if_neg hin, if_neg hv, hdraw]

theorem txAcqStep_of_refused {s : State} {r : Refusal} (h : s.elapsed s.t0 ≤ 1000) (hv : s.variant ≠ .pps)
    (hdraw : s.drawBackoff = .error r) : txAcqStep s = .refused r := by
  have hin : ¬ s.deadlinePassed := not_lt.mpr h
  rw [txAcqStep, if_neg hin, if_neg hv, hdraw]

/-- A scripted backoff is taken if it lies in the range (10_state.md R43). -/
theorem State.drawBackoff_of_scripted {s : State} {d : Byte} {rest : List Byte} (h : s.backoffDraws = d :: rest)
    (hd : s.params.backoffMin.toNat ≤ d.toNat ∧ d.toNat ≤ s.params.backoffMax.toNat) :
    s.drawBackoff = .ok (d, { s with backoffDraws := rest }) := by
  rw [State.drawBackoff, h]
  exact if_pos hd

theorem State.drawBackoff_of_outside {s : State} {d : Byte} {rest : List Byte} (h : s.backoffDraws = d :: rest)
    (hd : ¬ (s.params.backoffMin.toNat ≤ d.toNat ∧ d.toNat ≤ s.params.backoffMax.toNat)) :
    s.drawBackoff = .error (.backoffRange d) := by
  rw [State.drawBackoff, h]
  exact if_neg hd

theorem Unscripted.eq_anyValue_or_simulator (u : Unscripted) : u = .anyValue ∨ u = .simulator := by
  cases u with
  | anyValue => exact .inl rfl
  | simulator => exact .inr rfl

/-- Without the defaults an unscripted backoff takes one free value (10_state.md R43). -/
theorem State.drawBackoff_anyValue {s : State} (hu : s.unscripted = .anyValue) (hd : s.backoffDraws = []) :
    ∃ d, s.drawBackoff = .ok (d, { s with drawCount := s.drawCount + 1 }) := by
  simp [State.drawBackoff, hu, hd]

/-- An unscripted backoff lies in the range, whichever way it is answered (10_state.md R43). -/
theorem State.drawBackoff_of_unscripted {s : State} (hparams : s.params.wellFormed = true) (h : s.backoffDraws = []) :
    ∃ d c, s.params.backoffMin.toNat ≤ d.toNat ∧ d.toNat ≤ s.params.backoffMax.toNat ∧
      s.drawBackoff = .ok (d, { s with drawCount := c }) := by
  have hanswer : ∃ d c, s.drawBackoff = .ok (d, { s with drawCount := c }) := by
    obtain hu | hu := s.unscripted.eq_anyValue_or_simulator
    · obtain ⟨d, hdraw⟩ := State.drawBackoff_anyValue hu h
      exact ⟨d, _, hdraw⟩
    · exact ⟨_, s.drawCount, State.drawBackoff_simulator hu h⟩
  obtain ⟨d, c, hdraw⟩ := hanswer
  obtain ⟨⟨hmin, hmax⟩, -⟩ := State.drawBackoff_cases hparams hdraw
  exact ⟨d, c, hmin, hmax, hdraw⟩

/-- Settles O34 (43_transmitter.md R170). -/
theorem acquireDrawsBackoff : Obligations.AcquireDrawsBackoff := by
  intro s hparams hp hcmd
  rw [exec_send_of_acq hp]
  refine ⟨fun hlate => ?_, fun hin hv => txAcqStep_of_pps hin hv, fun hin hv => ⟨fun hq => ?_, fun d rest hq => ⟨?_, ?_⟩⟩⟩
  · rw [txAcqStep_of_late hlate, State.raiseErr_of_send hcmd]
  · obtain ⟨d, c, hmin, hmax, hdraw⟩ := State.drawBackoff_of_unscripted hparams hq
    exact ⟨d, c, hmin, hmax, txAcqStep_of_draw hin hv hdraw⟩
  · intro hd
    exact txAcqStep_of_draw hin hv (State.drawBackoff_of_scripted hq hd)
  · intro hd
    exact txAcqStep_of_refused hin hv (State.drawBackoff_of_outside hq hd)

end Sys2Proof.Machine
end

section
/-! `TX_PREP` (43_transmitter.md R161 to R169): its tests in the rule's order, and the frame it leaves in `TXBUF` once they
pass. BSB and LPB share the shape of the frame, `State.BuildsFrame`: header and body, and the two bytes of their checksum
behind them. -/

namespace Sys2Proof.Machine

/-! ### The tests (R161 to R163) -/

/-- The addresses count under BSB and LPB alone (R161). -/
theorem State.sendConfigured_iff {s : State} :
    s.sendConfigured = true ↔ s.validV = true ∧ (s.variant ≠ .pps → s.validO = true ∧ s.validD = true) := by
  by_cases hpps : s.variant = .pps
  · simp [State.sendConfigured, hpps]
  · simp [State.sendConfigured, hpps]

theorem txPrepStep_of_unconfigured {s : State} (h : s.sendConfigured = false) :
    txPrepStep s = .next (s.raiseErr .notConfigured) :=
  if_pos h

/-- BSB's length field is the whole length, LPB's is one less (R162). -/
theorem State.frameLength_eq_map {s : State} (hv : s.variant ≠ .pps) :
    s.frameLength = (s.readByte .tx (lenIdxOf s.variant).toNat).map
      fun v => if s.variant = .bsb then v.toNat else v.toNat + 1 := by
  unfold State.frameLength
  cases hvar : s.variant with
  | bsb =>
    show _ = (s.readByte .tx Config.lenIdxBsb.toNat).map _
    cases s.readByte .tx Config.lenIdxBsb.toNat with
    | ok v => rfl
    | error f => rfl
  | lpb =>
    show _ = (s.readByte .tx Config.lenIdxLpb.toNat).map _
    cases s.readByte .tx Config.lenIdxLpb.toNat with
    | ok v => rfl
    | error f => rfl
  | pps => exact absurd hvar hv

theorem State.frameLength_of_read {s : State} {v : Byte} (hv : s.variant ≠ .pps)
    (hread : s.txbuf.read (lenIdxOf s.variant).toNat = some v) :
    s.frameLength = .ok (if s.variant = .bsb then v.toNat else v.toNat + 1) := by
  rw [State.frameLength_eq_map hv, State.readByte_eq_ok (b := .tx).mpr hread]
  rfl

theorem State.frameLength_of_unwritten {s : State} (hv : s.variant ≠ .pps)
    (hread : s.txbuf.read (lenIdxOf s.variant).toNat = none) :
    s.frameLength = .error (.unwrittenByte .tx (lenIdxOf s.variant).toNat) := by
  rw [State.frameLength_eq_map hv, State.readByte_eq_error (b := .tx).mpr ⟨hread, rfl⟩]
  rfl

/-- The bounds of BSB and LPB: the field's, then the smallest frame, then the buffer's (R163). -/
theorem checkLength_of_read {s : State} {v : Byte} {len : Nat} (hv : s.variant ≠ .pps)
    (hread : s.txbuf.read s.lenIdx.toNat = some v) :
    checkLength s len = .ok (if 32 < v.toNat ∨ len < 6 then some .lenInsane
      else if s.params.bufCap < len then some .overflow else none) := by
  have hbyte : s.readByte .tx s.lenIdx.toNat = .ok v := State.readByte_eq_ok.mpr hread
  unfold checkLength
  rw [if_neg hv, hbyte]
  exact congrArg Except.ok (ite_or ..).symm

theorem checkLength_of_inside {s : State} {v : Byte} {len : Nat} (hv : s.variant ≠ .pps)
    (hread : s.txbuf.read s.lenIdx.toNat = some v) (hsane : v.toNat ≤ 32) (hmin : 6 ≤ len) (hcap : len ≤ s.params.bufCap) :
    checkLength s len = .ok none := by
  rw [checkLength_of_read hv hread, if_neg (by omega), if_neg (by omega)]

/-- PPS has the buffer's bound alone (R163). -/
theorem checkLength_of_pps {s : State} {len : Nat} (hv : s.variant = .pps) :
    checkLength s len = .ok (if s.params.bufCap < len then some .overflow else none) :=
  if_pos hv

theorem txPrepStep_of_unwritten {s : State} {f : Fault} (hconf : s.sendConfigured = true)
    (hlength : s.frameLength = .error f) : txPrepStep s = .fault f := by
  rw [txPrepStep, if_neg (by simp [hconf]), hlength]

theorem txPrepStep_of_rejected {s : State} {len : Nat} {e : ErrCode} (hconf : s.sendConfigured = true)
    (hlength : s.frameLength = .ok len) (hcheck : checkLength (s.setSendLen len) len = .ok (some e)) :
    txPrepStep s = .next ((s.setSendLen len).raiseErr e) := by
  rw [txPrepStep, if_neg (by simp [hconf]), hlength]
  dsimp only
  rw [hcheck]

theorem txPrepStep_of_embedded {s u : State} {len : Nat} (hconf : s.sendConfigured = true)
    (hlength : s.frameLength = .ok len) (hcheck : checkLength (s.setSendLen len) len = .ok none)
    (hembed : embedChecksum (s.setSendLen len).fillHeader len = .ok u) : txPrepStep s = .next (u.goto .txAcq) := by
  rw [txPrepStep, if_neg (by simp [hconf]), hlength]
  dsimp only
  rw [hcheck]
  dsimp only
  rw [hembed]

/-- Settles O30 (43_transmitter.md R161, R163, 60_exceptions.md R204). -/
theorem prepareRejects : Obligations.PrepareRejects := by
  intro s hp hcmd
  rw [exec_send_of_prep hp]
  have hraise : ∀ (len : Nat) (e : ErrCode), (s.setSendLen len).raiseErr e =
      { s with sendLen := len, ok := false, err := e, done := true, phase := .idle } :=
    fun len e => State.raiseErr_of_send (s := s.setSendLen len) hcmd e
  refine ⟨fun hblocked => ?_, fun hvalid haddr hidx => ?_⟩
  · have hunconf : s.sendConfigured = false := by
      rw [← Bool.not_eq_true, State.sendConfigured_iff]
      rintro ⟨hvalid, haddr⟩
      obtain hv | ⟨hv, ho | hd⟩ := hblocked
      · simp [hv] at hvalid
      · simp [haddr hv] at ho
      · simp [haddr hv] at hd
    rw [txPrepStep_of_unconfigured hunconf, State.raiseErr_of_send hcmd]
  · have hconf := State.sendConfigured_iff.mpr ⟨hvalid, haddr⟩
    refine ⟨fun v hv hread len hlen => ?_, fun hv hread => ?_, fun hv hcap => ?_⟩
    · have hlength := State.frameLength_of_read hv (hidx ▸ hread)
      have hcheck := checkLength_of_read (s := s.setSendLen len) (len := len) hv hread
      rw [← hlen] at hlength
      refine ⟨fun hinsane => ?_, fun hsane hmin hcap => ?_⟩
      · rw [if_pos hinsane] at hcheck
        rw [txPrepStep_of_rejected hconf hlength hcheck, hraise]
      · rw [if_neg (by omega), if_pos (by exact hcap)] at hcheck
        rw [txPrepStep_of_rejected hconf hlength hcheck, hraise]
    · rw [hidx] at hread ⊢
      exact txPrepStep_of_unwritten hconf (State.frameLength_of_unwritten hv hread)
    · have hten : s.lenIdx.toNat + 1 = 10 := by
        rw [hidx, hv]
        rfl
      have hlength := State.frameLength_pps hv
      have hcheck := checkLength_of_pps (s := s.setSendLen 10) (len := 10) hv
      rw [hten] at hlength
      rw [if_pos (by exact hcap)] at hcheck
      rw [txPrepStep_of_rejected hconf hlength hcheck, hraise]

/-! ### The trailer (R167, R168) -/

/-- The trailer goes behind the bytes it was computed over, high byte first (20_memory.md R58). -/
theorem State.setTrailer_holds {s : State} {G : List Byte} {len : Nat} {c : Half} (hlen : G.length + 2 = len)
    (hG : s.holds .tx G) : (s.setTrailer len c).holds .tx (G ++ [hiByte c, loByte c]) := by
  have hhi : len - 2 = G.length := by omega
  have hlo : len - 1 = G.length + 1 := by omega
  intro j hj
  rw [List.length_append, List.length_cons, List.length_singleton] at hj
  show (((s.txbuf.write (len - 2) (hiByte c)).write (len - 1) (loByte c)).read j) = _
  rw [hhi, hlo, Memory.read_write, Memory.read_write]
  by_cases hbody : j < G.length
  · rw [if_neg (by omega), if_neg (by omega), List.getElem?_append_left hbody]
    exact hG j hbody
  · obtain rfl | rfl : j = G.length ∨ j = G.length + 1 := by omega
    · simp
    · simp

/-- Nothing behind the frame is written (R167, R168). -/
theorem State.setTrailer_read_beyond {s : State} {len j : Nat} {c : Half} (hlen : 2 ≤ len) (hj : len ≤ j) :
    (s.setTrailer len c).txbuf.read j = s.txbuf.read j := by
  show (((s.txbuf.write (len - 2) (hiByte c)).write (len - 1) (loByte c)).read j) = _
  rw [Memory.read_write_other _ _ (by omega), Memory.read_write_other _ _ (by omega)]

/-! ### The shape of a BSB or LPB frame -/

/-- `TX_PREP` has led from `s` to `t` and left in `TXBUF` the bytes `G`, as they were behind the header, and the two bytes of
`crc G`; `N` and `CKSUM` are written and nothing else. -/
structure State.BuildsFrame (s : State) (len : Nat) (crc : List Byte → Half) (t : State) (G : List Byte) : Prop where
  length : G.length + 2 = len
  stored : t.holds .tx (G ++ [hiByte (crc G), loByte (crc G)])
  body : s.fillHeader.holds .tx G
  beyond : ∀ j, len ≤ j → t.txbuf.read j = s.fillHeader.txbuf.read j
  frame : t = { s with txbuf := t.txbuf, cksum := crc G, sendLen := len, phase := .txAcq }

/-- `fill_header()` does not look at `N`. -/
theorem State.setSendLen_fillHeader (s : State) (len : Nat) :
    (s.setSendLen len).fillHeader = s.fillHeader.setSendLen len := by
  unfold State.fillHeader
  simp only [State.setSendLen_variant, State.setSendLen_params]
  split
  · rfl
  · split
    · rfl
    · rfl
  · rfl

theorem State.setSendLen_holds {s : State} {b : Buffer} {G : List Byte} (len : Nat) (h : s.holds b G) :
    (s.setSendLen len).holds b G := by
  cases b with
  | tx => exact h
  | rx => exact h

/-- What `TX_PREP` writes: `N`, `TXBUF` and `CKSUM` (R161). -/
theorem prepared_goto_eq {s u : State} {len : Nat} (h : embedChecksum (s.setSendLen len).fillHeader len = .ok u) :
    u.goto .txAcq = { s with txbuf := u.txbuf, cksum := u.cksum, sendLen := len, phase := .txAcq } := by
  obtain ⟨_, _, rfl⟩ := prepared_eq h
  rfl

/-- A frame that passes the tests and whose checksum `embed_checksum()` takes by `crc` over header and body is built. -/
theorem exists_buildsFrame {s : State} {len : Nat} {crc : List Byte → Half} (hconf : s.sendConfigured = true)
    (hlength : s.frameLength = .ok len) (hcheck : checkLength (s.setSendLen len) len = .ok none) (hlen : 2 ≤ len)
    (hfilled : s.fillHeader.txbuf.filled (len - 2))
    (hembed : ∀ u : State, u.variant = s.variant → ∀ G, u.readBytes .tx (len - 2) = .ok G →
      embedChecksum u len = .ok (u.setTrailer len (crc G))) :
    ∃ t G, txPrepStep s = .next t ∧ s.BuildsFrame len crc t G := by
  obtain ⟨G, hG⟩ := State.readBytes_of_filled (s := s.fillHeader) (b := .tx) hfilled
  obtain ⟨hcount, hbody⟩ := State.readBytes_eq_ok.mp hG
  have htotal : G.length + 2 = len := by omega
  have hheader := State.setSendLen_holds len hbody
  rw [← State.setSendLen_fillHeader] at hheader
  have hread := State.readBytes_eq_ok.mpr ⟨hcount, hheader⟩
  have hembedded := hembed _ (by simp) G hread
  have hframe := prepared_goto_eq hembedded
  refine ⟨_, G, txPrepStep_of_embedded hconf hlength hcheck hembedded, htotal, State.setTrailer_holds htotal hheader, hbody,
    fun j hj => ?_, hframe⟩
  rw [State.goto_txbuf, State.setTrailer_read_beyond hlen hj, State.setSendLen_fillHeader, State.setSendLen_txbuf]

section
variable {s t : State} {len : Nat} {crc : List Byte → Half} {G : List Byte}

theorem State.BuildsFrame.take_eq (h : s.BuildsFrame len crc t G) (hi lo : Byte) : (G ++ [hi, lo]).take (len - 2) = G := by
  have hlen := h.length
  rw [show len - 2 = G.length by omega, List.take_left]

/-- A byte of the frame before the trailer is the one behind the header. -/
theorem State.BuildsFrame.getElem?_eq (h : s.BuildsFrame len crc t G) (hi lo : Byte) {j : Nat} (hj : j < len - 2) :
    (G ++ [hi, lo])[j]? = s.fillHeader.txbuf.read j := by
  have hlen := h.length
  rw [List.getElem?_append_left (by omega)]
  exact (h.body j (by omega)).symm

theorem State.BuildsFrame.getElem?_hi (h : s.BuildsFrame len crc t G) (hi lo : Byte) :
    (G ++ [hi, lo])[len - 2]? = some hi := by
  have hlen := h.length
  rw [show len - 2 = G.length by omega]
  simp

theorem State.BuildsFrame.getElem?_lo (h : s.BuildsFrame len crc t G) (hi lo : Byte) :
    (G ++ [hi, lo])[len - 1]? = some lo := by
  have hlen := h.length
  rw [show len - 1 = G.length + 1 by omega]
  simp

end

/-! ### BSB (R164, R167) -/

theorem State.fillHeader_read_bsb {s : State} (hv : s.variant = .bsb) (j : Nat) :
    s.fillHeader.txbuf.read j = if j = 2 then some s.dest else if j = 1 then some (bsbSourceByte s.params s.own)
      else if j = 0 then some 0xDC else s.txbuf.read j := by
  unfold State.fillHeader
  rw [hv]
  simp [Memory.read_write, Config.sofBsbDc]

theorem embedChecksum_bsb {s : State} {len : Nat} {G : List Byte} (hv : s.variant = .bsb)
    (hG : s.readBytes .tx (len - 2) = .ok G) : embedChecksum s len = .ok (s.setTrailer len (crcBsb G)) := by
  rw [embedChecksum, hv]
  dsimp only
  rw [hG]

/-- The register's own bytes are the trailer that leaves no residue (42_checksum.md R141). -/
theorem crcBsb_append_trailer (G : List Byte) : crcBsb (G ++ [hiByte (crcBsb G), loByte (crcBsb G)]) = 0 :=
  (crcTrailerGivesZeroResidue G _ _).mpr (hiByte_append_loByte _)

/-- A sane length field and a written body are all that BSB's frame takes (R161 to R164). -/
theorem exists_buildsFrame_bsb {s : State} {len : Byte} (hv : s.variant = .bsb) (hconf : s.sendConfigured = true)
    (hcap : 33 ≤ s.params.bufCap) (hidx : s.lenIdx = 3) (hfield : s.txbuf.read 3 = some len) (hmin : 6 ≤ len.toNat)
    (hmax : len.toNat ≤ 32) (hbody : ∀ j, 4 ≤ j → j < len.toNat - 2 → s.txbuf.read j ≠ none) :
    ∃ t G, txPrepStep s = .next t ∧ s.BuildsFrame len.toNat crcBsb t G := by
  have hnot : s.variant ≠ .pps := by simp [hv]
  have hlength : s.frameLength = .ok len.toNat := by
    rw [State.frameLength_of_read hnot (by rw [hv]; exact hfield), if_pos hv]
  have hcheck := checkLength_of_inside (s := s.setSendLen len.toNat) (v := len) hnot (by simpa [hidx] using hfield) hmax hmin
    (by simp; omega)
  refine exists_buildsFrame hconf hlength hcheck (by omega) (fun j hj => ?_)
    fun u hu G hG => embedChecksum_bsb (hu.trans hv) hG
  rw [State.fillHeader_read_bsb hv]
  split_ifs with h2 h1 h0
  · rfl
  · rfl
  · rfl
  · by_cases h3 : j = 3
    · rw [h3, hfield]
      rfl
    · exact Option.isSome_iff_ne_none.mpr (hbody j (by omega) hj)

/-- Settles O31 (43_transmitter.md R164, R167): header and body byte by byte, then the trailer. -/
theorem prepareBuildsBsbFrame : Obligations.PrepareBuildsBsbFrame := by
  intro s len hparams hp hv hvalid hown hdest hidx hfield hmin hmax hbody
  have hconf := State.sendConfigured_iff.mpr ⟨hvalid, fun _ => ⟨hown, hdest⟩⟩
  obtain ⟨t, G, hstep, hbuilt⟩ := exists_buildsFrame_bsb hv hconf (Params.bufCap_ge hparams) hidx hfield hmin hmax hbody
  have hheader := State.fillHeader_read_bsb hv
  have hcksum : t.cksum = crcBsb G := by rw [hbuilt.frame]
  refine ⟨t, G ++ [hiByte (crcBsb G), loByte (crcBsb G)], (exec_send_of_prep hp).trans hstep, by simp [hbuilt.length],
    hbuilt.stored, ?_, ?_, ?_, fun j h3 hj => ?_, ?_, ?_, ?_, crcBsb_append_trailer G, fun j hj => ?_, ?_⟩
  · rw [hbuilt.getElem?_eq _ _ (by omega), hheader]
    rfl
  · rw [hbuilt.getElem?_eq _ _ (by omega), hheader]
    rfl
  · rw [hbuilt.getElem?_eq _ _ (by omega), hheader]
    rfl
  · rw [hbuilt.getElem?_eq _ _ hj, hheader, if_neg (by omega), if_neg (by omega), if_neg (by omega)]
  · rw [hbuilt.take_eq]
    exact hbuilt.getElem?_hi _ _
  · rw [hbuilt.take_eq]
    exact hbuilt.getElem?_lo _ _
  · rw [hbuilt.take_eq, hcksum]
  · rw [hbuilt.beyond j hj, hheader, if_neg (by omega), if_neg (by omega), if_neg (by omega)]
  · rw [hcksum]
    exact hbuilt.frame

/-! ### LPB (R165, R168) -/

/-- The addresses of an LPB header, in the order of `LPB_ADDR_ORDER` (30_encoding.md R81). -/
def State.lpbAddrs (s : State) : Byte × Byte :=
  match s.params.lpbAddrOrder with
  | .destAt2 => (s.dest, s.own)
  | .ownAt2 => (s.own, s.dest)

theorem State.lpbAddrs_destAt2 {s : State} (h : s.params.lpbAddrOrder = .destAt2) : s.lpbAddrs = (s.dest, s.own) := by
  rw [State.lpbAddrs, h]

theorem State.lpbAddrs_ownAt2 {s : State} (h : s.params.lpbAddrOrder = .ownAt2) : s.lpbAddrs = (s.own, s.dest) := by
  rw [State.lpbAddrs, h]

theorem State.fillHeader_read_lpb {s : State} (hv : s.variant = .lpb) (j : Nat) :
    s.fillHeader.txbuf.read j = if j = 3 then some s.lpbAddrs.2 else if j = 2 then some s.lpbAddrs.1
      else if j = 0 then some 0x78 else s.txbuf.read j := by
  unfold State.fillHeader
  rw [hv]
  cases ho : s.params.lpbAddrOrder with
  | destAt2 => simp [Memory.read_write, Config.sofLpb, State.lpbAddrs_destAt2 ho]
  | ownAt2 => simp [Memory.read_write, Config.sofLpb, State.lpbAddrs_ownAt2 ho]

theorem embedChecksum_lpb {s : State} {len : Nat} {G : List Byte} (hv : s.variant = .lpb)
    (hG : s.readBytes .tx (len - 2) = .ok G) : embedChecksum s len = .ok (s.setTrailer len (crcLpb G (len - 1))) := by
  rw [embedChecksum, hv]
  dsimp only
  rw [show lpbReadCount (len - 1) = len - 2 from rfl, hG]

/-- A sane length field and a written body are all that LPB's frame takes (R161 to R163, R165). -/
theorem exists_buildsFrame_lpb {s : State} {len : Byte} (hv : s.variant = .lpb) (hconf : s.sendConfigured = true)
    (hcap : 33 ≤ s.params.bufCap) (hidx : s.lenIdx = 1) (hfield : s.txbuf.read 1 = some len) (hmin : 5 ≤ len.toNat)
    (hmax : len.toNat ≤ 32) (hbody : ∀ j, 4 ≤ j → j < len.toNat - 1 → s.txbuf.read j ≠ none) :
    ∃ t G, txPrepStep s = .next t ∧ s.BuildsFrame (len.toNat + 1) (fun G => crcLpb G len.toNat) t G := by
  have hnot : s.variant ≠ .pps := by simp [hv]
  have hlength : s.frameLength = .ok (len.toNat + 1) := by
    rw [State.frameLength_of_read hnot (by rw [hv]; exact hfield), if_neg (by simp [hv])]
  have hcheck := checkLength_of_inside (s := s.setSendLen (len.toNat + 1)) (v := len) (len := len.toNat + 1) hnot
    (by simpa [hidx] using hfield) hmax (by omega) (by simp; omega)
  refine exists_buildsFrame hconf hlength hcheck (by omega) (fun j hj => ?_)
    fun u hu G hG => embedChecksum_lpb (hu.trans hv) hG
  rw [State.fillHeader_read_lpb hv]
  split_ifs with h3 h2 h0
  · rfl
  · rfl
  · rfl
  · by_cases h1 : j = 1
    · rw [h1, hfield]
      rfl
    · exact Option.isSome_iff_ne_none.mpr (hbody j (by omega) (by omega))

/-- Settles O32 (43_transmitter.md R165, R168): header and body byte by byte, then the trailer. -/
theorem prepareBuildsLpbFrame : Obligations.PrepareBuildsLpbFrame := by
  intro s len hparams hp hv hvalid hown hdest hidx hfield hmin hmax hbody
  have hconf := State.sendConfigured_iff.mpr ⟨hvalid, fun _ => ⟨hown, hdest⟩⟩
  obtain ⟨t, G, hstep, hbuilt⟩ := exists_buildsFrame_lpb hv hconf (Params.bufCap_ge hparams) hidx hfield hmin hmax hbody
  have hheader := State.fillHeader_read_lpb hv
  have hcksum : t.cksum = crcLpb G len.toNat := by rw [hbuilt.frame]
  have htake : ∀ hi lo, (G ++ [hi, lo]).take (len.toNat - 1) = G := hbuilt.take_eq
  have haddr2 : ∀ hi lo, (G ++ [hi, lo])[2]? = some s.lpbAddrs.1 := fun hi lo => by
    rw [hbuilt.getElem?_eq _ _ (by omega), hheader]
    rfl
  have haddr3 : ∀ hi lo, (G ++ [hi, lo])[3]? = some s.lpbAddrs.2 := fun hi lo => by
    rw [hbuilt.getElem?_eq _ _ (by omega), hheader]
    rfl
  refine ⟨t, G ++ [hiByte (crcLpb G len.toNat), loByte (crcLpb G len.toNat)], (exec_send_of_prep hp).trans hstep,
    by simp [hbuilt.length], hbuilt.stored, ?_, ?_, fun ho => ?_, fun ho => ?_, fun j h4 hj => ?_, ?_, ?_, ?_,
    fun j hj => ?_, ?_⟩
  · rw [hbuilt.getElem?_eq _ _ (by omega), hheader]
    rfl
  · rw [hbuilt.getElem?_eq _ _ (by omega), hheader]
    exact hfield
  · rw [haddr2, haddr3, State.lpbAddrs_destAt2 ho]
    exact ⟨rfl, rfl⟩
  · rw [haddr2, haddr3, State.lpbAddrs_ownAt2 ho]
    exact ⟨rfl, rfl⟩
  · rw [hbuilt.getElem?_eq _ _ (by omega), hheader, if_neg (by omega), if_neg (by omega), if_neg (by omega)]
  · rw [htake]
    exact hbuilt.getElem?_hi _ _
  · rw [htake]
    exact hbuilt.getElem?_lo _ _
  · rw [htake, hcksum]
  · rw [hbuilt.beyond j hj, hheader, if_neg (by omega), if_neg (by omega), if_neg (by omega)]
  · rw [hcksum]
    exact hbuilt.frame

/-! ### PPS (R166, R169) -/

theorem State.fillHeader_of_pps {s : State} (hv : s.variant = .pps) : s.fillHeader = s := by
  rw [State.fillHeader, hv]

theorem embedChecksum_pps {s : State} {len : Nat} {G : List Byte} (hv : s.variant = .pps)
    (hG : s.readBytes .tx s.lenIdx.toNat = .ok G) :
    embedChecksum s len = .ok ((s.setTx s.lenIdx.toNat (crcPps G)).setCksum ((crcPps G).setWidth 16)) := by
  rw [embedChecksum, hv]
  dsimp only
  rw [hG]

/-- Settles O33 (43_transmitter.md R166, R169). -/
theorem preparePpsFrame : Obligations.PreparePpsFrame := by
  intro s G hparams hp hv hvalid hidx hcount hG
  have hcap := Params.bufCap_ge hparams
  have hnine : s.lenIdx.toNat = 9 := by rw [hidx]; rfl
  have hconf := State.sendConfigured_iff.mpr ⟨hvalid, fun hnot => absurd hv hnot⟩
  have hlength : s.frameLength = .ok 10 := by rw [State.frameLength_pps hv, hnine]
  have hcheck : checkLength (s.setSendLen 10) 10 = .ok none := by
    rw [checkLength_of_pps (s := s.setSendLen 10) hv, if_neg (by rw [State.setSendLen_params]; omega)]
  have hembed := embedChecksum_pps (s := s.setSendLen 10) (len := 10) hv
    (State.readBytes_eq_ok.mpr ⟨hcount.trans hnine.symm, hG⟩)
  rw [← State.fillHeader_of_pps (s := s.setSendLen 10) hv] at hembed
  rw [exec_send_of_prep hp, txPrepStep_of_embedded hconf hlength hcheck hembed]
  rw [State.fillHeader_of_pps (s := s.setSendLen 10) hv, State.setSendLen_lenIdx, hnine]
  rfl

end Sys2Proof.Machine
end

section
/-! One byte to the bus (43_transmitter.md R173 to R176): what answers an offer, and what the answer does. -/

namespace Sys2Proof.Machine

/-! ### The answer (10_state.md R39, R43) -/

theorem State.drawAccept_of_forced {s : State} (h : s.params.forceAccept = true) : s.drawAccept = .ok (1, s) :=
  if_pos h

theorem State.drawAccept_of_scripted {s : State} {acc : Nat} {rest : List Nat} (hforce : s.params.forceAccept = false)
    (h : s.acceptDraws = acc :: rest) (hacc : acc ≤ 1) : s.drawAccept = .ok (acc, { s with acceptDraws := rest }) := by
  simp [State.drawAccept, hforce, h, hacc]

theorem State.drawAccept_of_outside {s : State} {acc : Nat} {rest : List Nat} (hforce : s.params.forceAccept = false)
    (h : s.acceptDraws = acc :: rest) (hacc : 1 < acc) : s.drawAccept = .error (.acceptedCount acc) := by
  simp [State.drawAccept, hforce, h, hacc]

/-- Without the defaults an unscripted offer takes one free value (10_state.md R43). -/
theorem State.drawAccept_anyValue {s : State} (hforce : s.params.forceAccept = false) (hu : s.unscripted = .anyValue)
    (hd : s.acceptDraws = []) : ∃ acc, s.drawAccept = .ok (acc, { s with drawCount := s.drawCount + 1 }) := by
  simp [State.drawAccept, hforce, hu, hd]

theorem State.drawAccept_of_unscripted {s : State} (hforce : s.params.forceAccept = false) (h : s.acceptDraws = []) :
    ∃ acc c, s.drawAccept = .ok (acc, { s with drawCount := c }) := by
  obtain hu | hu := s.unscripted.eq_anyValue_or_simulator
  · obtain ⟨acc, hdraw⟩ := State.drawAccept_anyValue hforce hu h
    exact ⟨acc, _, hdraw⟩
  · exact ⟨1, s.drawCount, State.drawAccept_simulator hu h⟩

/-! ### The offer (R173 to R176) -/

/-- A refused offer goes back to the acquisition (R175). -/
theorem afterOffer_refused {s : State} {b : Byte} (hheld : s.csHeld = []) :
    afterOffer 0 (s.csEnter.offer (polarity s.variant b) 0).csExit = .next (s.offeredByte b 0) := by
  rw [polarity_eq]
  simp [afterOffer, State.offeredByte, State.goto, State.csExit, State.offer, State.csEnter, hheld]

/-- Whatever answered the offer, the step writes what `State.offeredByte` writes out. -/
theorem txByteStep_of_answer {s : State} {b : Byte} {acc c : Nat} {ds : List Nat} (hcmd : s.cmd = encode .send)
    (hheld : s.csHeld = []) (hread : s.txbuf.read s.k.toNat = some b) (hk : s.k.toNat < 255)
    (hdraw : s.csEnter.drawAccept = .ok (acc, { s.csEnter with acceptDraws := ds, drawCount := c })) :
    txByteStep s = .next ({ s with acceptDraws := ds, drawCount := c }.offeredByte b acc) := by
  have hbyte : s.csEnter.readByte .tx s.k.toNat = .ok b := State.readByte_eq_ok.mpr hread
  obtain ⟨hacc, -⟩ := State.drawAccept_cases hdraw
  unfold txByteStep
  dsimp only
  rw [State.csEnter_k, hbyte]
  dsimp only
  rw [hdraw]
  obtain rfl | rfl := Nat.le_one_iff_eq_zero_or_eq_one.mp hacc
  · exact afterOffer_refused (s := { s with acceptDraws := ds, drawCount := c }) hheld
  · exact afterOffer_offeredByte (s := { s with acceptDraws := ds, drawCount := c }) hcmd hheld hk

theorem txByteStep_of_refused {s : State} {b : Byte} {r : Refusal} (hread : s.txbuf.read s.k.toNat = some b)
    (hdraw : s.csEnter.drawAccept = .error r) : txByteStep s = .refused r := by
  have hbyte : s.csEnter.readByte .tx s.k.toNat = .ok b := State.readByte_eq_ok.mpr hread
  unfold txByteStep
  dsimp only
  rw [State.csEnter_k, hbyte]
  dsimp only
  rw [hdraw]

/-- Settles O37 (43_transmitter.md R173 to R176), by what answers the offer. -/
theorem txByteOffersOneByte : Obligations.TxByteOffersOneByte := by
  intro s b hp hcmd hheld hread hk
  rw [exec_send_of_byte hp]
  refine ⟨fun hforce => ?_, fun hforce acc rest hq => ⟨fun hacc => ?_, fun hacc => ?_⟩, fun hforce hq => ?_⟩
  · exact txByteStep_of_answer hcmd hheld hread hk (State.drawAccept_of_forced (s := s.csEnter) hforce)
  · exact txByteStep_of_answer hcmd hheld hread hk (State.drawAccept_of_scripted (s := s.csEnter) hforce hq hacc)
  · exact txByteStep_of_refused hread (State.drawAccept_of_outside (s := s.csEnter) hforce hq hacc)
  · obtain ⟨acc, c, hdraw⟩ := State.drawAccept_of_unscripted (s := s.csEnter) hforce hq
    obtain ⟨hacc, -⟩ := State.drawAccept_cases hdraw
    exact ⟨acc, c, hacc, txByteStep_of_answer hcmd hheld hread hk hdraw⟩

end Sys2Proof.Machine
end

section
/-! The whole run of SEND over a prepared frame (43_transmitter.md R172 to R177, 95_test_vectors.md S6): the check after the
wait, and one step for each byte. The loop invariant `State.Sent` says what has been offered. -/

namespace Sys2Proof.Machine

/-- With an empty agenda the Engine runs SEND in each of its phases behind `TX_PREP` (20_memory.md R64). -/
theorem step_send {s : State} (hagenda : s.agenda = []) (hcmd : s.cmd = encode .send) (hidle : s.phase ≠ .idle)
    (hhunt : s.phase ≠ .rxHunt) : step s = exec .send s := by
  have hfetch : s.fetch = some (.ok .send) := by
    rw [State.fetch_of_not_hunt hidle hhunt, hcmd, decodeCommand_encode rfl]
  exact (stepRunsFetchedInstruction s .send (.inl hagenda) hfetch rfl).2 hagenda

/-- Only SEND starts in `TX_PREP` (30_encoding.md R72). -/
theorem eq_send_of_firstPhase {v : Byte} (h : firstPhase v = .txPrep) : v = encode .send := by
  by_contra hsend
  by_cases hreceive : v = encode .receive
  · rw [hreceive] at h
    simp [show firstPhase (encode .receive) = .rxHunt from firstPhase_receive] at h
  · rw [firstPhase_eq_exec hreceive hsend] at h
    cases h

theorem State.Inv.cmd_send {s : State} (h : s.Inv) (hs : s.phase.start = some .txPrep) : s.cmd = encode .send :=
  eq_send_of_firstPhase (h.command _ hs)

/-- The offer of one accepted byte, as the bus sees it (R173). -/
def acceptedOffer (v : Variant) (b : Byte) : Offer := { data := logicalByte v b, accepted := 1 }

/-- Begun in `s`, the transmission has led to `t`: the first `k` bytes of `F` are offered and accepted, the answers to the
others are pending, and the buffers, the queue and `CKSUM` are as in `s`. -/
structure State.Sent (s : State) (F : List Byte) (k : Nat) (t : State) : Prop where
  agenda : t.agenda = []
  cmd : t.cmd = encode .send
  held : t.csHeld = []
  unforced : t.params.forceAccept = false
  variant : t.variant = s.variant
  length : t.sendLen = F.length
  index : t.k.toNat = k
  phase : k < F.length → t.phase = .txByte
  finished : k = F.length → t.status = 0x06
  answers : t.acceptDraws = List.replicate (F.length - k) 1
  offered : t.offered = s.offered ++ (F.take k).map (acceptedOffer s.variant)
  txbuf : t.txbuf = s.txbuf
  rxbuf : t.rxbuf = s.rxbuf
  queue : t.rxq = s.rxq
  cksum : t.cksum = s.cksum

/-- One byte is one step (R173, R176). -/
theorem State.Sent.next_byte {s t : State} {F : List Byte} {k : Nat} (h : s.Sent F k t) (hF : s.holds .tx F)
    (hlen : F.length ≤ 64) (hk : k < F.length) : ∃ u, step t = .next u ∧ s.Sent F (k + 1) u := by
  have hp := h.phase hk
  have hindex := h.index
  have hread : t.txbuf.read t.k.toNat = some F[k] := by
    rw [h.txbuf, hindex, ← List.getElem?_eq_getElem hk]
    exact hF k hk
  have hanswers : t.acceptDraws = 1 :: List.replicate (F.length - (k + 1)) 1 := by
    rw [h.answers, show F.length - k = F.length - (k + 1) + 1 by omega, List.replicate_succ]
  obtain ⟨-, hscripted, -⟩ := txByteOffersOneByte t F[k] hp h.cmd h.held hread (by omega)
  obtain ⟨haccept, -⟩ := hscripted h.unforced 1 _ hanswers
  have hlength : t.sendLen = F.length := h.length
  refine ⟨_, (step_send h.agenda h.cmd (by simp [hp]) (by simp [hp])).trans (haccept le_rfl), ?_⟩
  refine ⟨h.agenda, h.cmd, h.held, h.unforced, h.variant, h.length, ?_, fun hmore => ?_, fun hlast => ?_, rfl, ?_,
    h.txbuf, h.rxbuf, h.queue, h.cksum⟩
  · show (t.k + 1).toNat = k + 1
    rw [toNat_succ (by omega), hindex]
  · have hnot : t.k.toNat + 1 ≠ t.sendLen := by omega
    simp [State.offeredByte, hnot]
  · have hend : t.k.toNat + 1 = t.sendLen := by omega
    exact State.status_of_success (by simp [State.offeredByte, hend]) (by simp [State.offeredByte, hend])
      (by simp [State.offeredByte, hend]) (by simp [State.offeredByte, hend])
  · show t.offered ++ [acceptedOffer t.variant F[k]] = _
    rw [h.offered, h.variant, List.take_succ_eq_append_getElem hk, List.map_append, List.append_assoc]
    rfl

/-- The bytes that are left, one step each. -/
theorem State.Sent.remaining_bytes {s : State} {F : List Byte} (hF : s.holds .tx F) (hlen : F.length ≤ 64) (n : Nat) :
    ∀ {k : Nat} {t : State}, s.Sent F k t → k + n = F.length →
      ∃ u, s.Sent F F.length u ∧ core.run n t = .next u := by
  induction n with
  | zero =>
    intro k t h hk
    exact ⟨t, hk ▸ h, rfl⟩
  | succ n ih =>
    intro k t h hk
    obtain ⟨t', hstep, h'⟩ := h.next_byte hF hlen (by omega)
    obtain ⟨u, hu, hrun⟩ := ih h' (by omega)
    exact ⟨u, hu, (core_run_succ hstep n).trans hrun⟩

/-- Settles O38 (43_transmitter.md R172 to R177, 95_test_vectors.md S6). -/
theorem sendOffersWholeFrame : Obligations.SendOffersWholeFrame := by
  intro s F hinv hagenda hp hin hlen hF hforce hdraws
  have hcmd := hinv.cmd_send (by rw [hp]; rfl)
  obtain ⟨-, -, -, hheld⟩ := hinv.outputs
  obtain ⟨-, hmin, hcap, -, -⟩ := hinv.prepared (by rw [hp]; rfl)
  have hbound : F.length ≤ 64 := hlen ▸ hcap.trans (Params.bufCap_le hinv.params)
  have hpos : 0 < F.length := hlen ▸ lt_of_lt_of_le (by decide) hmin
  have hcheck := (step_send hagenda hcmd (by simp [hp]) (by simp [hp])).trans
    ((checkDeadlineAfterWait s hp hcmd).2 hin)
  have hbegin : s.Sent F 0 { s with k := 0, phase := .txByte } :=
    ⟨hagenda, hcmd, hheld, hforce, rfl, hlen.symm, rfl, fun _ => rfl, fun h => absurd h (by omega), hdraws, by simp,
      rfl, rfl, rfl, rfl⟩
  obtain ⟨u, hall, hrun⟩ := hbegin.remaining_bytes hF hbound F.length (by omega)
  refine ⟨u, (core_run_succ hcheck F.length).trans hrun, hall.finished rfl, ?_, hall.txbuf, hall.rxbuf, hall.queue,
    hall.cksum⟩
  rw [hall.offered, List.take_length]
  rfl

end Sys2Proof.Machine
end

section
/-! The deadline of a send and its frame (43_transmitter.md R170 to R180): who moves the clock and the deadline base, who
raises BUS_TIMEOUT, and that a frame being sent is nobody's to write. -/

namespace Sys2Proof.Machine

/-! ### The clock, the deadline base and BUS_TIMEOUT under the Engine -/

/-- One Engine step from `s` to `t` leaves the clock and the deadline base alone, and where it raises BUS_TIMEOUT the deadline
has passed and the send ends (43_transmitter.md R170, R172, R175). -/
structure KeepsDeadline (s t : State) : Prop where
  clock : t.ms = s.ms
  base : t.t0 = s.t0
  timeout : t.err = s.err ∨ t.err ≠ .busTimeout ∨ 1000 < s.elapsed s.t0 ∧ t.phase = .idle ∧ t.done = true

/-- A step that raises nothing. -/
theorem KeepsDeadline.of_err {s t : State} (hclock : t.ms = s.ms) (hbase : t.t0 = s.t0) (herr : t.err = s.err) :
    KeepsDeadline s t :=
  ⟨hclock, hbase, .inl herr⟩

theorem State.finishOk_keepsDeadline {s u : State} (hclock : u.ms = s.ms) (hbase : u.t0 = s.t0) :
    KeepsDeadline s u.finishOk :=
  ⟨hclock, hbase, .inr (.inl nofun)⟩

theorem State.raiseErr_keepsDeadline {s u : State} {e : ErrCode} (hclock : u.ms = s.ms) (hbase : u.t0 = s.t0)
    (he : e ≠ .busTimeout) : KeepsDeadline s (u.raiseErr e) :=
  ⟨hclock, hbase, .inr (.inl he)⟩

/-- A part of the step that neither moves an instant nor raises an error may come first. -/
theorem KeepsDeadline.of_same {s u t : State} (h : KeepsDeadline u t) (hclock : u.ms = s.ms) (hbase : u.t0 = s.t0)
    (herr : u.err = s.err) : KeepsDeadline s t := by
  obtain ⟨hms, ht0, htimeout⟩ := h
  unfold State.elapsed at htimeout
  rw [hclock, hbase, herr] at htimeout
  exact ⟨hms.trans hclock, ht0.trans hbase, htimeout⟩

/-- BUS_TIMEOUT raised behind the deadline (R170, R172). -/
theorem State.busTimeout_keepsDeadline {s : State} (h : 1000 < s.elapsed s.t0) :
    KeepsDeadline s (s.raiseErr .busTimeout) :=
  ⟨rfl, rfl, .inr (.inr ⟨h, rfl, rfl⟩)⟩

theorem cksumStep_keepsDeadline {b : Buffer} {count : Nat → Nat} {engine : List Byte → Nat → Half} {s t : State}
    (h : cksumStep b count engine s = .next t) : KeepsDeadline s t := by
  obtain ⟨-, rfl⟩ | ⟨-, _, -, -, rfl⟩ := cksumStep_cases h
  · exact State.raiseErr_keepsDeadline rfl rfl (by decide)
  · exact State.finishOk_keepsDeadline rfl rfl

theorem configure_keepsDeadline (s : State) :
    KeepsDeadline s s.configureVariant.configureOwn.configureDest.finishOk := by
  obtain ⟨_, _, _, _, _, _, _, _, hc⟩ := configure_eq s
  rw [hc]
  exact ⟨rfl, rfl, .inr (.inl nofun)⟩

theorem sofFound_keepsDeadline {b : Byte} {s t : State} (h : sofFound b s = .next t) : KeepsDeadline s t := by
  obtain ⟨-, -, -, rfl⟩ | ⟨-, -, rfl⟩ | ⟨-, -, -, _, _, _, -, rfl⟩ := sofFound_cases h
  · exact ⟨rfl, rfl, .inr (.inl nofun)⟩
  · exact .of_err rfl rfl rfl
  · exact .of_err rfl rfl rfl

theorem rxHuntStep_keepsDeadline {s t : State} (h : rxHuntStep s = .next t) : KeepsDeadline s t := by
  obtain ⟨-, rfl⟩ | ⟨-, -, rfl⟩ | ⟨_, _, -, -, -, rfl⟩ | ⟨_, _, _, -, -, -, hsof⟩ := rxHuntStep_cases h
  · exact State.raiseErr_keepsDeadline rfl rfl (by decide)
  · exact State.raiseErr_keepsDeadline rfl rfl (by decide)
  · exact .of_err rfl rfl rfl
  · exact (sofFound_keepsDeadline hsof).of_same rfl rfl rfl

theorem afterAppend_keepsDeadline {s t : State} (h : afterAppend s = .next t) : KeepsDeadline s t := by
  obtain ⟨-, rfl⟩ | ⟨-, -, rfl⟩ | ⟨-, -, _, -, ⟨-, rfl⟩ | ⟨-, rfl⟩⟩ := afterAppend_cases h
  · exact .of_err rfl rfl rfl
  · exact State.raiseErr_keepsDeadline rfl rfl (by decide)
  · exact .of_err rfl rfl rfl
  · exact .of_err rfl rfl rfl

theorem rxByteStep_keepsDeadline {s t : State} (h : rxByteStep s = .next t) : KeepsDeadline s t := by
  obtain ⟨-, rfl⟩ | ⟨-, -, rfl⟩ | ⟨_, _, -, -, -, rfl⟩ | ⟨_, _, -, -, -, happ⟩ := rxByteStep_cases h
  · exact .of_err rfl rfl rfl
  · exact .of_err rfl rfl rfl
  · exact State.raiseErr_keepsDeadline rfl rfl (by decide)
  · exact (afterAppend_keepsDeadline happ).of_same rfl rfl rfl

theorem rxCheckStep_keepsDeadline {s t : State} (h : rxCheckStep s = .next t) : KeepsDeadline s t := by
  obtain ⟨-, rfl⟩ | ⟨-, -, _, _, -, ⟨-, rfl⟩ | ⟨-, rfl⟩⟩ := rxCheckStep_cases h
  · exact State.raiseErr_keepsDeadline rfl rfl (by decide)
  · exact State.finishOk_keepsDeadline rfl rfl
  · exact State.raiseErr_keepsDeadline rfl rfl (by decide)

theorem txPrepStep_keepsDeadline {s t : State} (h : txPrepStep s = .next t) : KeepsDeadline s t := by
  obtain ⟨-, rfl⟩ | ⟨-, len, -, ⟨e, he, -, rfl⟩ | ⟨-, _, hembed, rfl⟩⟩ := txPrepStep_cases h
  · exact State.raiseErr_keepsDeadline rfl rfl (by decide)
  · exact State.raiseErr_keepsDeadline rfl rfl (by rintro rfl; simp at he)
  · obtain ⟨_, _, rfl⟩ := prepared_eq hembed
    exact .of_err rfl rfl rfl

theorem txAcqStep_keepsDeadline {s t : State} (h : txAcqStep s = .next t) : KeepsDeadline s t := by
  obtain ⟨hlate, rfl⟩ | ⟨-, -, rfl⟩ | ⟨-, -, _, _, _, -, rfl⟩ := txAcqStep_cases h
  · exact State.busTimeout_keepsDeadline hlate
  · exact .of_err rfl rfl rfl
  · exact .of_err rfl rfl rfl

theorem txWaitStep_keepsDeadline {s t : State} (h : txWaitStep s = .next t) : KeepsDeadline s t := by
  obtain ⟨_, rfl | ⟨-, rfl⟩ | rfl⟩ := txWaitStep_cases h
  · exact .of_err rfl rfl rfl
  · exact .of_err rfl rfl rfl
  · exact .of_err rfl rfl rfl

theorem txChkStep_keepsDeadline {s t : State} (h : txChkStep s = .next t) : KeepsDeadline s t := by
  obtain ⟨hlate, rfl⟩ | ⟨-, rfl⟩ := txChkStep_cases h
  · exact State.busTimeout_keepsDeadline hlate
  · exact .of_err rfl rfl rfl

theorem afterOffer_keepsDeadline {acc : Nat} {s t : State} (h : afterOffer acc s = .next t) : KeepsDeadline s t := by
  obtain ⟨-, rfl⟩ | ⟨-, -, rfl⟩ | ⟨-, -, rfl⟩ := afterOffer_cases h
  · exact .of_err rfl rfl rfl
  · exact State.finishOk_keepsDeadline rfl rfl
  · exact .of_err rfl rfl rfl

theorem txByteStep_keepsDeadline {s t : State} (h : txByteStep s = .next t) : KeepsDeadline s t := by
  obtain ⟨_, _, _, _, -, -, hoffer⟩ := txByteStep_cases h
  exact (afterOffer_keepsDeadline hoffer).of_same (by simp) (by simp) (by simp)

/-- The inversion of the Engine's step, read for the deadline. -/
theorem EngineRuns.keepsDeadline {s t : State} {r : Result} (hruns : EngineRuns s r) (h : r = .next t) :
    KeepsDeadline s t := by
  cases hruns with
  | hold => cases h; exact .of_err rfl rfl rfl
  | badOp => cases h; exact State.raiseErr_keepsDeadline rfl rfl (by decide)
  | nop => cases h; exact State.finishOk_keepsDeadline rfl rfl
  | configure => cases h; exact configure_keepsDeadline s
  | cksum => exact cksumStep_keepsDeadline h
  | hunt => exact rxHuntStep_keepsDeadline h
  | settle => cases h; exact .of_err rfl rfl rfl
  | byte => exact rxByteStep_keepsDeadline h
  | check => exact rxCheckStep_keepsDeadline h
  | prep => exact txPrepStep_keepsDeadline h
  | acq => exact txAcqStep_keepsDeadline h
  | wait => exact txWaitStep_keepsDeadline h
  | chk => exact txChkStep_keepsDeadline h
  | offer => exact txByteStep_keepsDeadline h

/-! ### The same under the other agents -/

/-- Only the tick moves the clock; the reset input does not (10_state.md R41, 70_reset_and_hazards.md R230). -/
theorem AgentTurn.clock {s t : State} {u : Turn} (hturn : AgentTurn s u t) (hu : u ≠ .tick) : t.ms = s.ms := by
  cases hturn with
  | tick => exact absurd rfl hu
  | arrive b =>
    obtain ⟨_, _, harrive⟩ := s.rxArrive_eq b
    rw [harrive]
  | _ => rfl

/-- A busy block accepts no command, so no agent but reset moves the deadline base (20_memory.md R54, R175). -/
theorem AgentTurn.base {s t : State} {u : Turn} (hturn : AgentTurn s u t) (hbusy : s.phase ≠ .idle) (hu : u ≠ .reset) :
    t.t0 = s.t0 := by
  cases hturn with
  | reset => exact absurd rfl hu
  | accept _ _ hidle => exact absurd hidle hbusy
  | arrive b =>
    obtain ⟨_, _, harrive⟩ := s.rxArrive_eq b
    rw [harrive]
  | _ => rfl

/-- No agent but the Engine raises an error: an accepted command and the reset clear it. -/
theorem AgentTurn.err {s t : State} {u : Turn} (hturn : AgentTurn s u t) : t.err = s.err ∨ t.err = .none := by
  cases hturn with
  | reset => exact .inr rfl
  | accept => exact .inr rfl
  | arrive b =>
    obtain ⟨_, _, harrive⟩ := s.rxArrive_eq b
    rw [harrive]
    exact .inl rfl
  | _ => exact .inl rfl

/-- Settles O39 (43_transmitter.md R178): the two raises of BUS_TIMEOUT stand behind the strict test of the deadline. -/
theorem busTimeoutOnlyAfterDeadline : Obligations.BusTimeoutOnlyAfterDeadline := by
  intro s t hstep herr hbefore
  obtain ⟨-, hruns⟩ | ⟨_, -, hturn⟩ := step_next_cases hstep
  · obtain hkeep | hother | hlate := (hruns.keepsDeadline rfl).timeout
    · exact absurd (hkeep.symm.trans herr) hbefore
    · exact absurd herr hother
    · exact hlate
  · obtain hkeep | hclear := hturn.err
    · exact absurd (hkeep.symm.trans herr) hbefore
    · rw [herr] at hclear
      cases hclear

/-- Settles O40 (43_transmitter.md R175, 10_state.md R41). -/
theorem deadlineBaseIsKept : Obligations.DeadlineBaseIsKept := by
  intro s t hstep
  obtain ⟨-, hruns⟩ | ⟨u, hu, hturn⟩ := step_next_cases hstep
  · have hkeep := hruns.keepsDeadline rfl
    exact ⟨fun _ _ => hkeep.base, fun _ => hkeep.clock⟩
  · refine ⟨fun hbusy hreset => hturn.base hbusy ?_, fun htick => hturn.clock ?_⟩
    · rintro rfl
      exact hreset hu
    · rintro rfl
      exact htick hu

/-! ### The frame of a send in progress -/

/-- The frame, its length and its checksum are the same in both states (43_transmitter.md R180). -/
structure KeepsFrame (s t : State) : Prop where
  txbuf : t.txbuf = s.txbuf
  length : t.sendLen = s.sendLen
  cksum : t.cksum = s.cksum

theorem txAcqStep_keepsFrame {s t : State} (h : txAcqStep s = .next t) : KeepsFrame s t := by
  obtain ⟨-, rfl⟩ | ⟨-, -, rfl⟩ | ⟨-, -, _, _, _, -, rfl⟩ := txAcqStep_cases h
  · exact ⟨rfl, rfl, rfl⟩
  · exact ⟨rfl, rfl, rfl⟩
  · exact ⟨rfl, rfl, rfl⟩

theorem txWaitStep_keepsFrame {s t : State} (h : txWaitStep s = .next t) : KeepsFrame s t := by
  obtain ⟨_, rfl | ⟨-, rfl⟩ | rfl⟩ := txWaitStep_cases h
  · exact ⟨rfl, rfl, rfl⟩
  · exact ⟨rfl, rfl, rfl⟩
  · exact ⟨rfl, rfl, rfl⟩

theorem txChkStep_keepsFrame {s t : State} (h : txChkStep s = .next t) : KeepsFrame s t := by
  obtain ⟨-, rfl⟩ | ⟨-, rfl⟩ := txChkStep_cases h
  · exact ⟨rfl, rfl, rfl⟩
  · exact ⟨rfl, rfl, rfl⟩

theorem afterOffer_keepsFrame {acc : Nat} {s t : State} (h : afterOffer acc s = .next t) : KeepsFrame s t := by
  obtain ⟨-, rfl⟩ | ⟨-, -, rfl⟩ | ⟨-, -, rfl⟩ := afterOffer_cases h
  · exact ⟨rfl, rfl, rfl⟩
  · exact ⟨rfl, rfl, rfl⟩
  · exact ⟨rfl, rfl, rfl⟩

theorem txByteStep_keepsFrame {s t : State} (h : txByteStep s = .next t) : KeepsFrame s t := by
  obtain ⟨_, _, _, _, -, -, hoffer⟩ := txByteStep_cases h
  obtain ⟨htxbuf, hlength, hcksum⟩ := afterOffer_keepsFrame hoffer
  exact ⟨by simpa using htxbuf, by simpa using hlength, by simpa using hcksum⟩

/-- Behind `TX_PREP` no Engine step of a SEND writes its frame (R180). -/
theorem EngineRuns.keepsFrame {s t : State} {r : Result} (hruns : EngineRuns s r) (hs : s.phase.sending = true)
    (h : r = .next t) : KeepsFrame s t := by
  cases hruns with
  | hold => cases h; exact ⟨rfl, rfl, rfl⟩
  | acq => exact txAcqStep_keepsFrame h
  | wait => exact txWaitStep_keepsFrame h
  | chk => exact txChkStep_keepsFrame h
  | offer => exact txByteStep_keepsFrame h
  | badOp _ hp | nop hp | configure hp | cksum _ _ _ _ hp | hunt hp | settle hp | byte hp | check hp | prep hp =>
    simp [hp, Phase.sending] at hs

/-- A host write to a busy block is ignored, so no agent but reset writes the frame (20_memory.md R56). -/
theorem AgentTurn.keepsFrame {s t : State} {u : Turn} (hturn : AgentTurn s u t) (hbusy : s.phase ≠ .idle)
    (hu : u ≠ .reset) : KeepsFrame s t := by
  cases hturn with
  | reset => exact absurd rfl hu
  | storeTx _ _ _ hidle => exact absurd hidle hbusy
  | arrive b =>
    obtain ⟨_, _, harrive⟩ := s.rxArrive_eq b
    rw [harrive]
    exact ⟨rfl, rfl, rfl⟩
  | _ => exact ⟨rfl, rfl, rfl⟩

/-- Settles O58 (43_transmitter.md R180, 20_memory.md R56). -/
theorem frameUnchangedWhileSending : Obligations.FrameUnchangedWhileSending := by
  intro s t hs _ hstep hreset
  have hkeep : KeepsFrame s.turned t := by
    obtain ⟨-, hruns⟩ | ⟨u, hu, hturn⟩ := step_next_cases hstep
    · exact hruns.keepsFrame hs rfl
    · refine hturn.keepsFrame (fun hidle => ?_) ?_
      · rw [show s.phase = .idle from hidle] at hs
        cases hs
      · rintro rfl
        exact hreset hu
  exact ⟨hkeep.txbuf, hkeep.length, hkeep.cksum⟩

end Sys2Proof.Machine
end

section
/-! Reset and a busy block (70_reset_and_hazards.md R230, R231, R236): what the reset input leaves of a state, the reset values
and the invariant they meet, and the host writes that a running operation ignores. -/

namespace Sys2Proof.Machine

/-! ### The reset values (R231) -/

/-- `STATUS` of an idle block whose results are clear (10_state.md R28). -/
theorem State.status_of_clear {s : State} (hp : s.phase = .idle) (hdone : s.done = false) (hok : s.ok = false)
    (herr : s.err = .none) : s.status = 0x00 := by
  unfold State.status State.busy
  rw [hp, hdone, hok, herr]
  rfl

/-- Settles O1 (70_reset_and_hazards.md R231). -/
theorem resetStateMatchesTable : Obligations.ResetStateMatchesTable := by
  have hstatus : State.reset.status = 0x00 := State.status_of_clear rfl rfl rfl rfl
  have hunwritten : ∀ j, State.reset.txbuf.read j = none ∧ State.reset.rxbuf.read j = none :=
    fun j => ⟨Memory.read_nil j, Memory.read_nil j⟩
  exact ⟨⟨rfl, rfl, rfl⟩, ⟨rfl, rfl, rfl⟩, ⟨rfl, rfl⟩, hunwritten, ⟨hstatus, rfl, rfl, rfl⟩, ⟨rfl, rfl, rfl⟩, ⟨rfl, rfl⟩,
    ⟨rfl, rfl, rfl⟩⟩

/-- Settles O3 (70_reset_and_hazards.md R231, 20_memory.md R66): an idle block with empty buffers and an empty queue, clear
results and no valid address. -/
theorem resetStateSatisfiesInvariant : Obligations.ResetStateSatisfiesInvariant := by
  have hqueue : State.reset.QueueOk := Nat.zero_le _
  have houtputs : State.reset.OutputsQuiet := ⟨rfl, rfl, rfl, rfl⟩
  have hstatus : State.reset.StatusOk := ⟨fun hbusy => absurd rfl hbusy, fun _ => ⟨rfl, rfl⟩, nofun⟩
  have hzero : (0x00 : Byte) ≠ Config.addrSentinel := by decide
  have hconfig : State.reset.ConfigOk := ⟨nofun, hzero, hzero, fun _ => rfl, fun _ => rfl, nofun⟩
  have hparams : State.reset.params.wellFormed = true := by decide
  obtain ⟨htx, hrx⟩ := State.reset_buffers_wf
  exact (State.orderly_of_idle rfl hqueue houtputs hstatus hconfig).inv hparams
    ⟨htx, hrx, Memory.within_nil _, Memory.within_nil _⟩

/-! ### The reset event (R230) -/

/-- The reset input leaves the reset state, but for the parameters and what is the transport's, the clock's, the host's or the
script's (R231). -/
theorem State.rst_eq_reset (s : State) :
    s.rst = { State.reset with
      params := s.params, txData := s.txData, rxq := s.rxq, csHeld := s.csHeld, lineBusy := s.lineBusy, ms := s.ms,
      offered := s.offered, hostData := s.hostData, agenda := s.agenda, backoffDraws := s.backoffDraws,
      acceptDraws := s.acceptDraws, busyDraws := s.busyDraws, ppsLiDraws := s.ppsLiDraws, unscripted := s.unscripted,
      drawCount := s.drawCount } := rfl

/-- Settles O2 (70_reset_and_hazards.md R230, R231): the block's registers are the reset state's. -/
theorem resetEventRestoresBlock : Obligations.ResetEventRestoresBlock := by
  intro s hnext
  obtain ⟨hconfig, hvalid, hindex, hbuffers, hresults, harguments, hphase, houtputs⟩ := resetStateMatchesTable
  refine ⟨s.turned.rst, step_of_nextTurn hnext, ?_⟩
  rw [State.rst_eq_reset]
  exact ⟨hconfig, hvalid, hindex, hbuffers, hresults, harguments, hphase, houtputs, rfl, rfl⟩

/-! ### Host writes to a busy block (R236) -/

/-- While an operation is in progress a write reaches no register (20_memory.md R54, R56). -/
theorem State.hostWrite_of_busy {s : State} (hbusy : s.phase ≠ .idle) (a v : Byte) : s.hostWrite a v = s := by
  obtain ⟨-, hw⟩ | ⟨hidle, -⟩ := s.hostWrite_cases a v
  · exact hw
  · exact absurd hidle hbusy

/-- Settles O44 (70_reset_and_hazards.md R236, 20_memory.md R54, R56): the Host's turn passes, and nothing else. -/
theorem busyIgnoresHostWrites : Obligations.BusyIgnoresHostWrites := by
  intro s a v hbusy hnext
  rw [step_of_nextTurn hnext, takeTurn, hostStep, if_neg (by decide), State.hostWrite_of_busy (s := s.turned) hbusy]

end Sys2Proof.Machine
end
